-- ==== Sys2Proof/Word.lean ====
section
/-!
DEFINITION. The word types of the core: the byte of the framebuffer and of the wire, the 72-bit command word
(30_encoding.md R80) and the logical point (00_scope.md R12: coordinates are exact integers).
-/

namespace Sys2Proof

/-- A byte, bits 7..0, bit `i` of weight `2^i` (00_scope.md R9). -/
abbrev Byte := BitVec 8

/-- A command word `cmd_word[71:0]` (30_encoding.md R80). -/
abbrev CmdWord := BitVec 72

/-- A coordinate pair; coordinates, lengths and error terms are unbounded integers (00_scope.md R10, R12). -/
abbrev Point := Int × Int

end Sys2Proof
end

