-- ==== Sys2Proof/Syntax.lean ====
section
/-!
DEFINITION. The command set: one constructor per row of spec/opcode_table.json, with the operands the row of
30_encoding.md R82 names. Coordinates and lengths are integers (30_encoding.md R83), the colour is the bit itself
(`true` = 1 = WHITE), the rotation is its two bits, the codec's operand its byte.
-/

namespace Sys2Proof

/-- A command. Operand order is that of 30_encoding.md R82. -/
inductive Instr where
  | nop
  | setPixel (x y : Int) (col : Bool)
  | getPixel (x y : Int)
  | drawLine (x0 y0 x1 y1 : Int) (col : Bool)
  | drawFastVline (x y h : Int) (col : Bool)
  | drawFastHline (x y w : Int) (col : Bool)
  | fillRect (x y w h : Int) (col : Bool)
  | fillScreen (col : Bool)
  | setRotation (r : BitVec 2)
  | clear
  | refresh
  | reverseByte (v : Byte)
  | reservedC
  | reservedD
  | reservedE
  | reservedF
deriving DecidableEq, Repr

end Sys2Proof
end

