-- ==== Sys2Proof/WellFormed.lean ====
section
/-!
DEFINITION. Which commands the encoding can carry: every coordinate and length is the value of a 16-bit two's
complement field (30_encoding.md R83). The other operands are as wide as their fields by type.
-/

namespace Sys2Proof

/-- `v` is the value of a 16-bit two's complement field: in [-32768, 32767] (30_encoding.md R83). -/
def inField16 (v : Int) : Bool := decide (-32768 ≤ v) && decide (v ≤ 32767)

/-- Every operand of the command fits its field (30_encoding.md R82, R83). -/
def Instr.wellFormed : Instr → Bool
  | .nop => true
  | .setPixel x y _ => inField16 x && inField16 y
  | .getPixel x y => inField16 x && inField16 y
  | .drawLine x0 y0 x1 y1 _ => inField16 x0 && inField16 y0 && inField16 x1 && inField16 y1
  | .drawFastVline x y h _ => inField16 x && inField16 y && inField16 h
  | .drawFastHline x y w _ => inField16 x && inField16 y && inField16 w
  | .fillRect x y w h _ => inField16 x && inField16 y && inField16 w && inField16 h
  | .fillScreen _ => true
  | .setRotation _ => true
  | .clear => true
  | .refresh => true
  | .reverseByte _ => true
  | .reservedC => true
  | .reservedD => true
  | .reservedE => true
  | .reservedF => true

end Sys2Proof
end

