-- ==== Sys2Proof/Decode.lean ====
section
/-!
DEFINITION. The decoder and the encoder of the 72-bit command word (30_encoding.md R80 to R86). The decoder is total:
every word selects a command by `op` alone (R84), the four reserved opcodes among them (R86). What is not a 72-bit word
is rejected by name.
-/

namespace Sys2Proof

/-! ### The fields of a command word (30_encoding.md R80) -/

/-- `op = cmd_word[71:68]`. -/
def opField (w : CmdWord) : BitVec 4 := w.extractLsb' 68 4

/-- `col = cmd_word[67]`. -/
def colField (w : CmdWord) : Bool := w.getLsbD 67

/-- `a = cmd_word[63:48]`. -/
def aField (w : CmdWord) : BitVec 16 := w.extractLsb' 48 16

/-- `b = cmd_word[47:32]`. -/
def bField (w : CmdWord) : BitVec 16 := w.extractLsb' 32 16

/-- `c = cmd_word[31:16]`. -/
def cField (w : CmdWord) : BitVec 16 := w.extractLsb' 16 16

/-- `d = cmd_word[15:0]`. -/
def dField (w : CmdWord) : BitVec 16 := w.extractLsb' 0 16

/-! ### Operand assembly (30_encoding.md R83) -/

/-- `sext_16`: the two's complement value of a field (00_scope.md R10). -/
def sext16 (v : BitVec 16) : Int := v.toInt

/-- `zext_2(a[1:0])`, the rotation operand. -/
def rotOperand (a : BitVec 16) : BitVec 2 := a.extractLsb' 0 2

/-- `zext_8(a[7:0])`, the codec's operand. -/
def byteOperand (a : BitVec 16) : Byte := a.extractLsb' 0 8

/-- The command a word carries: `op` alone selects it (30_encoding.md R84), and it takes only the fields its row of
R82 names (R85). -/
def decode (w : CmdWord) : Instr :=
  match (opField w).toNat with
  | 0 => .nop
  | 1 => .setPixel (sext16 (aField w)) (sext16 (bField w)) (colField w)
  | 2 => .getPixel (sext16 (aField w)) (sext16 (bField w))
  | 3 => .drawLine (sext16 (aField w)) (sext16 (bField w)) (sext16 (cField w)) (sext16 (dField w)) (colField w)
  | 4 => .drawFastVline (sext16 (aField w)) (sext16 (bField w)) (sext16 (cField w)) (colField w)
  | 5 => .drawFastHline (sext16 (aField w)) (sext16 (bField w)) (sext16 (cField w)) (colField w)
  | 6 => .fillRect (sext16 (aField w)) (sext16 (bField w)) (sext16 (cField w)) (sext16 (dField w)) (colField w)
  | 7 => .fillScreen (colField w)
  | 8 => .setRotation (rotOperand (aField w))
  | 9 => .clear
  | 10 => .refresh
  | 11 => .reverseByte (byteOperand (aField w))
  | 12 => .reservedC
  | 13 => .reservedD
  | 14 => .reservedE
  | _ => .reservedF

/-- Why bits are no command word. -/
inductive DecodeError where
  /-- There are more than 72 bits: every command is one 72-bit word (30_encoding.md R80, R81). -/
  | longerThanCommand
  /-- The number has a bit beyond the length given for it. -/
  | bitBeyondLength
deriving DecidableEq, Repr

/-- The word of `nbits` bits whose value is `v`, extended with zeros to the one command length (30_encoding.md R81);
rejected by name when it is no such word. -/
def wordOfBits (nbits v : Nat) : Except DecodeError CmdWord :=
  if 72 < nbits then .error .longerThanCommand
  else if 2 ^ nbits ≤ v then .error .bitBeyondLength
  else .ok (BitVec.ofNat 72 v)

/-- The host's question: the command the decoder reads from `nbits` bits of value `w`. The command port is parallel
and has no byte order (20_memory.md R63), so bit `i` of `w` is `cmd_word[i]`. -/
def decodeTableWord (nbits w : Nat) : Option Instr :=
  match wordOfBits nbits w with
  | .ok cw => some (decode cw)
  | .error _ => none

/-! ### The encoder -/

/-- A command word from its fields, `rsv` = 0 (30_encoding.md R80, R85). -/
def packWord (op : BitVec 4) (col : Bool) (a b c d : BitVec 16) : CmdWord :=
  op ++ BitVec.ofBool col ++ 0#3 ++ a ++ b ++ c ++ d

/-- The 16-bit two's complement field of an integer (30_encoding.md R83). -/
def field16 (v : Int) : BitVec 16 := BitVec.ofInt 16 v

/-- The opcode of a command (30_encoding.md R84). -/
def Instr.opcode : Instr → BitVec 4
  | .nop => 0x0#4
  | .setPixel _ _ _ => 0x1#4
  | .getPixel _ _ => 0x2#4
  | .drawLine _ _ _ _ _ => 0x3#4
  | .drawFastVline _ _ _ _ => 0x4#4
  | .drawFastHline _ _ _ _ => 0x5#4
  | .fillRect _ _ _ _ _ => 0x6#4
  | .fillScreen _ => 0x7#4
  | .setRotation _ => 0x8#4
  | .clear => 0x9#4
  | .refresh => 0xA#4
  | .reverseByte _ => 0xB#4
  | .reservedC => 0xC#4
  | .reservedD => 0xD#4
  | .reservedE => 0xE#4
  | .reservedF => 0xF#4

/-- The word of a command, with 0 in every field the command does not read (30_encoding.md R82, R84, R85). -/
def encode (i : Instr) : CmdWord :=
  match i with
  | .setPixel x y col => packWord i.opcode col (field16 x) (field16 y) 0 0
  | .getPixel x y => packWord i.opcode false (field16 x) (field16 y) 0 0
  | .drawLine x0 y0 x1 y1 col => packWord i.opcode col (field16 x0) (field16 y0) (field16 x1) (field16 y1)
  | .drawFastVline x y h col => packWord i.opcode col (field16 x) (field16 y) (field16 h) 0
  | .drawFastHline x y w col => packWord i.opcode col (field16 x) (field16 y) (field16 w) 0
  | .fillRect x y w h col => packWord i.opcode col (field16 x) (field16 y) (field16 w) (field16 h)
  | .fillScreen col => packWord i.opcode col 0 0 0 0
  | .setRotation r => packWord i.opcode false (r.setWidth 16) 0 0 0
  | .reverseByte v => packWord i.opcode false (v.setWidth 16) 0 0 0
  | .nop => packWord i.opcode false 0 0 0 0
  | .clear => packWord i.opcode false 0 0 0 0
  | .refresh => packWord i.opcode false 0 0 0 0
  | .reservedC => packWord i.opcode false 0 0 0 0
  | .reservedD => packWord i.opcode false 0 0 0 0
  | .reservedE => packWord i.opcode false 0 0 0 0
  | .reservedF => packWord i.opcode false 0 0 0 0

end Sys2Proof
end

