-- ==== Sys2Proof/Config.lean ====
section
/-!
DEFINITION. The elaboration parameters of the core (00_scope.md R6). Their legal values are checked by
`Config.legal` (Machine/Geometry.lean).
-/

namespace Sys2Proof

/-- Which logical extent the clip test uses for rotations 1 and 3 (00_scope.md R6, 20_memory.md R59). -/
inductive BoundsMode where
  | unswapped
  | swapped
deriving DecidableEq, Repr

/-- How the bit reversal is built; not observable (00_scope.md R6, 43_codec.md R150). -/
inductive CodecImpl where
  | lut
  | combinational
deriving DecidableEq, Repr

/-- The elaboration parameters (00_scope.md R6). `w` is `W`, `h` is `H`. Notes entry 1 says why a state carries
them: no step changes them (00_scope.md R8). -/
structure Config where
  w : Nat
  h : Nat
  boundsMode : BoundsMode
  codecImpl : CodecImpl
deriving DecidableEq, Repr

/-- The elaboration `State.reset` is given: the 8 x 2 panel of the spec's own worked example (44_wire.md R182), the
default `BOUNDS_MODE` (00_scope.md R6). DESIGN CHOICE, unsafe (notes entry 1): the spec fixes no geometry. -/
def Config.panel8x2 : Config := { w := 8, h := 2, boundsMode := .unswapped, codecImpl := .lut }

end Sys2Proof
end

