-- ==== Sys2Proof/Machine/State.lean ====
section
/-!
DEFINITION. The state of the core (10_state.md), the values on its ports, the reasons a step can stop, and the state
right after reset (10_state.md R38). Plain data throughout.
-/

namespace Sys2Proof.Machine

/-- The framebuffer's contents: (byte index, byte) pairs, indices strictly rising, no entry equal to what an unlisted
index reads as (`blankByte`, Machine/Memory.lean). -/
abbrev Memory := List Host.Cell

/-- The response status names (60_exceptions.md R200); the 2-bit codes are `Status.code` (Machine/Flags.lean). -/
inductive Status where
  | ok
  | illegalCommand
  | outOfBuffer
  | transportError
deriving DecidableEq, Repr

/-- The three exceptions (60_exceptions.md R200). No exception records its info in a register (R200), so none
carries any here. -/
inductive Exception where
  | illegalCommand
  | outOfBuffer
  | transportError
deriving DecidableEq, Repr

/-- A response as the port carries it: `rsp_status`, `rsp_data` (10_state.md R32, R34). -/
structure Response where
  status : Status
  data : BitVec 32
deriving DecidableEq, Repr

/-- The transport's verdict on an offered byte (44_wire.md R161); `rejected` carries `tx_err_code`. -/
inductive Verdict where
  | accepted
  | rejected (code : Byte)
deriving DecidableEq, Repr

/-- `tx_ready`, `tx_err`, `tx_err_code` at one rising edge (10_state.md R32). -/
structure TxPins where
  ready : Bool
  err : Bool
  code : Byte
deriving DecidableEq, Repr

/-- What the transport observes (44_wire.md R163). -/
inductive Event where
  | sel (v : Bool)
  | byte (t : Byte) (v : Verdict)
deriving DecidableEq, Repr

/-- Which transaction runs: CLEAR, REFRESH, or the Clear of reset (70_reset_and_hazards.md R232). -/
inductive TxOp where
  | clear
  | refresh
  | resetClear
deriving DecidableEq, Repr

/-- A transaction in progress: the bytes that have no verdict yet, the first of them on `tx_data`, and the count of
accepted bytes (10_state.md R36, 44_wire.md R161, R181). -/
structure Tx where
  op : TxOp
  pending : List Byte
  accepted : Nat
deriving DecidableEq, Repr

/-- The sequencer (10_state.md R36, R38): idle, the reset-time Clear not yet begun, or a transaction that waits for
the transport's verdict. -/
inductive Sequencer where
  | idle
  | resetClear
  | transaction (t : Tx)
deriving DecidableEq, Repr

/-- The levels of the input pins other than the command port (10_state.md R32). `tx` is what the transport's pins
show at every edge after those listed in `State.txScript`. -/
structure Pins where
  rst : Bool
  cfgRotInit : BitVec 2
  rspReady : Bool
  tx : TxPins
deriving DecidableEq, Repr

/-- The core and its environment's inputs. INVENTORY.md, under State, names the rule of spec/ behind each field. -/
structure State where
  /-- The elaboration parameters; no step changes them (00_scope.md R8). -/
  cfg : Config
  /-- `FB` (10_state.md R22). -/
  fb : Memory
  /-- `ROT` (10_state.md R23). -/
  rot : BitVec 2
  /-- `VCOM` (10_state.md R24). -/
  vcom : Bool
  /-- `CS` (10_state.md R26). -/
  cs : Bool
  /-- `BUSY` (10_state.md R27). -/
  busy : Bool
  /-- `OOB_S` (10_state.md R28, R30). -/
  oobS : Bool
  /-- `ILL_S` (10_state.md R28, R30). -/
  illS : Bool
  /-- `TXE_S` (10_state.md R28, R30). -/
  txeS : Bool
  /-- The sequencer (10_state.md R36). -/
  seq : Sequencer
  /-- The offered response; `rsp_valid` is 1 when there is one (10_state.md R33). -/
  rsp : Option Response
  /-- Input pins (10_state.md R32). -/
  pins : Pins
  /-- The command words the host will offer, the first of them on the command port (10_state.md R32, R33). -/
  hostCmds : List CmdWord
  /-- The model's own: the samples of the transport's pins at the coming edges at which a byte is offered
  (44_wire.md R161, R163). -/
  txScript : List TxPins
  /-- The model's own: the events the transport has observed, oldest first (44_wire.md R163). -/
  wire : List Event
deriving DecidableEq, Repr

/-- Why a step stops with a fault. -/
inductive Fault where
  /-- Raised by MemRead and MemWrite (Machine/Ops.lean) for a byte index outside `[0, NB)`, which 20_memory.md R52
  says is never issued. Safe: a claim about such an access cannot be proved. -/
  | outsideFramebuffer
deriving DecidableEq, Repr

/-- Why an instruction or a configuration is refused. -/
inductive Refusal where
  /-- Raised by an arm of `exec` that has no meaning yet; no arm is left so. Safe. -/
  | notModelled (mnemonic : String)
  /-- Raised by `step` and by every meaning when `cfg` is outside the legal values of 00_scope.md R6: no core exists
  for it (R7). Safe: the spec itself refuses it. -/
  | illegalConfiguration
deriving DecidableEq, Repr

/-- The core right after reset, for given parameters and a given `cfg_rot_init`: the first column of 10_state.md R38,
with the reset-time Clear still to run (70_reset_and_hazards.md R232). What R38 leaves unspecified (`FB`) and the
environment's inputs: notes entries 2, 3 and 6. -/
def State.resetWith (cfg : Config) (rotInit : BitVec 2) : State where
  cfg := cfg
  fb := []
  rot := rotInit
  vcom := false
  cs := false
  busy := true
  oobS := false
  illS := false
  txeS := false
  seq := .resetClear
  rsp := none
  pins := { rst := false, cfgRotInit := rotInit, rspReady := true, tx := { ready := true, err := false, code := 0 } }
  hostCmds := []
  txScript := []
  wire := []

/-- The machine right after reset (10_state.md R38), for the parameters of `Config.panel8x2` and `cfg_rot_init` = 0
(notes entries 1 and 2). -/
def State.reset : State := State.resetWith Config.panel8x2 0

end Sys2Proof.Machine
end

