-- ==== Sys2Proof/Machine/Flags.lean ====
section
/-!
DEFINITION. The status codes, the sticky bits, the polarity value, the `STATUS` register and the output ports
(10_state.md R25, R28, R30, R32; 60_exceptions.md R200). No command reads any of them (10_state.md R31).
-/

namespace Sys2Proof.Machine

/-- `rsp_status` (60_exceptions.md R200). -/
def Status.code : Status → BitVec 2
  | .ok => 0#2
  | .illegalCommand => 1#2
  | .outOfBuffer => 2#2
  | .transportError => 3#2

/-- The status an exception makes the command's response carry (60_exceptions.md R200). -/
def Exception.status : Exception → Status
  | .illegalCommand => .illegalCommand
  | .outOfBuffer => .outOfBuffer
  | .transportError => .transportError

/-- Set the exception's sticky bit (60_exceptions.md R200, 10_state.md R30). -/
def setSticky (e : Exception) (s : State) : State :=
  match e with
  | .illegalCommand => { s with illS := true }
  | .outOfBuffer => { s with oobS := true }
  | .transportError => { s with txeS := true }

/-- `POL`, the polarity value the wire carries: 0x02 when `VCOM` is 1, else 0 (10_state.md R25). -/
def pol (vcom : Bool) : Byte := if vcom then 0x02#8 else 0x00#8

/-- `STATUS[15:0]` (10_state.md R28): bits 15:8 read 0, then `CS`, `TXE_S`, `ILL_S`, `OOB_S`, `VCOM`, `ROT`, `BUSY`. -/
def State.statusReg (s : State) : BitVec 16 :=
  0#8 ++ BitVec.ofBool s.cs ++ BitVec.ofBool s.txeS ++ BitVec.ofBool s.illS ++ BitVec.ofBool s.oobS ++
    BitVec.ofBool s.vcom ++ s.rot ++ BitVec.ofBool s.busy

/-- `cmd_ready`: not `BUSY` and not in reset (10_state.md R27, R32). -/
def State.cmdReady (s : State) : Bool := !s.busy && !s.pins.rst

/-- `rsp_valid` (10_state.md R32). -/
def State.rspValid (s : State) : Bool := s.rsp.isSome

/-- `rsp_status` while `rsp_valid` is 1 (10_state.md R32). -/
def State.rspStatus (s : State) : Option (BitVec 2) := s.rsp.map fun r => r.status.code

/-- `rsp_data` while `rsp_valid` is 1 (10_state.md R32). -/
def State.rspData (s : State) : Option (BitVec 32) := s.rsp.map fun r => r.data

/-- `cs_assert` (10_state.md R26, R32). -/
def State.csAssert (s : State) : Bool := s.cs

/-- `tx_data` while `tx_valid` is 1: the byte a waiting transaction offers (44_wire.md R161). -/
def State.txData (s : State) : Option Byte :=
  match s.seq with
  | .transaction t => t.pending.head?
  | .idle => none
  | .resetClear => none

/-- `tx_valid` (10_state.md R32). -/
def State.txValid (s : State) : Bool := s.txData.isSome

end Sys2Proof.Machine
end

