-- ==== Sys2Proof/Machine/Geometry.lean ====
section
/-!
DEFINITION. The legal parameters, the derived sizes, the logical extent, the coordinate transform and `Locate`
(00_scope.md R6, 20_memory.md R51 to R61).
-/

namespace Sys2Proof

/-- The legal values of the parameters (00_scope.md R6): `W` a multiple of 8 in 8 .. 32760, `H` in 1 .. 255. -/
def Config.legal (c : Config) : Bool :=
  decide (c.w % 8 = 0) && decide (8 ≤ c.w) && decide (c.w ≤ 32760) && decide (1 ≤ c.h) && decide (c.h ≤ 255)

/-- `NB = W * H / 8`, the framebuffer's size in bytes (00_scope.md R6). -/
def Config.nb (c : Config) : Nat := c.w * c.h / 8

/-- `BPL = W / 8`, the bytes of a scanline (00_scope.md R6). -/
def Config.bpl (c : Config) : Nat := c.w / 8

end Sys2Proof

namespace Sys2Proof.Machine

/-- Rotations 1 and 3 exchange the axes (20_memory.md R56). -/
def swapsAxes (r : BitVec 2) : Bool := r = 1 || r = 3

/-- `Extent(r)`: the logical width and height the clip test uses (20_memory.md R59). -/
def extent (cfg : Config) (r : BitVec 2) : Point :=
  if cfg.boundsMode = .swapped && swapsAxes r then ((cfg.h : Int), (cfg.w : Int)) else ((cfg.w : Int), (cfg.h : Int))

/-- `Xform(x, y, r)`: the physical coordinate of a logical one (20_memory.md R56, R57); total. -/
def xform (cfg : Config) (x y : Int) (r : BitVec 2) : Point :=
  if r = 0 then (x, y)
  else if r = 1 then ((cfg.w : Int) - 1 - y, x)
  else if r = 2 then ((cfg.w : Int) - 1 - x, (cfg.h : Int) - 1 - y)
  else (y, (cfg.h : Int) - 1 - x)

/-- `0 <= x < lw` and `0 <= y < lh`. -/
def inBox (x y lw lh : Int) : Bool := decide (0 ≤ x) && decide (x < lw) && decide (0 ≤ y) && decide (y < lh)

/-- The clip test (20_memory.md R60). -/
def inRange (cfg : Config) (r : BitVec 2) (x y : Int) : Bool := inBox x y (extent cfg r).1 (extent cfg r).2

/-- What `Locate` answers (20_memory.md R61). -/
inductive Located where
  /-- Outside the logical extent: silently dropped. -/
  | clip
  /-- In range, but the physical coordinate is outside the framebuffer. -/
  | oob (x' y' : Int)
  /-- Bit `p` of byte `FB[i]`. -/
  | cell (i p : Nat)
deriving DecidableEq, Repr

/-- The byte index of a physical pixel (20_memory.md R51). -/
def byteIndex (cfg : Config) (x' y' : Int) : Nat := ((y' * cfg.w + x') / 8).toNat

/-- The bit position of a physical pixel (20_memory.md R51). -/
def bitIndex (x' : Int) : Nat := (x' % 8).toNat

/-- `Locate(x, y)` under rotation `r` (20_memory.md R61). -/
def locate (cfg : Config) (r : BitVec 2) (x y : Int) : Located :=
  if inRange cfg r x y then
    if inBox (xform cfg x y r).1 (xform cfg x y r).2 cfg.w cfg.h then
      .cell (byteIndex cfg (xform cfg x y r).1 (xform cfg x y r).2) (bitIndex (xform cfg x y r).1)
    else .oob (xform cfg x y r).1 (xform cfg x y r).2
  else .clip

end Sys2Proof.Machine
end

