-- ==== Sys2Proof/Machine/Memory.lean ====
section
/-!
DEFINITION. The framebuffer's memory as sparse data in one canonical form (20_memory.md R50, R52): reading, writing,
the fill of CLEAR, and the predicate that says the form holds.
-/

namespace Sys2Proof.Machine

/-- What an unlisted byte reads as: 0xFF, every pixel white. It is what CLEAR leaves (44_wire.md R170); before the
reset-time Clear the spec gives no value (10_state.md R38) and this one is a DESIGN CHOICE (notes entry 3). -/
def blankByte : Byte := 0xFF#8

/-- The byte at index `a`. -/
def Memory.read : Memory → Nat → Byte
  | [], _ => blankByte
  | (k, b) :: rest, a => if a = k then b else Memory.read rest a

/-- The cells of a one-byte memory: none when the byte is the unlisted one. -/
def cellOf (a : Nat) (v : Byte) : Memory := if v = blankByte then [] else [(a, v)]

/-- Write byte `v` at index `a`, keeping the canonical form. -/
def Memory.write : Memory → Nat → Byte → Memory
  | [], a, v => cellOf a v
  | (k, b) :: rest, a, v =>
    if a < k then cellOf a v ++ (k, b) :: rest
    else if a = k then cellOf a v ++ rest
    else (k, b) :: Memory.write rest a v

/-- Every byte below `n` becomes the blank byte (44_wire.md R170, "one step"). -/
def Memory.blank (m : Memory) (n : Nat) : Memory := m.filter fun c => decide (n ≤ c.1)

/-- The canonical form: indices strictly rising from `lo`, no entry equal to the unlisted byte. -/
def Memory.wfFrom : Nat → Memory → Bool
  | _, [] => true
  | lo, (k, b) :: rest => decide (lo ≤ k) && decide (b ≠ blankByte) && Memory.wfFrom (k + 1) rest

/-- The canonical form of a memory. -/
def Memory.wf (m : Memory) : Bool := Memory.wfFrom 0 m

/-- Every listed index lies in `[0, n)` (20_memory.md R50). -/
def Memory.within (m : Memory) (n : Nat) : Bool := m.all fun c => decide (c.1 < n)

end Sys2Proof.Machine
end

