-- ==== Sys2Proof/Machine/Operands.lean ====
section
/-!
DEFINITION. The operand forms a command computes with: the pixel bit of a byte (20_memory.md R53, R65), the far endpoint
a length stands for (41_line.md R128, R130), and the fields of `rsp_data` (10_state.md R34). The fields of the command
word become operands in Decode.lean (30_encoding.md R83).
-/

namespace Sys2Proof.Machine

/-- The mask of bit position `p` (20_memory.md R53). -/
def pixelMask (p : Nat) : Byte := 1#8 <<< p

/-- `(b & ~(1 << p)) | (col << p)`: bit `p` of the byte becomes the colour (20_memory.md R65). -/
def setPixelBit (b : Byte) (p : Nat) (col : Bool) : Byte :=
  (b &&& ~~~(pixelMask p)) ||| ((BitVec.ofBool col).setWidth 8 <<< p)

/-- `(b >> p) & 1` (20_memory.md R65). -/
def pixelBit (b : Byte) (p : Nat) : Bool := (b >>> p).getLsbD 0

/-- The far endpoint of a fast line that starts at `z` and has length `len`, zero and negative lengths included
(41_line.md R128, R130). -/
def farEnd (z len : Int) : Int := z + len - 1

/-- `zext_32` of a pixel bit, the data of GET_PIXEL (10_state.md R34). -/
def pixelData (v : Bool) : BitVec 32 := (BitVec.ofBool v).setWidth 32

/-- `zext_32` of a byte, the data of REVERSE_BYTE (10_state.md R34). -/
def byteData (v : Byte) : BitVec 32 := v.setWidth 32

/-- `{code[7:0], n[23:0]}`, the data of CLEAR and REFRESH (10_state.md R34, 44_wire.md R164). -/
def transactionData (code : Byte) (n : Nat) : BitVec 32 := code ++ BitVec.ofNat 24 n

end Sys2Proof.Machine
end

