-- ==== Sys2Proof/Machine/Raster.lean ====
section
/-!
DEFINITION. The points of the drawing commands, in the order they are written: the Bresenham rasterizer, its vertical
and horizontal uses, and the rectangle (41_line.md R120, R125, R128, R130; 42_fill.md R140).
-/

namespace Sys2Proof.Machine

/-- The loop state of the rasterizer, the fields 10_state.md R36 names. -/
structure Raster where
  steep : Bool
  x : Int
  y : Int
  xend : Int
  dx : Int
  dy : Int
  err : Int
  ystep : Int
deriving DecidableEq, Repr

/-- The loop state from endpoints already in major-axis order (41_line.md R120, after the endpoint swap). -/
def rasterOrdered (steep : Bool) (x0 y0 x1 y1 : Int) : Raster where
  steep := steep
  x := x0
  y := y0
  xend := x1
  dx := x1 - x0
  dy := |y1 - y0|
  err := (x1 - x0) / 2
  ystep := if y0 < y1 then 1 else -1

/-- The endpoint swap: the major coordinate increases (41_line.md R120). -/
def rasterMajor (steep : Bool) (x0 y0 x1 y1 : Int) : Raster :=
  if x1 < x0 then rasterOrdered steep x1 y1 x0 y0 else rasterOrdered steep x0 y0 x1 y1

/-- `abs(y1 - y0) > abs(x1 - x0)` (41_line.md R120, R123). -/
def isSteep (x0 y0 x1 y1 : Int) : Bool := decide (|x1 - x0| < |y1 - y0|)

/-- The loop state before the first iteration: steep swap, then endpoint swap (41_line.md R120). -/
def rasterStart (x0 y0 x1 y1 : Int) : Raster :=
  if isSteep x0 y0 x1 y1 then rasterMajor true y0 x0 y1 x1 else rasterMajor false x0 y0 x1 y1

/-- The point of this iteration, axes un-swapped (41_line.md R120). -/
def Raster.plot (r : Raster) : Point := if r.steep then (r.y, r.x) else (r.x, r.y)

/-- The accumulator update and the step of the major coordinate (41_line.md R120). -/
def Raster.advance (r : Raster) : Raster :=
  if r.err - r.dy < 0 then { r with x := r.x + 1, y := r.y + r.ystep, err := r.err - r.dy + r.dx }
  else { r with x := r.x + 1, err := r.err - r.dy }

/-- `while x <= x1`, with a bound on the iterations (41_line.md R120). -/
def rasterLoop : Nat → Raster → List Point
  | 0, _ => []
  | n + 1, r => if r.x ≤ r.xend then r.plot :: rasterLoop n r.advance else []

/-- The points of `Bres(x0, y0, x1, y1)` in the order they are written (41_line.md R120). The loop runs from `x` to
`xend` by ones, so `dx + 1` iterations are all of it. -/
def bres (x0 y0 x1 y1 : Int) : List Point :=
  rasterLoop ((rasterStart x0 y0 x1 y1).dx + 1).toNat (rasterStart x0 y0 x1 y1)

/-- The points of `VPath(x, y, h)` (41_line.md R128). -/
def vPath (x y h : Int) : List Point := bres x y x (farEnd y h)

/-- The points of `HPath(x, y, w)` (41_line.md R130). -/
def hPath (x y w : Int) : List Point := bres x y (farEnd x w) y

/-- The points of DRAW_LINE: the vertical path, the horizontal path or the general rasterizer (41_line.md R125). -/
def linePoints (x0 y0 x1 y1 : Int) : List Point :=
  if x0 = x1 then vPath x0 (min y0 y1) (|y1 - y0| + 1)
  else if y0 = y1 then hPath (min x0 x1) y0 (|x1 - x0| + 1)
  else bres x0 y0 x1 y1

/-- `n` columns from column `i` rightwards (42_fill.md R140). -/
def columns (y h : Int) : Nat → Int → List Point
  | 0, _ => []
  | n + 1, i => vPath i y h ++ columns y h n (i + 1)

/-- The points of `RectPath(x, y, w, h)`: columns `x` to `x + w - 1`, none when `w <= 0` (42_fill.md R140). -/
def rectPath (x y w h : Int) : List Point := columns y h w.toNat x

end Sys2Proof.Machine
end

