-- ==== Sys2Proof/Machine/Ops.lean ====
section
/-!
DEFINITION. The shared operations of the meanings: the guard of an illegal configuration, MemRead and MemWrite, the
raising of an exception, the response, PutPixel and GetPixel, the transport handshake, and the two transactions
(00_scope.md R11; 40_pixel.md R100, R105; 44_wire.md R161 to R182). The core has no trap entry and no return from one
(60_exceptions.md R206, R207): `raise` is all that taking an exception is.
-/

namespace Sys2Proof.Machine

/-- A result of an operation that accesses the framebuffer. -/
abbrev Access (α : Type) := Except Fault α

/-- A command in execution: the state, and the response status so far (`st` of the pseudocode). -/
structure Run where
  s : State
  st : Status
deriving DecidableEq, Repr

/-! ### The framebuffer (20_memory.md R52, R65) -/

/-- `MemRead(i, 1)`; faults outside `[0, NB)`. -/
def memRead (s : State) (i : Nat) : Access Byte :=
  if i < s.cfg.nb then .ok (s.fb.read i) else .error .outsideFramebuffer

/-- `MemWrite(i, 1, v)`; faults outside `[0, NB)`. -/
def memWrite (s : State) (i : Nat) (v : Byte) : Access State :=
  if i < s.cfg.nb then .ok { s with fb := s.fb.write i v } else .error .outsideFramebuffer

/-- The read-modify-write of one pixel bit (20_memory.md R65). -/
def writePixel (s : State) (i p : Nat) (col : Bool) : Access State :=
  match memRead s i with
  | .ok b => memWrite s i (setPixelBit b p col)
  | .error f => .error f

/-- `n` successive bytes from index `i`. -/
def readRun (s : State) : Nat → Nat → Access (List Byte)
  | _, 0 => .ok []
  | i, n + 1 =>
    match memRead s i with
    | .error f => .error f
    | .ok b => (readRun s (i + 1) n).map fun bs => b :: bs

/-! ### Exceptions and responses -/

/-- `raise E(info)`: set the sticky bit of `E` and make its code the response status; the info is recorded nowhere
(00_scope.md R11, 60_exceptions.md R200, R206). -/
def raise (e : Exception) (r : Run) : Run := { s := setSticky e r.s, st := e.status }

/-- `Respond(status, data)`: offer the command's one response (10_state.md R33). -/
def respond (st : Status) (data : BitVec 32) (s : State) : State :=
  { s with rsp := some { status := st, data := data } }

/-- Run an accepted command: refuse where no core exists for the parameters (00_scope.md R7), set `BUSY` (10_state.md
R33), then do what the command's rule says. -/
def command (s : State) (body : State → Access State) : Host.Outcome State Fault Refusal :=
  if s.cfg.legal then
    match body { s with busy := true } with
    | .ok t => .next t
    | .error f => .fault f
  else .refused .illegalConfiguration

/-! ### Pixels (40_pixel.md) -/

/-- `PutPixel(x, y, col)` (40_pixel.md R100): a clipped point is skipped, an out-of-buffer point raises `OutOfBuffer`
with the access suppressed, any other point has its bit written. -/
def putPixel (col : Bool) (r : Run) (pt : Point) : Access Run :=
  match locate r.s.cfg r.s.rot pt.1 pt.2 with
  | .clip => .ok r
  | .oob _ _ => .ok (raise .outOfBuffer r)
  | .cell i p => (writePixel r.s i p col).map fun s' => { r with s := s' }

/-- Write points with `PutPixel`, in order (40_pixel.md R101). -/
def paint (col : Bool) : List Point → Run → Access Run
  | [], r => .ok r
  | pt :: pts, r =>
    match putPixel col r pt with
    | .ok r' => paint col pts r'
    | .error f => .error f

/-- A drawing command: `st <- OK`, its points, `Respond(st, 0)` (40_pixel.md R100; 41_line.md R125; 42_fill.md R141). -/
def draw (col : Bool) (pts : List Point) (s : State) : Access State :=
  (paint col pts { s := s, st := .ok }).map fun r => respond r.st 0 r.s

/-- `GetPixel(x, y)` (40_pixel.md R105): 0 for a clipped and for an out-of-buffer point, the latter raising
`OutOfBuffer`. -/
def readPixel (r : Run) (x y : Int) : Access (Run × Bool) :=
  match locate r.s.cfg r.s.rot x y with
  | .clip => .ok (r, false)
  | .oob _ _ => .ok (raise .outOfBuffer r, false)
  | .cell i p => (memRead r.s i).map fun b => (r, pixelBit b p)

/-! ### The transport (44_wire.md) -/

/-- The verdict the pins give at an edge at which a byte is offered: rejected when `tx_err` is 1, accepted when
`tx_ready` is 1 and `tx_err` is 0, else none yet (44_wire.md R161). -/
def TxPins.verdict (p : TxPins) : Option Verdict :=
  if p.err then some (.rejected p.code) else if p.ready then some .accepted else none

/-- What a stretch of a transaction leaves: the samples not used, the bytes without verdict, the count of accepted
bytes, the events, and the code of a rejection. -/
structure Stretch where
  script : List TxPins
  pending : List Byte
  accepted : Nat
  events : List Event
  rejected : Option Byte
deriving DecidableEq, Repr

/-- The event of a byte and its verdict, before a stretch's own. -/
def Stretch.after (e : Event) (r : Stretch) : Stretch := { r with events := e :: r.events }

/-- Offer bytes to a transport whose pins stay at one level (44_wire.md R161, R165): without a verdict the first byte
stays on offer; after a rejection no further byte is offered. -/
def offerAtLevel (level : TxPins) : List Byte → Nat → Stretch
  | [], n => { script := [], pending := [], accepted := n, events := [], rejected := none }
  | b :: rest, n =>
    match level.verdict with
    | none => { script := [], pending := b :: rest, accepted := n, events := [], rejected := none }
    | some .accepted => (offerAtLevel level rest (n + 1)).after (.byte b .accepted)
    | some (.rejected c) =>
      { script := [], pending := b :: rest, accepted := n, events := [.byte b (.rejected c)], rejected := some c }

/-- `Emit` for each byte in order (44_wire.md R161, R165): a sample is used at each edge at which a byte is offered;
one without verdict leaves the byte on offer. After the listed samples the pins stay at their level. -/
def offerBytes (level : TxPins) : List TxPins → List Byte → Nat → Stretch
  | script, [], n => { script := script, pending := [], accepted := n, events := [], rejected := none }
  | [], b :: rest, n => offerAtLevel level (b :: rest) n
  | p :: script, b :: rest, n =>
    match p.verdict with
    | none => offerBytes level script (b :: rest) n
    | some .accepted => (offerBytes level script rest (n + 1)).after (.byte b .accepted)
    | some (.rejected c) =>
      { script := script, pending := b :: rest, accepted := n, events := [.byte b (.rejected c)], rejected := some c }

/-- `Select(v)` (44_wire.md R162). -/
def select (v : Bool) (s : State) : State := { s with cs := v, wire := s.wire ++ [.sel v] }

/-- `VCOM <- NOT VCOM` (44_wire.md R171, R180). -/
def flipVcom (s : State) : State := { s with vcom := !s.vcom }

/-- Where the transaction inverts `VCOM` after its bytes: a Clear does (44_wire.md R171), a Refresh has done so at its
start (R180). -/
def flipAtEnd (op : TxOp) (s : State) : State :=
  match op with
  | .clear => flipVcom s
  | .resetClear => flipVcom s
  | .refresh => s

/-- How the end of a transaction is reported: a command responds with the status and `{code, n}` (44_wire.md R164); the
reset-time Clear gives no response and clears `BUSY` (70_reset_and_hazards.md R232). -/
def report (op : TxOp) (code : Byte) (n : Nat) (r : Run) : State :=
  match op with
  | .clear => respond r.st (transactionData code n) r.s
  | .refresh => respond r.st (transactionData code n) r.s
  | .resetClear => { r.s with busy := false }

/-- The steps after the last verdict: the Clear's flip, `Select(0)`, `TransportError` after a rejection, the report
(44_wire.md R165, R172, R181). -/
def endTransaction (op : TxOp) (n : Nat) (rejected : Option Byte) (s : State) : State :=
  let s' := select false { flipAtEnd op s with seq := .idle }
  match rejected with
  | none => report op 0 n { s := s', st := .ok }
  | some c => report op c n (raise .transportError { s := s', st := .ok })

/-- Carry a transaction on as far as the transport's verdicts reach: to its end, or to a byte that waits on offer
(44_wire.md R161, R165). -/
def carryOn (t : Tx) (s : State) : State :=
  let r := offerBytes s.pins.tx s.txScript t.pending t.accepted
  let s' := { s with txScript := r.script, wire := s.wire ++ r.events }
  if r.rejected.isSome || r.pending.isEmpty then endTransaction t.op r.accepted r.rejected s'
  else { s' with seq := .transaction { op := t.op, pending := r.pending, accepted := r.accepted } }

/-- `Select(1)`, then the bytes (44_wire.md R162). -/
def transact (op : TxOp) (bytes : List Byte) (s : State) : State :=
  carryOn { op := op, pending := bytes, accepted := 0 } (select true s)

/-- A protocol value as it goes out: always bit-reversed (43_codec.md R151). -/
def wireByte (s : State) (v : Byte) : Byte := codec s.cfg.codecImpl v

/-- The two bytes of a Clear: `[POL | 0x04, 0x00]`, reversed (44_wire.md R160, R172, R173). -/
def clearBytes (s : State) : List Byte := [wireByte s (pol s.vcom ||| 0x04#8), wireByte s 0x00#8]

/-- `ClearOp()`: the fill, as one step, then the transaction (44_wire.md R170, R172). -/
def clearOp (op : TxOp) (s : State) : State :=
  transact op (clearBytes s) { s with fb := s.fb.blank s.cfg.nb }

/-- Scanline `l` (1-based) on the wire: its address, its row, the terminator (44_wire.md R181; 20_memory.md R54). -/
def scanline (s : State) (l : Nat) : Access (List Byte) :=
  (readRun s ((l - 1) * s.cfg.bpl) s.cfg.bpl).map fun row =>
    wireByte s (BitVec.ofNat 8 l) :: row.map (wireByte s) ++ [wireByte s 0x00#8]

/-- `n` scanlines from scanline `l` on (44_wire.md R181). -/
def scanlines (s : State) : Nat → Nat → Access (List Byte)
  | _, 0 => .ok []
  | l, n + 1 =>
    match scanline s l with
    | .error f => .error f
    | .ok bytes => (scanlines s (l + 1) n).map fun rest => bytes ++ rest

/-- The byte sequence of a Refresh: the command byte from the polarity before the flip, the scanlines, the trailing
byte (44_wire.md R181, R184). -/
def refreshBytes (s : State) : Access (List Byte) :=
  (scanlines s 1 s.cfg.h).map fun lines =>
    wireByte s (pol s.vcom ||| 0x01#8) :: lines ++ [wireByte s 0x00#8]

/-- `RefreshOp()`: `VCOM` is inverted before any byte is offered (44_wire.md R180, R181). -/
def refreshOp (s : State) : Access State :=
  (refreshBytes s).map fun bytes => transact .refresh bytes (flipVcom s)

/-! ### Reset and the response handshake -/

/-- A rising edge with `rst` = 1 (70_reset_and_hazards.md R230, R231): what is loaded and what is abandoned. `FB` is
not written. A transaction that is cut short shows the transport the fall of `cs_assert`. -/
def resetEdge (s : State) : State :=
  { s with
    rot := s.pins.cfgRotInit
    vcom := false
    cs := false
    busy := true
    oobS := false
    illS := false
    txeS := false
    seq := .resetClear
    rsp := none
    wire := if s.cs then s.wire ++ [.sel false] else s.wire }

/-- The edge at which the host takes the response; `BUSY` clears (10_state.md R33). -/
def takeResponse (s : State) : State := { s with rsp := none, busy := false }

end Sys2Proof.Machine
end

