-- ==== Sys2Proof/Machine/Control.lean ====
section
/-!
DEFINITION. NOP and SET_ROTATION (45_control.md).
-/

namespace Sys2Proof.Machine

/-- NOP: `Respond(OK, 0)` (45_control.md R190). -/
def execNop (s : State) : Host.Outcome State Fault Refusal :=
  command s fun s => .ok (respond .ok 0 s)

/-- SET_ROTATION: `ROT <- r` (45_control.md R192). -/
def execSetRotation (r : BitVec 2) (s : State) : Host.Outcome State Fault Refusal :=
  command s fun s => .ok (respond .ok 0 { s with rot := r })

end Sys2Proof.Machine
end

