-- ==== Sys2Proof/Machine/Fill.lean ====
section
/-!
DEFINITION. FILL_RECT and FILL_SCREEN (42_fill.md).
-/

namespace Sys2Proof.Machine

/-- FILL_RECT (42_fill.md R141). -/
def execFillRect (x y w h : Int) (col : Bool) (s : State) : Host.Outcome State Fault Refusal :=
  command s fun s => draw col (rectPath x y w h) s

/-- FILL_SCREEN: the rectangle of the logical extent (42_fill.md R144). -/
def execFillScreen (col : Bool) (s : State) : Host.Outcome State Fault Refusal :=
  command s fun s => draw col (rectPath 0 0 (extent s.cfg s.rot).1 (extent s.cfg s.rot).2) s

end Sys2Proof.Machine
end

