-- ==== Sys2Proof/Machine/Line.lean ====
section
/-!
DEFINITION. DRAW_LINE, DRAW_FAST_VLINE and DRAW_FAST_HLINE (41_line.md).
-/

namespace Sys2Proof.Machine

/-- DRAW_LINE (41_line.md R125). -/
def execDrawLine (x0 y0 x1 y1 : Int) (col : Bool) (s : State) : Host.Outcome State Fault Refusal :=
  command s fun s => draw col (linePoints x0 y0 x1 y1) s

/-- DRAW_FAST_VLINE (41_line.md R128). -/
def execDrawFastVline (x y h : Int) (col : Bool) (s : State) : Host.Outcome State Fault Refusal :=
  command s fun s => draw col (vPath x y h) s

/-- DRAW_FAST_HLINE (41_line.md R130). -/
def execDrawFastHline (x y w : Int) (col : Bool) (s : State) : Host.Outcome State Fault Refusal :=
  command s fun s => draw col (hPath x y w) s

end Sys2Proof.Machine
end

