-- ==== Sys2Proof/Machine/Pixel.lean ====
section
/-!
DEFINITION. SET_PIXEL and GET_PIXEL (40_pixel.md).
-/

namespace Sys2Proof.Machine

/-- SET_PIXEL: `PutPixel(x, y, col)` (40_pixel.md R100). -/
def execSetPixel (x y : Int) (col : Bool) (s : State) : Host.Outcome State Fault Refusal :=
  command s fun s => draw col [(x, y)] s

/-- GET_PIXEL: `Respond(st, zext_32(v))` (40_pixel.md R105). -/
def execGetPixel (x y : Int) (s : State) : Host.Outcome State Fault Refusal :=
  command s fun s =>
    (readPixel { s := s, st := .ok } x y).map fun q => respond q.1.st (pixelData q.2) q.1.s

end Sys2Proof.Machine
end

