-- ==== Sys2Proof/Machine/Reserved.lean ====
section
/-!
DEFINITION. The four reserved opcodes: each raises `IllegalCommand` and responds `(IllegalCommand, 0)`
(60_exceptions.md R201; 30_encoding.md R86).
-/

namespace Sys2Proof.Machine

/-- `IllegalCommand`: `ILL_S` is set and the response is `(IllegalCommand, 0)` (60_exceptions.md R201). -/
def illegalCommand (s : State) : State :=
  respond (raise .illegalCommand { s := s, st := .ok }).st 0 (raise .illegalCommand { s := s, st := .ok }).s

/-- Opcode 0xC (60_exceptions.md R201). -/
def execReservedC (s : State) : Host.Outcome State Fault Refusal := command s fun s => .ok (illegalCommand s)

/-- Opcode 0xD (60_exceptions.md R201). -/
def execReservedD (s : State) : Host.Outcome State Fault Refusal := command s fun s => .ok (illegalCommand s)

/-- Opcode 0xE (60_exceptions.md R201). -/
def execReservedE (s : State) : Host.Outcome State Fault Refusal := command s fun s => .ok (illegalCommand s)

/-- Opcode 0xF (60_exceptions.md R201). -/
def execReservedF (s : State) : Host.Outcome State Fault Refusal := command s fun s => .ok (illegalCommand s)

end Sys2Proof.Machine
end

