-- ==== Sys2Proof/Machine/Wire.lean ====
section
/-!
DEFINITION. CLEAR, REFRESH (44_wire.md) and REVERSE_BYTE (43_codec.md).
-/

namespace Sys2Proof.Machine

/-- CLEAR (44_wire.md R172). -/
def execClear (s : State) : Host.Outcome State Fault Refusal :=
  command s fun s => .ok (clearOp .clear s)

/-- REFRESH (44_wire.md R182). -/
def execRefresh (s : State) : Host.Outcome State Fault Refusal :=
  command s fun s => refreshOp s

/-- REVERSE_BYTE: `Respond(OK, zext_32(rev8(v)))` (43_codec.md R152). -/
def execReverseByte (v : Byte) (s : State) : Host.Outcome State Fault Refusal :=
  command s fun s => .ok (respond .ok (byteData (codec s.cfg.codecImpl v)) s)

end Sys2Proof.Machine
end

