-- ==== Sys2Proof/Machine/Dispatch.lean ====
section
/-! DEFINITION. One arm per command: a direct call of its meaning (30_encoding.md R84). -/

namespace Sys2Proof.Machine

/-- The execution of an accepted command (10_state.md R33). -/
def exec (i : Instr) (s : State) : Host.Outcome State Fault Refusal :=
  match i with
  | .nop => Sys2Proof.Machine.execNop s
  | .setPixel x y col => Sys2Proof.Machine.execSetPixel x y col s
  | .getPixel x y => Sys2Proof.Machine.execGetPixel x y s
  | .drawLine x0 y0 x1 y1 col => Sys2Proof.Machine.execDrawLine x0 y0 x1 y1 col s
  | .drawFastVline x y h col => Sys2Proof.Machine.execDrawFastVline x y h col s
  | .drawFastHline x y w col => Sys2Proof.Machine.execDrawFastHline x y w col s
  | .fillRect x y w h col => Sys2Proof.Machine.execFillRect x y w h col s
  | .fillScreen col => Sys2Proof.Machine.execFillScreen col s
  | .setRotation r => Sys2Proof.Machine.execSetRotation r s
  | .clear => Sys2Proof.Machine.execClear s
  | .refresh => Sys2Proof.Machine.execRefresh s
  | .reverseByte v => Sys2Proof.Machine.execReverseByte v s
  | .reservedC => Sys2Proof.Machine.execReservedC s
  | .reservedD => Sys2Proof.Machine.execReservedD s
  | .reservedE => Sys2Proof.Machine.execReservedE s
  | .reservedF => Sys2Proof.Machine.execReservedF s

end Sys2Proof.Machine
end

