-- ==== Sys2Proof/Machine/Fetch.lean ====
section
/-!
DEFINITION. What one step of the core does: a reset edge, the reset-time Clear, the rest of a transaction that waits, an
edge with a response on offer, the acceptance and execution of the command on the port, or an idle edge (10_state.md
R27, R33, R36; 70_reset_and_hazards.md R230, R232, R240, R249). `step` (Step.lean) is `coreEdge`.
-/

namespace Sys2Proof.Machine

/-- The word on the command port, when `cmd_valid` is 1 (10_state.md R32). -/
def State.cmdWord (s : State) : Option CmdWord := s.hostCmds.head?

/-- The command port after its word is accepted: the host offers its next one (10_state.md R33). -/
def State.popCommand (s : State) : State := { s with hostCmds := s.hostCmds.tail }

/-- An edge while a response is offered: it is taken if `rsp_ready` is 1, else held (10_state.md R33, R249). -/
def responseEdge (s : State) : State := if s.pins.rspReady then takeResponse s else s

/-- An idle core with no response on offer: the command on the port, if there is one and `cmd_ready` is 1, is accepted
and executed (10_state.md R33, 70_reset_and_hazards.md R240). -/
def commandEdge (s : State) : Host.Outcome State Fault Refusal :=
  if s.cmdReady then
    match s.cmdWord with
    | some w => exec (decode w) s.popCommand
    | none => .next s
  else .next s

/-- What happens out of reset (10_state.md R33, R36; 70_reset_and_hazards.md R232). -/
def runningEdge (s : State) : Host.Outcome State Fault Refusal :=
  match s.seq with
  | .resetClear => .next (clearOp .resetClear s)
  | .transaction t => .next (carryOn t s)
  | .idle => if s.rsp.isSome then .next (responseEdge s) else commandEdge s

/-- One step of the core: no core exists for illegal parameters (00_scope.md R7); reset has priority (70_reset_and_hazards.md
R230). -/
def coreEdge (s : State) : Host.Outcome State Fault Refusal :=
  if s.cfg.legal then
    if s.pins.rst then .next (resetEdge s) else runningEdge s
  else .refused .illegalConfiguration

/-- The core free to accept a command, with word `w` on the command port: out of reset, no command or transaction in
progress, no response pending (10_state.md R27, R33; notes entry 8). -/
def State.offerFirst (s : State) (w : CmdWord) : State :=
  { s with
    cs := false
    busy := false
    seq := .idle
    rsp := none
    pins := { s.pins with rst := false }
    hostCmds := w :: s.hostCmds }

end Sys2Proof.Machine
end

