-- ==== Sys2Proof/Machine/Step.lean ====
section
/-!
DEFINITION. The step of the core and the host's way to put a command where the next step accepts it.
-/

namespace Sys2Proof.Machine

/-- One step of the core (Machine/Fetch.lean says what it does). -/
def step (s : State) : Host.Outcome State Fault Refusal := coreEdge s

/-- The state in which the very next step accepts the command word given by its bits (zero above `nbits`): it is the
word on the command port of a core that is ready for one. The command port is where this machine's commands come from;
notes entry 8 says how a core comes from reset to be ready. -/
def State.withFetchWord (s : State) (nbits w : Nat) : State := s.offerFirst (BitVec.ofNat 72 (w % 2 ^ nbits))

end Sys2Proof.Machine
end

