-- ==== Sys2Proof/Safety.lean ====
section
/-!
DEFINITION. The terms the claims use: the fields a command reads, a faulted state, a pixel of the framebuffer, what a
drawing command paints, the transport's three ways to answer, the wire formats of 44_wire.md R173 and R184, what a
transaction without a rejection sends, the shape of the event list, and the invariant of the core.
-/

namespace Sys2Proof.Machine

/-- The bits of the fields a command reads, `op` among them, by opcode: the rows of 30_encoding.md R82. -/
def fieldsRead (op : BitVec 4) : CmdWord :=
  match op.toNat with
  | 1 => 0xF8_FFFF_FFFF_0000_0000#72
  | 2 => 0xF0_FFFF_FFFF_0000_0000#72
  | 3 => 0xF8_FFFF_FFFF_FFFF_FFFF#72
  | 4 => 0xF8_FFFF_FFFF_FFFF_0000#72
  | 5 => 0xF8_FFFF_FFFF_FFFF_0000#72
  | 6 => 0xF8_FFFF_FFFF_FFFF_FFFF#72
  | 7 => 0xF8_0000_0000_0000_0000#72
  | 8 => 0xF0_0003_0000_0000_0000#72
  | 11 => 0xF0_00FF_0000_0000_0000#72
  | _ => 0xF0_0000_0000_0000_0000#72

/-- A sticky bit is set: the state is outside the claims of 10_state.md R30, which take `faulted = false` as their premise
(notes entry 4). -/
def State.faulted (s : State) : Bool := s.oobS || s.illS || s.txeS

/-- Bit `p` of `FB[a]`. -/
def State.fbBit (s : State) (a p : Nat) : Bool := (s.fb.read a).getLsbD p

/-- The bit of physical pixel `(x', y')`, by the layout of 20_memory.md R51 and R53. -/
def State.pixel (s : State) (x' y' : Nat) : Bool := s.fbBit (y' * s.cfg.bpl + x' / 8) (x' % 8)

/-- `Locate` answers `OOB`. -/
def Located.isOob : Located → Bool
  | .oob _ _ => true
  | .clip => false
  | .cell _ _ => false

/-- A panel on which some in-range points are out of buffer: not square, with the unswapped extent, under rotation 1 or 3
(20_memory.md R62; 40_pixel.md R100; 42_fill.md R144). -/
def hasBand (cfg : Config) (r : BitVec 2) : Prop :=
  cfg.boundsMode = .unswapped ∧ (r = 1 ∨ r = 3) ∧ cfg.w ≠ cfg.h

/-- The point is out of buffer in state `s` (20_memory.md R61). -/
def State.oobAt (s : State) (pt : Point) : Prop := (locate s.cfg s.rot pt.1 pt.2).isOob = true

/-- The point is stored at bit `p` of `FB[a]` in state `s` (20_memory.md R61). -/
def State.storedAt (s : State) (pt : Point) (a p : Nat) : Prop := locate s.cfg s.rot pt.1 pt.2 = .cell a p

/-- `t` is `s` after a command that writes colour `col` at the points of `S`, and nothing else, and responds: every bit
a point of `S` is stored at has the colour; every other bit, and every byte no point of `S` is stored in, is as before;
`OOB_S` is set and the status is `OutOfBuffer` when a point of `S` is out of buffer, else `OOB_S` is as before and the
status is `OK`; every other field is as before but `BUSY`, which is 1 (40_pixel.md R100, R101). The case of an
out-of-buffer point is the effect 60_exceptions.md R202 gives this core, not one of R30's claims: those are
`PaintsInBuffer`. -/
def PaintsExactly (S : Point → Prop) (col : Bool) (s t : State) : Prop :=
  (∀ pt a p, S pt → s.storedAt pt a p → t.fbBit a p = col) ∧
  (∀ a p, (∀ pt, S pt → ¬ s.storedAt pt a p) → t.fbBit a p = s.fbBit a p) ∧
  (∀ a, (∀ pt p, S pt → ¬ s.storedAt pt a p) → t.fb.read a = s.fb.read a) ∧
  ((∃ pt, S pt ∧ s.oobAt pt) →
    t = { s with busy := true, fb := t.fb, oobS := true, rsp := some { status := .outOfBuffer, data := 0 } }) ∧
  ((∀ pt, S pt → ¬ s.oobAt pt) →
    t = { s with busy := true, fb := t.fb, rsp := some { status := .ok, data := 0 } })

/-- What R30 lets a claim say of a drawing command that writes colour `col` at the points `pts`: none is out of buffer, every
bit a point is stored at has the colour, every other bit is as before, the status is `OK`, and every other field is as
before but `BUSY`, which is 1. -/
def PaintsInBuffer (pts : List Point) (col : Bool) (s t : State) : Prop :=
  (∀ pt ∈ pts, ¬ s.oobAt pt) ∧
  (∀ pt ∈ pts, ∀ a p, s.storedAt pt a p → t.fbBit a p = col) ∧
  (∀ a p, (∀ pt ∈ pts, ¬ s.storedAt pt a p) → t.fbBit a p = s.fbBit a p) ∧
  t = { s with busy := true, fb := t.fb, rsp := some { status := .ok, data := 0 } }

/-! ### The transport's answers (44_wire.md R161, R163; 60_exceptions.md R203) -/

/-- The verdicts among samples of the transport's pins; a sample without verdict is a wait. -/
def verdicts (script : List TxPins) : List Verdict := script.filterMap TxPins.verdict

/-- The transport accepts the next `n` bytes and leaves the samples `rest`. -/
def TransportAccepts (s : State) (n : Nat) (rest : List TxPins) : Prop :=
  (∃ pre, s.txScript = pre ++ rest ∧ verdicts pre = List.replicate n .accepted ∧
    (∀ p, pre.getLast? = some p → p.verdict = some .accepted)) ∨
  (∃ k, k < n ∧ verdicts s.txScript = List.replicate k .accepted ∧ s.pins.tx.verdict = some .accepted ∧ rest = [])

/-- Of the next `n` bytes the transport accepts `k` and rejects the one after them with code `c`, leaving the samples
`rest`. -/
def TransportRejects (s : State) (n k : Nat) (c : Byte) (rest : List TxPins) : Prop :=
  k < n ∧
  ((∃ pre p, s.txScript = pre ++ p :: rest ∧ verdicts pre = List.replicate k .accepted ∧
      p.verdict = some (.rejected c)) ∨
    (verdicts s.txScript = List.replicate k .accepted ∧ s.pins.tx.verdict = some (.rejected c) ∧ rest = []))

/-- Of the next `n` bytes the transport accepts `k` and then gives no verdict. -/
def TransportWaits (s : State) (n k : Nat) : Prop :=
  k < n ∧ verdicts s.txScript = List.replicate k .accepted ∧ s.pins.tx.verdict = none

/-- The events of bytes that were all accepted. -/
def acceptedEvents (bytes : List Byte) : List Event := bytes.map fun b => .byte b .accepted

/-- The events of a transaction of `bytes` whose byte number `k` (from 0) is rejected with code `c`. -/
def rejectedEvents (bytes : List Byte) (k : Nat) (c : Byte) : List Event :=
  acceptedEvents (bytes.take k) ++ ((bytes.drop k).take 1).map fun b => .byte b (.rejected c)

/-! ### The wire formats -/

/-- A Clear on the wire (44_wire.md R173): `[reverse(polarity|CLEAR), reverse(0x00)]`. -/
def clearFormat (vcom : Bool) : List Byte := [rev8 (pol vcom ||| 0x04#8), rev8 0x00#8]

/-- Physical row `l` on the wire, as scanline `l + 1` (44_wire.md R184; 20_memory.md R54). -/
def lineFormat (cfg : Config) (fb : Memory) (l : Nat) : List Byte :=
  rev8 (BitVec.ofNat 8 (l + 1)) :: (List.range cfg.bpl).map (fun k => rev8 (fb.read (l * cfg.bpl + k))) ++ [rev8 0x00#8]

/-- A Refresh on the wire (44_wire.md R184). -/
def refreshFormat (vcom : Bool) (cfg : Config) (fb : Memory) : List Byte :=
  rev8 (pol vcom ||| 0x01#8) :: (List.range cfg.h).flatMap (lineFormat cfg fb) ++ [rev8 0x00#8]

/-- The number of bytes of a transaction (44_wire.md R173, R183). -/
def transactionLength (cfg : Config) : TxOp → Nat
  | .clear => 2
  | .resetClear => 2
  | .refresh => 2 + cfg.h * (cfg.bpl + 2)

/-- What R30 lets a claim say of a transaction of `bytes` that `t` has in progress or behind it, and `s` has not: either all
bytes were accepted and the response is `OK` with their number, or the first `k` were and the next is on offer
(44_wire.md R161 to R164). -/
def SendsAccepted (op : TxOp) (bytes : List Byte) (s t : State) : Prop :=
  (t.seq = .idle ∧ t.cs = false ∧ t.rsp = some { status := .ok, data := BitVec.ofNat 32 bytes.length } ∧
    t.wire = s.wire ++ .sel true :: acceptedEvents bytes ++ [.sel false]) ∨
  ∃ k, k < bytes.length ∧ t.cs = true ∧ t.rsp = s.rsp ∧
    t.seq = .transaction { op := op, pending := bytes.drop k, accepted := k } ∧
    t.wire = s.wire ++ .sel true :: acceptedEvents (bytes.take k)

/-! ### The shape of the event list (44_wire.md R161, R162, R165) -/

/-- What the transport may see next: nothing selected, selected, or selected after a rejection. -/
inductive WireMode where
  | unselected
  | selected
  | stopped
deriving DecidableEq, Repr

/-- Bytes come only under chip-select, none after a rejection, and selections alternate (44_wire.md R162, R163, R165). -/
def wireNext (m : Option WireMode) (e : Event) : Option WireMode :=
  match m, e with
  | some .unselected, .sel true => some .selected
  | some .selected, .byte _ .accepted => some .selected
  | some .selected, .byte _ (.rejected _) => some .stopped
  | some .selected, .sel false => some .unselected
  | some .stopped, .sel false => some .unselected
  | _, _ => none

/-- Where an event list leaves the transport, if the list has the shape of 44_wire.md R163. -/
def wireMode (events : List Event) : Option WireMode := events.foldl wireNext (some .unselected)

/-! ### The invariant -/

/-- What holds of every state of a core that exists (00_scope.md R7; 10_state.md R26, R27, R33; 20_memory.md R50;
44_wire.md R161, R163, R183). -/
structure CoreInvariant (s : State) : Prop where
  /-- A core exists only for legal parameters. -/
  legalParameters : s.cfg.legal = true
  /-- The memory has its canonical form. -/
  memoryCanonical : s.fb.wf = true
  /-- Every framebuffer byte the memory lists exists. -/
  memoryInside : s.fb.within s.cfg.nb = true
  /-- Chip-select is asserted exactly during a transaction. -/
  selectedInTransaction : s.cs = true ↔ ∃ t, s.seq = .transaction t
  /-- `BUSY` is 1 exactly from acceptance to the taking of the response, and during the reset-time Clear. -/
  busyInCommand : s.busy = true ↔ (s.seq ≠ .idle ∨ s.rsp.isSome = true)
  /-- A response is offered only when the command is complete. -/
  responseAfterCommand : s.rsp.isSome = true → s.seq = .idle
  /-- A waiting transaction has a byte on offer, and its bytes, accepted and not, are those of its format. -/
  transactionBytes : ∀ t, s.seq = .transaction t →
    t.pending ≠ [] ∧ t.accepted + t.pending.length = transactionLength s.cfg t.op
  /-- The transport has seen whole transactions, and the part of the one in progress. -/
  wireShape : wireMode s.wire = some (if s.cs then .selected else .unselected)

end Sys2Proof.Machine
end

