-- ==== Sys2Proof/Certificates/Slice0/Obligations.lean ====
section
/-!
DEFINITION. The statements for the provers. Each docstring names the rule of spec/ it formalises; a statement that rests
on a choice of the model, or on an inference the spec marks as its own, says so and names the log entry or the rule.

10_state.md R30 makes "no sticky bit set" a premise of every claim, since the source gives no meaning to the events that set
two of the bits. The statements under "Faulted states" are the claims of the model in that form. Where a statement speaks
of a state with a sticky bit set, or of a step that sets one, it is about the core of spec/ alone and formalises the
effect spec/ itself states for it (60_exceptions.md R201 to R203; 42_fill.md R145, which 93_implementation_defined.md 25
says a model implements as written); it claims nothing of the source's software (notes entry 4).
-/

open Sys2Proof Sys2Proof.Machine

/-! ### The command word (30_encoding.md) -/

/-- Decode and encode agree: no operand bit of any command is lost (30_encoding.md R80, R82, R83). -/
def Obligations.DecodeOfEncode : Prop :=
  ∀ i : Instr, i.wellFormed = true → decode (encode i) = i

/-- R84: the opcode alone selects the command, by each row of its table; and its match and mask. -/
def Obligations.OpcodeAloneSelectsCommand : Prop :=
  ∀ w : CmdWord,
    (w.extractLsb' 68 4 = 0x0#4 → decode w = .nop) ∧
    (w.extractLsb' 68 4 = 0x1#4 → ∃ x y col, decode w = .setPixel x y col) ∧
    (w.extractLsb' 68 4 = 0x2#4 → ∃ x y, decode w = .getPixel x y) ∧
    (w.extractLsb' 68 4 = 0x3#4 → ∃ x0 y0 x1 y1 col, decode w = .drawLine x0 y0 x1 y1 col) ∧
    (w.extractLsb' 68 4 = 0x4#4 → ∃ x y h col, decode w = .drawFastVline x y h col) ∧
    (w.extractLsb' 68 4 = 0x5#4 → ∃ x y v col, decode w = .drawFastHline x y v col) ∧
    (w.extractLsb' 68 4 = 0x6#4 → ∃ x y v h col, decode w = .fillRect x y v h col) ∧
    (w.extractLsb' 68 4 = 0x7#4 → ∃ col, decode w = .fillScreen col) ∧
    (w.extractLsb' 68 4 = 0x8#4 → ∃ r, decode w = .setRotation r) ∧
    (w.extractLsb' 68 4 = 0x9#4 → decode w = .clear) ∧
    (w.extractLsb' 68 4 = 0xA#4 → decode w = .refresh) ∧
    (w.extractLsb' 68 4 = 0xB#4 → ∃ v, decode w = .reverseByte v) ∧
    (w.extractLsb' 68 4 = 0xC#4 → decode w = .reservedC) ∧
    (w.extractLsb' 68 4 = 0xD#4 → decode w = .reservedD) ∧
    (w.extractLsb' 68 4 = 0xE#4 → decode w = .reservedE) ∧
    (w.extractLsb' 68 4 = 0xF#4 → decode w = .reservedF) ∧
    ∀ n : BitVec 4, w.extractLsb' 68 4 = n ↔ w &&& 0xF0_0000_0000_0000_0000#72 = n.setWidth 72 <<< 68

/-- R85: a command reads only the fields its row of R82 names (`fieldsRead`): with every other bit, `rsv` among them,
made 0, a word carries the same command; and the encoder writes 0 there. -/
def Obligations.UnreadFieldsAreIgnored : Prop :=
  (∀ w : CmdWord, decode (w &&& fieldsRead (w.extractLsb' 68 4)) = decode w) ∧
  ∀ i : Instr, encode i &&& fieldsRead i.opcode = encode i

/-- Every word carries a command whose operands fit their fields (30_encoding.md R83). -/
def Obligations.DecodedOperandsFitFields : Prop :=
  ∀ w : CmdWord, (decode w).wellFormed = true

/-- The twelve example words of 30_encoding.md R87 carry the commands written beside them. -/
def Obligations.ExampleWordsDecode : Prop :=
  decode 0x000000000000000000#72 = .nop ∧
  decode 0x100003000500000000#72 = .setPixel 3 5 false ∧
  decode 0x20FFFF000200000000#72 = .getPixel (-1) 2 ∧
  decode 0x380000000000070003#72 = .drawLine 0 0 7 3 true ∧
  decode 0x400004000100030000#72 = .drawFastVline 4 1 3 false ∧
  decode 0x500002000300050000#72 = .drawFastHline 2 3 5 false ∧
  decode 0x600001000100030002#72 = .fillRect 1 1 3 2 false ∧
  decode 0x780000000000000000#72 = .fillScreen true ∧
  decode 0x800002000000000000#72 = .setRotation 2 ∧
  decode 0x900000000000000000#72 = .clear ∧
  decode 0xA00000000000000000#72 = .refresh ∧
  decode 0xB00001000000000000#72 = .reverseByte 0x01

/-! ### The step (10_state.md R33) -/

/-- A step runs the decoded command: a ready core with a word on its command port executes the command the word carries,
the word having left the port (10_state.md R33). -/
def Obligations.StepRunsOfferedCommand : Prop :=
  ∀ (s : State) (w : CmdWord) (rest : List CmdWord), s.cfg.legal = true → s.pins.rst = false → s.seq = .idle →
    s.rsp = none → s.busy = false → s.hostCmds = w :: rest →
    step s = exec (decode w) { s with hostCmds := rest }

/-- An idle core with no command offered keeps its state (60_exceptions.md R215). -/
def Obligations.IdleCoreKeepsItsState : Prop :=
  ∀ s : State, s.cfg.legal = true → s.pins.rst = false → s.seq = .idle → s.rsp = none → s.hostCmds = [] →
    ∀ k, Host.Core.run core k s = .next s

/-- R249: a response is held, and nothing accepted, until `rsp_ready` is 1; a host that never takes it stalls the core
forever. When it is taken, `BUSY` clears and nothing else changes. -/
def Obligations.ResponseIsHeldUntilTaken : Prop :=
  ∀ s : State, s.cfg.legal = true → s.pins.rst = false → s.seq = .idle → s.rsp.isSome = true →
    (s.pins.rspReady = false → ∀ k, Host.Core.run core k s = .next s) ∧
    (s.pins.rspReady = true → step s = .next { s with rsp := none, busy := false })

/-- R7, with the legal values of R6 written out: a core is refused for any other parameters, and only for those. -/
def Obligations.IllegalParametersAreRefused : Prop :=
  ∀ s : State,
    (¬ (8 ∣ s.cfg.w ∧ 8 ≤ s.cfg.w ∧ s.cfg.w ≤ 32760 ∧ 1 ≤ s.cfg.h ∧ s.cfg.h ≤ 255) →
      step s = .refused .illegalConfiguration ∧ ∀ i, exec i s = .refused .illegalConfiguration) ∧
    ((8 ∣ s.cfg.w ∧ 8 ≤ s.cfg.w ∧ s.cfg.w ≤ 32760 ∧ 1 ≤ s.cfg.h ∧ s.cfg.h ≤ 255) →
      (∃ t, step s = .next t) ∧ ∀ i, ∃ t, exec i s = .next t)

/-- R8: no command changes `W` or `H` (nor the other parameters), and the rotation is the only geometry a command
changes, SET_ROTATION that command; no step changes a parameter. -/
def Obligations.GeometryIsImmutable : Prop :=
  (∀ i s t, exec i s = .next t → t.cfg = s.cfg ∧ ((∀ r, i ≠ .setRotation r) → t.rot = s.rot)) ∧
  (∀ s t, step s = .next t → t.cfg = s.cfg)

/-- The state after reset satisfies the invariant. It rests on the parameters `State.reset` is given, the model's
choice (notes entry 1). -/
def Obligations.ResetStateIsInvariant : Prop := CoreInvariant State.reset

/-- Every step keeps the invariant of the core (10_state.md R26, R27, R33; 20_memory.md R50; 44_wire.md R161 to R165,
R183), its canonical memory form being the model's own. -/
def Obligations.StepKeepsCoreInvariant : Prop :=
  ∀ s t, CoreInvariant s → step s = .next t → CoreInvariant t

/-- A byte is on offer only while chip-select is asserted (44_wire.md R161, R162). -/
def Obligations.ByteOfferedOnlyWhenSelected : Prop :=
  ∀ s : State, CoreInvariant s → s.txValid = true → s.csAssert = true

/-- A sticky bit that is set stays set through every step out of reset and through every command; reset clears all
three (10_state.md R30). -/
def Obligations.StickyBitsStaySet : Prop :=
  (∀ i s t, exec i s = .next t →
    (s.oobS = true → t.oobS = true) ∧ (s.illS = true → t.illS = true) ∧ (s.txeS = true → t.txeS = true)) ∧
  (∀ s t, s.pins.rst = false → step s = .next t →
    (s.oobS = true → t.oobS = true) ∧ (s.illS = true → t.illS = true) ∧ (s.txeS = true → t.txeS = true)) ∧
  (∀ s t, s.pins.rst = true → step s = .next t → t.oobS = false ∧ t.illS = false ∧ t.txeS = false)

/-- R31: commands write the sticky bits, and no command's behaviour depends on them: from two states that differ only
in them, a command leaves states that differ only in them. -/
def Obligations.NoCommandReadsStickyBits : Prop :=
  ∀ (i : Instr) (s t : State) (o x e : Bool), exec i s = .next t →
    ∃ t', exec i { s with oobS := o, illS := x, txeS := e } = .next t' ∧
      t' = { t with oobS := t'.oobS, illS := t'.illS, txeS := t'.txeS }

/-- The framebuffer is written only by the drawing commands and by CLEAR (10_state.md R22). -/
def Obligations.OnlyDrawingAndClearWriteFramebuffer : Prop :=
  ∀ i s t, exec i s = .next t →
    (∀ x y col, i ≠ .setPixel x y col) → (∀ x0 y0 x1 y1 col, i ≠ .drawLine x0 y0 x1 y1 col) →
    (∀ x y h col, i ≠ .drawFastVline x y h col) → (∀ x y v col, i ≠ .drawFastHline x y v col) →
    (∀ x y v h col, i ≠ .fillRect x y v h col) → (∀ col, i ≠ .fillScreen col) → i ≠ .clear →
    t.fb = s.fb

/-- Only CLEAR and REFRESH among the commands touch the wire, the polarity and chip-select (10_state.md R24, 44_wire.md
R163). -/
def Obligations.OnlyTransactionsReachTheWire : Prop :=
  ∀ i s t, exec i s = .next t → i ≠ .clear → i ≠ .refresh →
    t.wire = s.wire ∧ t.vcom = s.vcom ∧ t.cs = s.cs ∧ t.seq = s.seq ∧ t.txScript = s.txScript

/-- One command reports one status, and which exceptions each family can raise (an inference of 60_exceptions.md R205
from R201 to R203). -/
def Obligations.FamiliesRaiseTheirOwnExceptions : Prop :=
  ∀ i s t r, exec i s = .next t → s.rsp = none → t.rsp = some r →
    (match i with
      | .nop | .setRotation _ | .reverseByte _ => r.status = .ok
      | .setPixel _ _ _ | .getPixel _ _ | .drawLine _ _ _ _ _ | .drawFastVline _ _ _ _ | .drawFastHline _ _ _ _
      | .fillRect _ _ _ _ _ | .fillScreen _ => r.status = .ok ∨ r.status = .outOfBuffer
      | .clear | .refresh => r.status = .ok ∨ r.status = .transportError
      | .reservedC | .reservedD | .reservedE | .reservedF => r.status = .illegalCommand) ∧
    (r.status = .outOfBuffer → t.oobS = true) ∧ (r.status = .illegalCommand → t.illS = true) ∧
    (r.status = .transportError → t.txeS = true)

/-! ### Reset (70_reset_and_hazards.md) -/

/-- R230: what an edge with `rst` = 1 loads and what it abandons. `FB` is not written; the ports are idle while `rst`
is 1. -/
def Obligations.ResetEdgeLoadsAndAbandons : Prop :=
  ∀ s : State, s.cfg.legal = true → s.pins.rst = true →
    ∃ t, step s = .next t ∧
      t = { s with
        rot := s.pins.cfgRotInit, vcom := false, cs := false, busy := true, oobS := false, illS := false,
        txeS := false, seq := .resetClear, rsp := none, wire := t.wire } ∧
      t.cmdReady = false ∧ t.rspValid = false ∧ t.txValid = false ∧ t.csAssert = false

/-- Reset cuts a transaction short: the transport sees chip-select fall, and no byte (70_reset_and_hazards.md R231). That
the fall is a `SEL(0)` event of the list is the model's choice (notes entry 9). -/
def Obligations.ResetCutsTransactionShort : Prop :=
  ∀ s : State, s.cfg.legal = true → s.pins.rst = true →
    ∃ t, step s = .next t ∧ t.wire = if s.cs = true then s.wire ++ [.sel false] else s.wire

/-- R232: at the first edge with `rst` = 0 the core runs one Clear from polarity 0: it fills `FB`, sends 0x20 and 0x00
under chip-select, inverts `VCOM` to 1 and responds nothing; a rejection sets `TXE_S` and ends the transaction; when it
has ended, `BUSY` is 0. -/
def Obligations.ResetTimeClearRunsOnce : Prop :=
  ∀ s : State, s.cfg.legal = true → s.pins.rst = false → s.seq = .resetClear → s.vcom = false →
    (∀ rest, TransportAccepts s 2 rest → ∃ t, step s = .next t ∧
      t = { s with
        fb := t.fb, vcom := true, cs := false, busy := false, seq := .idle, txScript := rest,
        wire := s.wire ++ [.sel true, .byte 0x20#8 .accepted, .byte 0x00#8 .accepted, .sel false] } ∧
      (∀ a, a < s.cfg.nb → t.fb.read a = 0xFF#8) ∧ ∀ a, s.cfg.nb ≤ a → t.fb.read a = s.fb.read a) ∧
    (∀ k c rest, TransportRejects s 2 k c rest → ∃ t, step s = .next t ∧
      t = { s with
        fb := t.fb, vcom := true, cs := false, busy := false, txeS := true, seq := .idle, txScript := rest,
        wire := s.wire ++ .sel true :: rejectedEvents [0x20#8, 0x00#8] k c ++ [.sel false] } ∧
      (∀ a, a < s.cfg.nb → t.fb.read a = 0xFF#8) ∧ ∀ a, s.cfg.nb ≤ a → t.fb.read a = s.fb.read a) ∧
    (∀ k, TransportWaits s 2 k → ∃ t, step s = .next t ∧
      t = { s with
        fb := t.fb, cs := true, txScript := [],
        seq := .transaction { op := .resetClear, pending := [0x20#8, 0x00#8].drop k, accepted := k },
        wire := s.wire ++ .sel true :: acceptedEvents ([0x20#8, 0x00#8].take k) } ∧
      (∀ a, a < s.cfg.nb → t.fb.read a = 0xFF#8) ∧ ∀ a, s.cfg.nb ≤ a → t.fb.read a = s.fb.read a)

/-- R38: every element right after reset, and after initialisation, whatever the core was doing when reset came. `t` is
the state the last edge with `rst` = 1 leaves; the next edge has `rst` = 0. -/
def Obligations.ResetThenInitialisationValues : Prop :=
  ∀ s : State, s.cfg.legal = true → s.pins.rst = true →
    ∃ t, step s = .next t ∧
      t.rot = s.pins.cfgRotInit ∧ t.vcom = false ∧ t.cs = false ∧ t.busy = true ∧ t.oobS = false ∧ t.illS = false ∧
      t.txeS = false ∧ t.seq = .resetClear ∧ t.rspValid = false ∧ t.txValid = false ∧
      ∀ u, u = { t with pins := { t.pins with rst := false } } →
        (∀ rest, TransportAccepts u 2 rest → ∃ v, step u = .next v ∧ v.txeS = false ∧
          (∀ a, a < v.cfg.nb → v.fb.read a = 0xFF#8) ∧ v.rot = s.pins.cfgRotInit ∧ v.vcom = true ∧ v.cs = false ∧
          v.busy = false ∧ v.oobS = false ∧ v.illS = false ∧ v.seq = .idle ∧ v.rspValid = false ∧ v.txValid = false) ∧
        (∀ k c rest, TransportRejects u 2 k c rest → ∃ v, step u = .next v ∧ v.txeS = true ∧
          (∀ a, a < v.cfg.nb → v.fb.read a = 0xFF#8) ∧ v.rot = s.pins.cfgRotInit ∧ v.vcom = true ∧ v.cs = false ∧
          v.busy = false ∧ v.oobS = false ∧ v.illS = false ∧ v.seq = .idle ∧ v.rspValid = false ∧ v.txValid = false)

/-! ### The coordinate transform (20_memory.md) -/

/-- R56: the four rotations. -/
def Obligations.TransformTable : Prop :=
  ∀ (cfg : Config) (x y : Int),
    xform cfg x y 0 = (x, y) ∧
    xform cfg x y 1 = ((cfg.w : Int) - 1 - y, x) ∧
    xform cfg x y 2 = ((cfg.w : Int) - 1 - x, (cfg.h : Int) - 1 - y) ∧
    xform cfg x y 3 = (y, (cfg.h : Int) - 1 - x)

/-- R51: the byte and bit of a physical pixel, the same by either formula, inside the framebuffer, and no byte holds
pixels of two rows. -/
def Obligations.PixelsAreRowMajor : Prop :=
  ∀ cfg : Config, cfg.legal = true → ∀ x' y' : Nat, x' < cfg.w → y' < cfg.h →
    byteIndex cfg x' y' = (y' * cfg.w + x') / 8 ∧ byteIndex cfg x' y' = y' * cfg.bpl + x' / 8 ∧
    bitIndex x' = x' % 8 ∧ byteIndex cfg x' y' < cfg.nb ∧
    ∀ x'' y'' : Nat, x'' < cfg.w → y'' < cfg.h → byteIndex cfg x'' y'' = byteIndex cfg x' y' →
      y'' = y' ∧ x'' / 8 = x' / 8

/-- No access reaches an index outside the framebuffer: whatever the coordinates and the rotation, an address `Locate`
gives lies in `[0, NB)` and its bit in a byte (20_memory.md R50, R61). That no command and no step answers the model's own
fault rests on two choices of the model: only an access outside `FB` has that fault (notes entry 12), and the exceptions
of 60_exceptions.md R201 to R203 are next states (notes entry 4). -/
def Obligations.NoAccessOutsideFramebuffer : Prop :=
  (∀ cfg : Config, cfg.legal = true → ∀ (r : BitVec 2) (x y : Int) (i p : Nat), locate cfg r x y = .cell i p →
    i < cfg.nb ∧ p < 8) ∧
  (∀ i s f, exec i s ≠ .fault f) ∧ (∀ s f, step s ≠ .fault f)

/-- When a point is clipped, out of buffer or stored, and where it is stored: `Locate` by the written-out extent (20_memory.md
R59 to R61), the band of out-of-buffer points, and that without a band the transform maps the in-range points one-to-one
onto all physical pixels (an inference of R62 from R56, R59 and R61). -/
def Obligations.OutOfBufferExactlyInBand : Prop :=
  ∀ cfg : Config, cfg.legal = true → ∀ r : BitVec 2,
    (∀ x y : Int,
      locate cfg r x y = .clip ↔
        ¬ (if cfg.boundsMode = .swapped ∧ (r = 1 ∨ r = 3) then 0 ≤ x ∧ x < cfg.h ∧ 0 ≤ y ∧ y < cfg.w
          else 0 ≤ x ∧ x < cfg.w ∧ 0 ≤ y ∧ y < cfg.h)) ∧
    (∀ x y : Int, locate cfg r x y ≠ .clip → (locate cfg r x y).isOob = false →
      locate cfg r x y =
        .cell (((xform cfg x y r).2 * cfg.w + (xform cfg x y r).1) / 8).toNat ((xform cfg x y r).1 % 8).toNat) ∧
    (hasBand cfg r →
      ∀ x y : Int, (locate cfg r x y).isOob = true ↔
        (0 ≤ x ∧ x < cfg.w ∧ 0 ≤ y ∧ y < cfg.h) ∧ ((cfg.h : Int) ≤ x ∨ (cfg.w : Int) ≤ y)) ∧
    (¬ hasBand cfg r →
      (∀ x y : Int, (locate cfg r x y).isOob = false) ∧
      ∀ x' y' : Nat, x' < cfg.w → y' < cfg.h →
        ∃! pt : Point, inRange cfg r pt.1 pt.2 = true ∧
          locate cfg r pt.1 pt.2 = .cell (y' * cfg.bpl + x' / 8) (x' % 8))

/-! ### Pixel commands (40_pixel.md) -/

/-- R100: SET_PIXEL's encoding and effect, for clipped, out-of-buffer and stored points. -/
def Obligations.SetPixelWritesItsPixel : Prop :=
  (∀ w : CmdWord, w.extractLsb' 68 4 = 0x1#4 →
    decode w = .setPixel (w.extractLsb' 48 16).toInt (w.extractLsb' 32 16).toInt (w.getLsbD 67)) ∧
  ∀ (s : State) (x y : Int) (col : Bool), s.cfg.legal = true → s.fb.wf = true →
    (∃ t, exec (.setPixel x y col) s = .next t ∧ PaintsExactly (fun pt => pt = (x, y)) col s t) ∧
    (s.oobAt (x, y) → hasBand s.cfg s.rot)

/-- R105: GET_PIXEL's encoding and effect. `FB` is never written. -/
def Obligations.GetPixelReadsItsPixel : Prop :=
  (∀ w : CmdWord, w.extractLsb' 68 4 = 0x2#4 →
    decode w = .getPixel (w.extractLsb' 48 16).toInt (w.extractLsb' 32 16).toInt) ∧
  ∀ (s : State) (x y : Int), s.cfg.legal = true →
    (locate s.cfg s.rot x y = .clip →
      exec (.getPixel x y) s = .next { s with busy := true, rsp := some { status := .ok, data := 0 } }) ∧
    ((locate s.cfg s.rot x y).isOob = true →
      exec (.getPixel x y) s =
        .next { s with busy := true, oobS := true, rsp := some { status := .outOfBuffer, data := 0 } }) ∧
    (∀ i p, locate s.cfg s.rot x y = .cell i p →
      exec (.getPixel x y) s =
        .next { s with busy := true, rsp := some { status := .ok, data := if s.fbBit i p then 1 else 0 } }) ∧
    (s.oobAt (x, y) → hasBand s.cfg s.rot)

/-- A pixel written is read back (an inference of 40_pixel.md R106 from R100, R105 and 20_memory.md R62): the read sees
any state `u` in which `FB`, `ROT` and the parameters are as SET_PIXEL left them. The out-of-buffer clause is R202's effect
on this core, outside R30's claims; the claim in R30's form is `UnfaultedReadsReturnWhatWasWritten`. -/
def Obligations.WrittenPixelReadsBack : Prop :=
  ∀ (s : State) (x y : Int) (col : Bool), s.cfg.legal = true → s.fb.wf = true → inRange s.cfg s.rot x y = true →
    ((s.rot = 0 ∨ s.rot = 2 ∨ s.cfg.w = s.cfg.h ∨ s.cfg.boundsMode = .swapped) → ∃ i p, s.storedAt (x, y) i p) ∧
    ∃ t, exec (.setPixel x y col) s = .next t ∧
      ∀ u : State, u.cfg = t.cfg → u.fb = t.fb → u.rot = t.rot →
        ∃ v, exec (.getPixel x y) u = .next v ∧
          (∀ i p, s.storedAt (x, y) i p → v.rsp = some { status := .ok, data := if col then 1 else 0 }) ∧
          (s.oobAt (x, y) → t.rsp = some { status := .outOfBuffer, data := 0 } ∧
            v.rsp = some { status := .outOfBuffer, data := 0 })

/-! ### Line commands (41_line.md) -/

/-- R125: DRAW_LINE's encoding and effect: a vertical line, a horizontal line, or the rasterizer's points. -/
def Obligations.DrawLinePaintsItsPoints : Prop :=
  (∀ w : CmdWord, w.extractLsb' 68 4 = 0x3#4 →
    decode w = .drawLine (w.extractLsb' 48 16).toInt (w.extractLsb' 32 16).toInt (w.extractLsb' 16 16).toInt
      (w.extractLsb' 0 16).toInt (w.getLsbD 67)) ∧
  ∀ (s : State) (x0 y0 x1 y1 : Int) (col : Bool), s.cfg.legal = true → s.fb.wf = true →
    ∃ t, exec (.drawLine x0 y0 x1 y1 col) s = .next t ∧
      PaintsExactly
        (fun pt =>
          if x0 = x1 then pt.1 = x0 ∧ min y0 y1 ≤ pt.2 ∧ pt.2 ≤ max y0 y1
          else if y0 = y1 then pt.2 = y0 ∧ min x0 x1 ≤ pt.1 ∧ pt.1 ≤ max x0 x1
          else pt ∈ bres x0 y0 x1 y1)
        col s t

/-- R128: DRAW_FAST_VLINE's encoding and effect, zero and negative heights included. -/
def Obligations.FastVlinePaintsItsColumn : Prop :=
  (∀ w : CmdWord, w.extractLsb' 68 4 = 0x4#4 →
    decode w = .drawFastVline (w.extractLsb' 48 16).toInt (w.extractLsb' 32 16).toInt (w.extractLsb' 16 16).toInt
      (w.getLsbD 67)) ∧
  ∀ (s : State) (x y h : Int) (col : Bool), s.cfg.legal = true → s.fb.wf = true →
    ∃ t, exec (.drawFastVline x y h col) s = .next t ∧
      PaintsExactly
        (fun pt => pt.1 = x ∧
          (if 1 ≤ h then y ≤ pt.2 ∧ pt.2 ≤ y + h - 1 else y + h - 1 ≤ pt.2 ∧ pt.2 ≤ y))
        col s t

/-- R130: DRAW_FAST_HLINE's encoding and effect, zero and negative widths included. -/
def Obligations.FastHlinePaintsItsRow : Prop :=
  (∀ w : CmdWord, w.extractLsb' 68 4 = 0x5#4 →
    decode w = .drawFastHline (w.extractLsb' 48 16).toInt (w.extractLsb' 32 16).toInt (w.extractLsb' 16 16).toInt
      (w.getLsbD 67)) ∧
  ∀ (s : State) (x y v : Int) (col : Bool), s.cfg.legal = true → s.fb.wf = true →
    ∃ t, exec (.drawFastHline x y v col) s = .next t ∧
      PaintsExactly
        (fun pt => pt.2 = y ∧
          (if 1 ≤ v then x ≤ pt.1 ∧ pt.1 ≤ x + v - 1 else x + v - 1 ≤ pt.1 ∧ pt.1 ≤ x))
        col s t

/-- The rasterizer's points: how many, all distinct, from the endpoint with the smaller major coordinate to the other,
one step of the major axis and at most one of the minor axis between neighbours (an inference of 41_line.md R121, items
1, 2, 3 and 6, from R120). -/
def Obligations.RasterizerJoinsItsEndpoints : Prop :=
  ∀ x0 y0 x1 y1 : Int,
    ((bres x0 y0 x1 y1).length : Int) = max |x1 - x0| |y1 - y0| + 1 ∧
    (bres x0 y0 x1 y1).Nodup ∧
    (¬ |x1 - x0| < |y1 - y0| →
      (bres x0 y0 x1 y1).head? = some (if x1 < x0 then (x1, y1) else (x0, y0)) ∧
      (bres x0 y0 x1 y1).getLast? = some (if x1 < x0 then (x0, y0) else (x1, y1)) ∧
      ∀ k p q, (bres x0 y0 x1 y1)[k]? = some p → (bres x0 y0 x1 y1)[k + 1]? = some q →
        q.1 = p.1 + 1 ∧ |q.2 - p.2| ≤ 1) ∧
    (|x1 - x0| < |y1 - y0| →
      (bres x0 y0 x1 y1).head? = some (if y1 < y0 then (x1, y1) else (x0, y0)) ∧
      (bres x0 y0 x1 y1).getLast? = some (if y1 < y0 then (x0, y0) else (x1, y1)) ∧
      ∀ k p q, (bres x0 y0 x1 y1)[k]? = some p → (bres x0 y0 x1 y1)[k + 1]? = some q →
        q.2 = p.2 + 1 ∧ |q.1 - p.1| ≤ 1)

/-- The accumulator and the points it gives (41_line.md R120; the range is R121's item 4, an inference). After `k` iterations
the minor coordinate has made some `m` steps, the accumulator is `dx div 2 - k*dy + m*dx`, in `[-dx, dx]` throughout and in
`[0, dx)` after each iteration when `dx > 0`; so point `k` of a line lies `k` major steps from the endpoint it starts at and
`m` minor steps towards the other, with `m` fixed by that range. -/
def Obligations.AccumulatorStaysInRange : Prop :=
  ∀ (x0 y0 x1 y1 : Int) (k : Nat),
    (let q := rasterStart x0 y0 x1 y1
     let r := Raster.advance^[k] q
     0 ≤ r.err ∧ r.err ≤ r.dx ∧ -r.dx ≤ r.err - r.dy ∧ (0 < r.dx → r.err < r.dx) ∧ r.x = q.x + k ∧
       ∃ m : Nat, r.y = q.y + q.ystep * m ∧ r.err = q.dx / 2 - k * q.dy + m * q.dx) ∧
    ∀ p : Point, (bres x0 y0 x1 y1)[k]? = some p →
      (¬ |x1 - x0| < |y1 - y0| →
        ∃ m : Nat,
          (if x1 < x0 then p = (x1 + k, y1 + (if y1 < y0 then 1 else -1) * m)
            else p = (x0 + k, y0 + (if y0 < y1 then 1 else -1) * m)) ∧
          0 ≤ |x1 - x0| / 2 - k * |y1 - y0| + m * |x1 - x0| ∧
          (x0 ≠ x1 → |x1 - x0| / 2 - k * |y1 - y0| + m * |x1 - x0| < |x1 - x0|)) ∧
      (|x1 - x0| < |y1 - y0| →
        ∃ m : Nat,
          (if y1 < y0 then p = (x1 + (if x1 < x0 then 1 else -1) * m, y1 + k)
            else p = (x0 + (if x0 < x1 then 1 else -1) * m, y0 + k)) ∧
          0 ≤ |y1 - y0| / 2 - k * |x1 - x0| + m * |y1 - y0| ∧
          |y1 - y0| / 2 - k * |x1 - x0| + m * |y1 - y0| < |y1 - y0|)

/-- A line and its reverse write the same points in the same order, and are the same command (an inference of 41_line.md
R122 from R120). -/
def Obligations.LineIsSymmetric : Prop :=
  ∀ x0 y0 x1 y1 : Int, bres x0 y0 x1 y1 = bres x1 y1 x0 y0 ∧
    ∀ (col : Bool) (s : State), exec (.drawLine x0 y0 x1 y1 col) s = exec (.drawLine x1 y1 x0 y0 col) s

/-- The fast paths write the points of the general rasterizer for the same endpoints, in the same order, for every
length (an inference of 41_line.md R132 and R126). -/
def Obligations.FastPathsEqualRasterizer : Prop :=
  (∀ x0 y0 x1 y1 : Int, linePoints x0 y0 x1 y1 = bres x0 y0 x1 y1) ∧
  (∀ (x y h : Int) (col : Bool) (s : State),
    exec (.drawFastVline x y h col) s = exec (.drawLine x y x (y + h - 1) col) s) ∧
  (∀ (x y v : Int) (col : Bool) (s : State),
    exec (.drawFastHline x y v col) s = exec (.drawLine x y (x + v - 1) y col) s)

/-! ### Fill commands (42_fill.md) -/

/-- R141: FILL_RECT's encoding and effect, with the corner cases of R143. -/
def Obligations.FillRectPaintsItsRectangle : Prop :=
  (∀ w : CmdWord, w.extractLsb' 68 4 = 0x6#4 →
    decode w = .fillRect (w.extractLsb' 48 16).toInt (w.extractLsb' 32 16).toInt (w.extractLsb' 16 16).toInt
      (w.extractLsb' 0 16).toInt (w.getLsbD 67)) ∧
  ∀ (s : State) (x y v h : Int) (col : Bool), s.cfg.legal = true → s.fb.wf = true →
    ∃ t, exec (.fillRect x y v h col) s = .next t ∧
      PaintsExactly
        (fun pt => x ≤ pt.1 ∧ pt.1 < x + v ∧
          (if 1 ≤ h then y ≤ pt.2 ∧ pt.2 ≤ y + h - 1 else y + h - 1 ≤ pt.2 ∧ pt.2 ≤ y))
        col s t

/-- The fill visits each point of its rectangle exactly once, columns left to right, each top to bottom, and no other
point (an inference of 42_fill.md R142 from R140). -/
def Obligations.RectangleVisitsEachPointOnce : Prop :=
  ∀ x y v h : Int, 1 ≤ v → 1 ≤ h →
    (rectPath x y v h).Pairwise (fun p q => p.1 < q.1 ∨ (p.1 = q.1 ∧ p.2 < q.2)) ∧
    ∀ pt : Point, pt ∈ rectPath x y v h ↔ (x ≤ pt.1 ∧ pt.1 < x + v ∧ y ≤ pt.2 ∧ pt.2 < y + h)

/-- R144: FILL_SCREEN's encoding and effect: the rectangle of the logical extent under the current rotation. -/
def Obligations.FillScreenPaintsTheExtent : Prop :=
  (∀ w : CmdWord, w.extractLsb' 68 4 = 0x7#4 → decode w = .fillScreen (w.getLsbD 67)) ∧
  ∀ (s : State) (col : Bool), s.cfg.legal = true → s.fb.wf = true →
    ∃ t, exec (.fillScreen col) s = .next t ∧
      PaintsExactly
        (fun pt =>
          if s.cfg.boundsMode = .swapped ∧ (s.rot = 1 ∨ s.rot = 3) then
            0 ≤ pt.1 ∧ pt.1 < s.cfg.h ∧ 0 ≤ pt.2 ∧ pt.2 < s.cfg.w
          else 0 ≤ pt.1 ∧ pt.1 < s.cfg.w ∧ 0 ≤ pt.2 ∧ pt.2 < s.cfg.h)
        col s t ∧
      (t.rsp = some { status := .outOfBuffer, data := 0 } ↔ hasBand s.cfg s.rot)

/-- What FILL_SCREEN reaches (an inference of 42_fill.md R145 from R144 and 20_memory.md R62): every pixel, and then
every in-range read returns the colour; or, on a non-square unswapped panel under rotations 1 and 3, the part of R145's
table and no more, with `OutOfBuffer`. The second clause is the core's effect as R145 and 60_exceptions.md R202 state it,
outside R30's claims; the claim in R30's form is `UnfaultedReadsReturnWhatWasWritten`. -/
def Obligations.FillScreenReachesItsPart : Prop :=
  ∀ (s : State) (col : Bool), s.cfg.legal = true → s.fb.wf = true →
    ∃ t, exec (.fillScreen col) s = .next t ∧
      ((s.rot = 0 ∨ s.rot = 2 ∨ s.cfg.w = s.cfg.h ∨ s.cfg.boundsMode = .swapped) →
        t.rsp = some { status := .ok, data := 0 } ∧ t.oobS = s.oobS ∧
        (∀ x' y' : Nat, x' < s.cfg.w → y' < s.cfg.h → t.pixel x' y' = col) ∧
        ∀ x y : Int, inRange s.cfg s.rot x y = true →
          ∃ v, exec (.getPixel x y) t = .next v ∧ v.rsp = some { status := .ok, data := if col then 1 else 0 }) ∧
      (hasBand s.cfg s.rot →
        t.rsp = some { status := .outOfBuffer, data := 0 } ∧ t.oobS = true ∧
        ∀ x' y' : Nat, x' < s.cfg.w → y' < s.cfg.h →
          t.pixel x' y' =
            if (if s.cfg.h < s.cfg.w then
                  (if s.rot = 1 then s.cfg.w - s.cfg.h ≤ x' else x' < s.cfg.h)
                else (if s.rot = 1 then y' < s.cfg.w else s.cfg.h - s.cfg.w ≤ y'))
            then col else s.pixel x' y')

/-! ### The codec (43_codec.md) -/

/-- R150: bit `i` of the reversed byte is bit `7 - i` of the byte, and both builds of the codec compute it. -/
def Obligations.CodecReversesBits : Prop :=
  ∀ (impl : CodecImpl) (b : Byte), codec impl b = rev8 b ∧ ∀ i, i < 8 → (codec impl b).getLsbD i = b.getLsbD (7 - i)

/-- The codec's laws (an inference of 43_codec.md R153 from R150): an involution, hence a bijection, that commutes with
the bitwise operations and fixes exactly the bytes that read the same in both directions. -/
def Obligations.CodecLaws : Prop :=
  ∀ a b : Byte,
    rev8 (rev8 b) = b ∧ rev8 0x00#8 = 0x00#8 ∧ rev8 0xFF#8 = 0xFF#8 ∧ (rev8 a = rev8 b → a = b) ∧
    rev8 (a ||| b) = rev8 a ||| rev8 b ∧ rev8 (a &&& b) = rev8 a &&& rev8 b ∧ rev8 (~~~ b) = ~~~ rev8 b ∧
    (rev8 b = b ↔ ∀ i, i < 4 → b.getLsbD i = b.getLsbD (7 - i))

/-- R152: REVERSE_BYTE's encoding and effect: the reversed byte in the response, nothing else. -/
def Obligations.ReverseByteResponds : Prop :=
  (∀ w : CmdWord, w.extractLsb' 68 4 = 0xB#4 → decode w = .reverseByte (w.extractLsb' 48 8)) ∧
  ∀ (s : State) (v : Byte), s.cfg.legal = true →
    exec (.reverseByte v) s =
      .next { s with busy := true, rsp := some { status := .ok, data := (rev8 v).setWidth 32 } }

/-! ### Transactions (44_wire.md) -/

/-- What the transport's pins mean at an edge at which a byte is on offer, `tx_err` before `tx_ready`; and the three ways
the transport can answer the next `n` bytes are all there are, for every state of its inputs (44_wire.md R161). -/
def Obligations.TransportAnswersInOneOfThreeWays : Prop :=
  (∀ p : TxPins,
    (p.err = true → p.verdict = some (.rejected p.code)) ∧
    (p.err = false → p.ready = true → p.verdict = some .accepted) ∧
    (p.err = false → p.ready = false → p.verdict = none)) ∧
  ∀ (s : State) (n : Nat), 0 < n →
    (∃ rest, TransportAccepts s n rest) ∨ (∃ k c rest, TransportRejects s n k c rest) ∨ (∃ k, TransportWaits s n k)

/-- R172: CLEAR's encoding and effect: the fill, whatever the transport does; the two bytes from the polarity before the
flip; the flip, `Select(0)` and the response, with the error and the accepted count after a rejection. While the
transport gives no verdict the byte stays on offer. -/
def Obligations.ClearFillsAndTransacts : Prop :=
  (∀ w : CmdWord, w.extractLsb' 68 4 = 0x9#4 → decode w = .clear) ∧
  ∀ s : State, s.cfg.legal = true →
    (∀ rest, TransportAccepts s 2 rest → ∃ t, exec .clear s = .next t ∧
      t = { s with
        fb := t.fb, busy := true, vcom := !s.vcom, cs := false, seq := .idle, txScript := rest,
        rsp := some { status := .ok, data := 2 },
        wire := s.wire ++ .sel true :: acceptedEvents [if s.vcom then 0x60#8 else 0x20#8, 0x00#8] ++ [.sel false] } ∧
      (∀ a, a < s.cfg.nb → t.fb.read a = 0xFF#8) ∧ ∀ a, s.cfg.nb ≤ a → t.fb.read a = s.fb.read a) ∧
    (∀ k c rest, TransportRejects s 2 k c rest → ∃ t, exec .clear s = .next t ∧
      t = { s with
        fb := t.fb, busy := true, vcom := !s.vcom, cs := false, txeS := true, seq := .idle, txScript := rest,
        rsp := some { status := .transportError, data := c ++ BitVec.ofNat 24 k },
        wire := s.wire ++
          .sel true :: rejectedEvents [if s.vcom then 0x60#8 else 0x20#8, 0x00#8] k c ++ [.sel false] } ∧
      (∀ a, a < s.cfg.nb → t.fb.read a = 0xFF#8) ∧ ∀ a, s.cfg.nb ≤ a → t.fb.read a = s.fb.read a) ∧
    (∀ k, TransportWaits s 2 k → ∃ t, exec .clear s = .next t ∧
      t = { s with
        fb := t.fb, busy := true, cs := true, txScript := [],
        seq := .transaction
          { op := .clear, pending := [if s.vcom then 0x60#8 else 0x20#8, 0x00#8].drop k, accepted := k },
        wire := s.wire ++ .sel true :: acceptedEvents ([if s.vcom then 0x60#8 else 0x20#8, 0x00#8].take k) } ∧
      (∀ a, a < s.cfg.nb → t.fb.read a = 0xFF#8) ∧ ∀ a, s.cfg.nb ≤ a → t.fb.read a = s.fb.read a)

/-- R182, with the stream of R181 and R184: REFRESH's encoding and effect: `VCOM` inverted at the start, the stream as
`refreshFormat` writes it from the polarity before the flip, `Select(0)` and the response. `FB` is not written. -/
def Obligations.RefreshSendsTheFrame : Prop :=
  (∀ w : CmdWord, w.extractLsb' 68 4 = 0xA#4 → decode w = .refresh) ∧
  ∀ s : State, s.cfg.legal = true →
    ∀ bytes, bytes = refreshFormat s.vcom s.cfg s.fb →
      (∀ rest, TransportAccepts s bytes.length rest →
        exec .refresh s = .next { s with
          busy := true, vcom := !s.vcom, cs := false, seq := .idle, txScript := rest,
          rsp := some { status := .ok, data := BitVec.ofNat 32 bytes.length },
          wire := s.wire ++ .sel true :: acceptedEvents bytes ++ [.sel false] }) ∧
      (∀ k c rest, TransportRejects s bytes.length k c rest →
        exec .refresh s = .next { s with
          busy := true, vcom := !s.vcom, cs := false, txeS := true, seq := .idle, txScript := rest,
          rsp := some { status := .transportError, data := c ++ BitVec.ofNat 24 k },
          wire := s.wire ++ .sel true :: rejectedEvents bytes k c ++ [.sel false] }) ∧
      (∀ k, TransportWaits s bytes.length k →
        exec .refresh s = .next { s with
          busy := true, vcom := !s.vcom, cs := true, txScript := [],
          seq := .transaction { op := .refresh, pending := bytes.drop k, accepted := k },
          wire := s.wire ++ .sel true :: acceptedEvents (bytes.take k) })

/-- The length of a Refresh, below 2^24 for every legal panel (an inference of 44_wire.md R183 from R181; the bound is
R164's). -/
def Obligations.RefreshLength : Prop :=
  ∀ (vcom : Bool) (cfg : Config) (fb : Memory),
    (refreshFormat vcom cfg fb).length = 2 + cfg.h * (cfg.bpl + 2) ∧
    (cfg.legal = true → (refreshFormat vcom cfg fb).length ≤ 1044737)

/-- Where a pixel goes out: physical column `8k + p` of a row is bit `7 - p` of the `k`-th data byte of its scanline,
whose address byte is its 1-based number reversed (44_wire.md R182's corner cases, from R53, R150 and R181). -/
def Obligations.RefreshCarriesEachPixel : Prop :=
  ∀ (vcom : Bool) (cfg : Config) (fb : Memory) (x' y' : Nat), cfg.legal = true → x' < cfg.w → y' < cfg.h →
    (refreshFormat vcom cfg fb)[1 + y' * (cfg.bpl + 2)]? = some (rev8 (BitVec.ofNat 8 (y' + 1))) ∧
    ∃ b, (refreshFormat vcom cfg fb)[1 + y' * (cfg.bpl + 2) + 1 + x' / 8]? = some b ∧
      b.getLsbD (7 - x' % 8) = (fb.read (y' * cfg.bpl + x' / 8)).getLsbD (x' % 8)

/-- A transaction that waits goes on when verdicts come, and ends as its command's rule says: the accepted bytes, the
flip of a Clear, `Select(0)`, and the response with the count from the transaction's start, or none and `BUSY` cleared
for the Clear of reset (44_wire.md R161, R164, R165, R171; 70_reset_and_hazards.md R232). -/
def Obligations.WaitingTransactionGoesOn : Prop :=
  ∀ (s : State) (t : Tx), s.cfg.legal = true → s.pins.rst = false → s.seq = .transaction t → t.pending ≠ [] →
    (∀ rest, TransportAccepts s t.pending.length rest →
      step s = .next { s with
        vcom := if t.op = .refresh then s.vcom else !s.vcom
        busy := if t.op = .resetClear then false else s.busy
        cs := false, seq := .idle, txScript := rest
        rsp := if t.op = .resetClear then s.rsp
          else some { status := .ok, data := 0#8 ++ BitVec.ofNat 24 (t.accepted + t.pending.length) }
        wire := s.wire ++ acceptedEvents t.pending ++ [.sel false] }) ∧
    (∀ k c rest, TransportRejects s t.pending.length k c rest →
      step s = .next { s with
        vcom := if t.op = .refresh then s.vcom else !s.vcom
        busy := if t.op = .resetClear then false else s.busy
        txeS := true, cs := false, seq := .idle, txScript := rest
        rsp := if t.op = .resetClear then s.rsp
          else some { status := .transportError, data := c ++ BitVec.ofNat 24 (t.accepted + k) }
        wire := s.wire ++ rejectedEvents t.pending k c ++ [.sel false] }) ∧
    (∀ k, TransportWaits s t.pending.length k →
      step s = .next { s with
        txScript := []
        seq := .transaction { op := t.op, pending := t.pending.drop k, accepted := t.accepted + k }
        wire := s.wire ++ acceptedEvents (t.pending.take k) })

/-- How long the transport waits is not observable: verdicts that come in two stretches end a transaction as they do in
one (10_state.md R36; 44_wire.md R161). -/
def Obligations.WaitingIsUnobservable : Prop :=
  ∀ (s : State) (t : Tx) (xs ys : List TxPins), s.cfg.legal = true → s.pins.rst = false → s.seq = .transaction t →
    s.pins.tx.verdict = none →
    ∃ u, step { s with txScript := xs } = .next u ∧
      step { s with txScript := xs ++ ys } =
        (match u.seq with
          | .transaction _ => step { u with txScript := ys }
          | .idle => .next { u with txScript := u.txScript ++ ys }
          | .resetClear => .next { u with txScript := u.txScript ++ ys })

/-- A transport that answers every byte ends every transaction: CLEAR and REFRESH end with a response, a waiting
transaction ends in one step (70_reset_and_hazards.md R252, from its first fairness assumption). -/
def Obligations.AnsweringTransportEndsTransactions : Prop :=
  ∀ s : State, s.cfg.legal = true → s.pins.tx.verdict ≠ none →
    (∃ t, exec .clear s = .next t ∧ t.seq = .idle ∧ t.rsp.isSome = true ∧ t.cs = false) ∧
    (∃ t, exec .refresh s = .next t ∧ t.seq = .idle ∧ t.rsp.isSome = true ∧ t.cs = false) ∧
    (∀ x, s.pins.rst = false → s.seq = .transaction x → ∃ t, step s = .next t ∧ t.seq = .idle ∧ t.cs = false)

/-- Each transaction inverts `VCOM` exactly once, whatever the transport does: a Refresh when it starts, a Clear when it
ends (an inference of 44_wire.md R186 from R171 and R180). -/
def Obligations.PolarityAlternates : Prop :=
  (∀ s t, exec .refresh s = .next t → t.vcom = !s.vcom) ∧
  (∀ s t, exec .clear s = .next t → t.vcom = if t.seq = .idle then !s.vcom else s.vcom) ∧
  (∀ s t x, s.pins.rst = false → s.seq = .transaction x → step s = .next t →
    t.vcom = if x.op ≠ .refresh ∧ t.seq = .idle then !s.vcom else s.vcom) ∧
  (∀ s t, s.pins.rst = false → s.seq = .resetClear → step s = .next t →
    t.vcom = if t.seq = .idle then !s.vcom else s.vcom)

/-! ### Control commands and reserved opcodes -/

/-- R190: NOP's encoding and effect. -/
def Obligations.NopResponds : Prop :=
  (∀ w : CmdWord, w.extractLsb' 68 4 = 0x0#4 → decode w = .nop) ∧
  ∀ s : State, s.cfg.legal = true →
    exec .nop s = .next { s with busy := true, rsp := some { status := .ok, data := 0 } }

/-- R192: SET_ROTATION's encoding and effect. -/
def Obligations.SetRotationLoadsRotation : Prop :=
  (∀ w : CmdWord, w.extractLsb' 68 4 = 0x8#4 → decode w = .setRotation (w.extractLsb' 48 2)) ∧
  ∀ (s : State) (r : BitVec 2), s.cfg.legal = true →
    exec (.setRotation r) s =
      .next { s with busy := true, rot := r, rsp := some { status := .ok, data := 0 } }

/-- R86: the four reserved opcodes raise `IllegalCommand` and change no other state; no other word does. -/
def Obligations.ReservedOpcodesRaiseIllegalCommand : Prop :=
  (∀ i s, i = Instr.reservedC ∨ i = Instr.reservedD ∨ i = Instr.reservedE ∨ i = Instr.reservedF →
    s.cfg.legal = true →
    exec i s = .next { s with busy := true, illS := true, rsp := some { status := .illegalCommand, data := 0 } }) ∧
  (∀ w : CmdWord, 0xC#4 ≤ w.extractLsb' 68 4 → decode w ∈ [.reservedC, .reservedD, .reservedE, .reservedF]) ∧
  (∀ (w : CmdWord) (s t : State), w.extractLsb' 68 4 < 0xC#4 → exec (decode w) s = .next t →
    t.illS = s.illS ∧ ∀ r, s.rsp = none → t.rsp = some r → r.status ≠ .illegalCommand)

/-! ### The output ports (10_state.md) -/

/-- The fields of `STATUS` are copies of the state they name, and bits 15:8 read 0 (10_state.md R28); the response port shows
the pending response, with the status codes of 60_exceptions.md R200 (10_state.md R32); `cmd_ready` is `NOT BUSY` out of
reset and 0 in it (R27, R32); `cs_assert` is `CS` (R26). -/
def Obligations.StatusRegisterFields : Prop :=
  ∀ s : State,
    (s.statusReg.getLsbD 0 = s.busy ∧ s.statusReg.extractLsb' 1 2 = s.rot ∧ s.statusReg.getLsbD 3 = s.vcom ∧
      s.statusReg.getLsbD 4 = s.oobS ∧ s.statusReg.getLsbD 5 = s.illS ∧ s.statusReg.getLsbD 6 = s.txeS ∧
      s.statusReg.getLsbD 7 = s.cs ∧ s.statusReg.extractLsb' 8 8 = 0#8) ∧
    (s.rsp = none → s.rspValid = false) ∧
    (∀ r, s.rsp = some r →
      s.rspValid = true ∧ s.rspData = some r.data ∧
      s.rspStatus = some (match r.status with
        | .ok => 0#2
        | .illegalCommand => 1#2
        | .outOfBuffer => 2#2
        | .transportError => 3#2)) ∧
    (s.pins.rst = false → s.cmdReady = !s.busy) ∧ (s.pins.rst = true → s.cmdReady = false) ∧ s.csAssert = s.cs

/-! ### Faulted states (10_state.md R30; 93_implementation_defined.md 1 and 10) -/

/-- From a state with no sticky bit set, which commands leave one with none set, and so inside every claim of R30:
exactly those that raise no exception (60_exceptions.md R201 to R204). -/
def Obligations.UnfaultedCommandsRaisedNothing : Prop :=
  ∀ i s t, s.faulted = false → exec i s = .next t →
    (t.faulted = false ↔
      match i with
      | .nop => True
      | .setPixel x y _ => ¬ s.oobAt (x, y)
      | .getPixel x y => ¬ s.oobAt (x, y)
      | .drawLine x0 y0 x1 y1 _ => ∀ pt ∈ linePoints x0 y0 x1 y1, ¬ s.oobAt pt
      | .drawFastVline x y h _ => ∀ pt ∈ vPath x y h, ¬ s.oobAt pt
      | .drawFastHline x y v _ => ∀ pt ∈ hPath x y v, ¬ s.oobAt pt
      | .fillRect x y v h _ => ∀ pt ∈ rectPath x y v h, ¬ s.oobAt pt
      | .fillScreen _ => ¬ hasBand s.cfg s.rot
      | .setRotation _ => True
      | .clear => ∀ b c, .byte b (.rejected c) ∉ t.wire.drop s.wire.length
      | .refresh => ∀ b c, .byte b (.rejected c) ∉ t.wire.drop s.wire.length
      | .reverseByte _ => True
      | .reservedC => False
      | .reservedD => False
      | .reservedE => False
      | .reservedF => False)

/-- "No sticky bit set" at the end of a run out of reset is the premise of R30 for the whole of it: no state of the run
has one set, no response of the run reports an exception, and the transport rejected no byte. -/
def Obligations.UnfaultedRunRaisedNothing : Prop :=
  ∀ (k : Nat) (s u : State), s.pins.rst = false → s.rsp = none → Host.Core.run core k s = .next u →
    u.faulted = false →
    (∀ j, j ≤ k → ∃ v : State, Host.Core.run core j s = .next v ∧ v.faulted = false ∧
      ∀ r, v.rsp = some r → r.status = .ok) ∧
    ∀ b c, .byte b (.rejected c) ∉ u.wire.drop s.wire.length

/-- R30's claims of the single commands: of a command that leaves no sticky bit set, for every command. None was set
before; a response reports `OK`; no reserved opcode does so; a drawing command painted its points, all of them inside the
framebuffer; GET_PIXEL read a point that is clipped or stored; CLEAR and REFRESH had every byte accepted that they got a
verdict on. -/
def Obligations.UnfaultedCommandsKeepTheirClaims : Prop :=
  ∀ i s t, exec i s = .next t → s.fb.wf = true → t.faulted = false →
    s.faulted = false ∧ (∀ r, s.rsp = none → t.rsp = some r → r.status = .ok) ∧
      match i with
      | .nop => t = { s with busy := true, rsp := some { status := .ok, data := 0 } }
      | .setPixel x y col => PaintsInBuffer [(x, y)] col s t
      | .getPixel x y =>
        ∃ b : Bool, t = { s with busy := true, rsp := some { status := .ok, data := if b then 1 else 0 } } ∧
          ((locate s.cfg s.rot x y = .clip ∧ b = false) ∨ ∃ a p, s.storedAt (x, y) a p ∧ b = s.fbBit a p)
      | .drawLine x0 y0 x1 y1 col => PaintsInBuffer (linePoints x0 y0 x1 y1) col s t
      | .drawFastVline x y h col => PaintsInBuffer (vPath x y h) col s t
      | .drawFastHline x y v col => PaintsInBuffer (hPath x y v) col s t
      | .fillRect x y v h col => PaintsInBuffer (rectPath x y v h) col s t
      | .fillScreen col => PaintsInBuffer (rectPath 0 0 (extent s.cfg s.rot).1 (extent s.cfg s.rot).2) col s t
      | .setRotation r => t = { s with busy := true, rot := r, rsp := some { status := .ok, data := 0 } }
      | .clear =>
        t = { s with
          fb := t.fb, busy := true, vcom := if t.seq = .idle then !s.vcom else s.vcom, cs := t.cs, seq := t.seq,
          txScript := t.txScript, rsp := t.rsp, wire := t.wire } ∧
        (∀ a, a < s.cfg.nb → t.fb.read a = 0xFF#8) ∧ SendsAccepted .clear (clearFormat s.vcom) s t
      | .refresh =>
        t = { s with
          busy := true, vcom := !s.vcom, cs := t.cs, seq := t.seq, txScript := t.txScript, rsp := t.rsp,
          wire := t.wire } ∧
        SendsAccepted .refresh (refreshFormat s.vcom s.cfg s.fb) s t
      | .reverseByte v => t = { s with busy := true, rsp := some { status := .ok, data := (rev8 v).setWidth 32 } }
      | .reservedC => False
      | .reservedD => False
      | .reservedE => False
      | .reservedF => False

/-- R30's claims of a write and the reads after it (40_pixel.md R106; 42_fill.md R145): a read that leaves no sticky bit set
returns the colour SET_PIXEL wrote at the same in-range point; and after a FILL_SCREEN that leaves none set every pixel
has the colour, and every in-range read returns it and leaves none set. -/
def Obligations.UnfaultedReadsReturnWhatWasWritten : Prop :=
  (∀ (s t u v : State) (x y : Int) (col : Bool), s.fb.wf = true → inRange s.cfg s.rot x y = true →
    exec (.setPixel x y col) s = .next t → u.cfg = t.cfg → u.fb = t.fb → u.rot = t.rot →
    exec (.getPixel x y) u = .next v → v.faulted = false →
    v.rsp = some { status := .ok, data := if col then 1 else 0 }) ∧
  ∀ (s t : State) (col : Bool), s.fb.wf = true → exec (.fillScreen col) s = .next t → t.faulted = false →
    (∀ x' y' : Nat, x' < s.cfg.w → y' < s.cfg.h → t.pixel x' y' = col) ∧
    ∀ x y : Int, inRange s.cfg s.rot x y = true →
      ∃ v, exec (.getPixel x y) t = .next v ∧ v.faulted = false ∧
        v.rsp = some { status := .ok, data := if col then 1 else 0 }
end

