-- ==== Sys2Proof/Laws/Geometry.lean ====
section
/-!
SUPPORT. The laws of the geometry: what the legality check says, the sizes, the layout, what `Locate` answers, and the
pixel bit of a byte.
-/

namespace Sys2Proof.Machine

/-- The legal values, as propositions (00_scope.md R6). -/
theorem legal_iff (c : Config) :
    c.legal = true ↔ c.w % 8 = 0 ∧ 8 ≤ c.w ∧ c.w ≤ 32760 ∧ 1 ≤ c.h ∧ c.h ≤ 255 := by
  simp [Config.legal, and_assoc]

/-- A row is a whole number of bytes (20_memory.md R51). -/
theorem bpl_mul_eight {c : Config} (hl : c.legal = true) : c.bpl * 8 = c.w := by
  have := (legal_iff c).mp hl
  unfold Config.bpl; omega

/-- The framebuffer is `H` rows of `BPL` bytes. -/
theorem nb_eq {c : Config} (hl : c.legal = true) : c.nb = c.h * c.bpl := by
  unfold Config.nb
  rw [← bpl_mul_eight hl, show c.bpl * 8 * c.h = (c.h * c.bpl) * 8 by ring]
  omega

/-- The byte index of a physical pixel (20_memory.md R51). -/
theorem byteIndex_eq {c : Config} (hl : c.legal = true) (x' y' : Nat) : byteIndex c x' y' = y' * c.bpl + x' / 8 := by
  unfold byteIndex
  rw [← bpl_mul_eight hl]
  push_cast
  rw [show (y' : Int) * ((c.bpl : Int) * 8) + x' = x' + ((y' : Int) * c.bpl) * 8 by ring,
    Int.add_mul_ediv_right _ _ (by norm_num)]
  have h1 : ((x' : Int) / 8) = ((x' / 8 : Nat) : Int) := by simp
  have h2 : ((y' : Int) * c.bpl) = ((y' * c.bpl : Nat) : Int) := by simp
  rw [h1, h2]; omega

theorem bitIndex_eq (x' : Nat) : bitIndex x' = x' % 8 := by unfold bitIndex; omega

/-- A physical pixel is stored inside the framebuffer (20_memory.md R50). -/
theorem byteIndex_lt {c : Config} (hl : c.legal = true) {x' y' : Nat} (hx : x' < c.w) (hy : y' < c.h) :
    y' * c.bpl + x' / 8 < c.nb := by
  have h8 := bpl_mul_eight hl
  have : (y' + 1) * c.bpl ≤ c.h * c.bpl := Nat.mul_le_mul_right _ hy
  rw [nb_eq hl]
  have : x' / 8 < c.bpl := by omega
  rw [Nat.add_mul] at *; omega

theorem inBox_iff (x y lw lh : Int) : inBox x y lw lh = true ↔ 0 ≤ x ∧ x < lw ∧ 0 ≤ y ∧ y < lh := by
  simp [inBox, and_assoc]

/-- A rotation is one of four (10_state.md R23). -/
theorem rotation_cases (r : BitVec 2) : r = 0 ∨ r = 1 ∨ r = 2 ∨ r = 3 := by
  revert r; decide

/-- Everything `Locate` can answer (20_memory.md R61). -/
theorem locate_cases (c : Config) (r : BitVec 2) (x y : Int) :
    (inRange c r x y = false ∧ locate c r x y = .clip) ∨
    (inRange c r x y = true ∧ inBox (xform c x y r).1 (xform c x y r).2 c.w c.h = false ∧
      locate c r x y = .oob (xform c x y r).1 (xform c x y r).2) ∨
    (inRange c r x y = true ∧ ∃ x' y' : Nat, x' < c.w ∧ y' < c.h ∧ xform c x y r = ((x' : Int), (y' : Int)) ∧
      locate c r x y = .cell (byteIndex c x' y') (bitIndex x')) := by
  unfold locate
  cases hr : inRange c r x y with
  | false => simp
  | true =>
    cases hb : inBox (xform c x y r).1 (xform c x y r).2 c.w c.h with
    | false => simp
    | true =>
      obtain ⟨h1, h2, h3, h4⟩ := (inBox_iff _ _ _ _).mp hb
      refine Or.inr (Or.inr ⟨rfl, (xform c x y r).1.toNat, (xform c x y r).2.toNat, by omega, by omega, ?_, ?_⟩)
      · ext <;> simp <;> omega
      · simp [Int.toNat_of_nonneg h1, Int.toNat_of_nonneg h3]

/-- An address `Locate` gives lies in the framebuffer (20_memory.md R61). -/
theorem locate_cell_lt {c : Config} (hl : c.legal = true) {r : BitVec 2} {x y : Int} {i p : Nat}
    (h : locate c r x y = .cell i p) : i < c.nb ∧ p < 8 := by
  rcases locate_cases c r x y with ⟨-, h'⟩ | ⟨-, -, h'⟩ | ⟨-, x', y', hx, hy, -, h'⟩
  · simp [h'] at h
  · simp [h'] at h
  · rw [h', byteIndex_eq hl, bitIndex_eq] at h
    cases h
    exact ⟨byteIndex_lt hl hx hy, by omega⟩

/-- The layout is one-to-one: one byte and bit, one physical pixel (20_memory.md R51). -/
theorem layout_injective {c : Config} (hl : c.legal = true) {x' y' x'' y'' : Nat} (hx : x' < c.w) (hx' : x'' < c.w)
    (hi : y'' * c.bpl + x'' / 8 = y' * c.bpl + x' / 8) : y'' = y' ∧ x'' / 8 = x' / 8 := by
  have h8 := bpl_mul_eight hl
  have hb : 0 < c.bpl := by have := (legal_iff c).mp hl; omega
  have h1 : x' / 8 < c.bpl := by omega
  have h2 : x'' / 8 < c.bpl := by omega
  have := congrArg (· / c.bpl) hi
  simp only [Nat.mul_comm _ c.bpl, Nat.mul_add_div hb, Nat.div_eq_of_lt h1, Nat.div_eq_of_lt h2, Nat.add_zero] at this
  subst this
  exact ⟨rfl, by omega⟩

/-! ### The pixel bit of a byte -/

/-- Only bit `p` changes, and it becomes the colour (20_memory.md R65). -/
theorem getLsbD_setPixelBit (b : Byte) {p : Nat} (hp : p < 8) (col : Bool) (q : Nat) :
    (setPixelBit b p col).getLsbD q = if q = p then col else b.getLsbD q := by
  unfold setPixelBit pixelMask
  by_cases hq : q < 8
  · interval_cases p <;> interval_cases q <;> cases col <;> simp
  · have h : (setPixelBit b p col).getLsbD q = false := BitVec.getLsbD_of_ge _ _ (by omega)
    unfold setPixelBit pixelMask at h
    rw [h, BitVec.getLsbD_of_ge _ _ (by omega), if_neg (by omega)]

theorem pixelBit_eq (b : Byte) (p : Nat) : pixelBit b p = b.getLsbD p := by simp [pixelBit]

end Sys2Proof.Machine
end

