-- ==== Sys2Proof/Laws/Memory.lean ====
section
/-!
SUPPORT. The laws of the framebuffer's memory: read after write, the fill, and that every operation keeps the canonical
form and the bound on the listed indices.
-/

namespace Sys2Proof.Machine

@[simp] theorem Memory.read_nil (a : Nat) : Memory.read [] a = blankByte := rfl

theorem Memory.read_cons (c : Host.Cell) (m : Memory) (a : Nat) :
    Memory.read (c :: m) a = if a = c.1 then c.2 else Memory.read m a := by
  cases c; rfl

theorem Memory.wfFrom_mono {m : Memory} {lo lo' : Nat} (h : Memory.wfFrom lo m = true) (hle : lo' ≤ lo) :
    Memory.wfFrom lo' m = true := by
  cases m with
  | nil => rfl
  | cons c m =>
    simp only [Memory.wfFrom, Bool.and_eq_true, decide_eq_true_eq] at h ⊢
    exact ⟨⟨hle.trans h.1.1, h.1.2⟩, h.2⟩

/-- Below its first index a canonical memory lists nothing. -/
theorem Memory.read_of_lt {m : Memory} {lo a : Nat} (h : Memory.wfFrom lo m = true) (ha : a < lo) :
    m.read a = blankByte := by
  induction m generalizing lo with
  | nil => rfl
  | cons c m ih =>
    simp only [Memory.wfFrom, Bool.and_eq_true, decide_eq_true_eq] at h
    rw [Memory.read_cons, if_neg (by omega)]
    exact ih h.2 (by omega)

theorem Memory.read_cellOf_append (a b : Nat) (v : Byte) (m : Memory) :
    (cellOf a v ++ m).read b = if b = a ∧ v ≠ blankByte then v else m.read b := by
  unfold cellOf
  split
  · next h => simp [h]
  · next h => simp [Memory.read_cons, h]

/-- Read after write, for a canonical memory. -/
theorem Memory.read_write {m : Memory} {lo : Nat} (h : Memory.wfFrom lo m = true) (a b : Nat) (v : Byte) :
    (m.write a v).read b = if b = a then v else m.read b := by
  induction m generalizing lo with
  | nil =>
    have := Memory.read_cellOf_append a b v []
    simp only [List.append_nil, Memory.read_nil] at this
    rw [Memory.write, this, Memory.read_nil]
    by_cases hb : b = a <;> by_cases hv : v = blankByte <;> simp [hb, hv]
  | cons c m ih =>
    obtain ⟨k, w⟩ := c
    simp only [Memory.wfFrom, Bool.and_eq_true, decide_eq_true_eq] at h
    have hrest := Memory.read_of_lt (a := k) h.2 (by omega)
    unfold Memory.write
    split
    · next hlt =>
      have hm : Memory.read ((k, w) :: m) a = blankByte := by
        rw [Memory.read_cons, if_neg (by simp; omega)]
        exact Memory.read_of_lt h.2 (by omega)
      rw [Memory.read_cellOf_append]
      by_cases hb : b = a <;> by_cases hv : v = blankByte <;> simp_all
    · split
      · next heq =>
        subst heq
        rw [Memory.read_cellOf_append, Memory.read_cons]
        by_cases hb : b = a <;> by_cases hv : v = blankByte <;> simp_all
      · next hne =>
        rw [Memory.read_cons, Memory.read_cons, ih h.2]
        by_cases hb : b = a
        · subst hb; simp [hne]
        · simp [hb]

/-- A write lists no index the memory or the write does not. -/
theorem Memory.wfFrom_write {m : Memory} {lo a : Nat} (v : Byte) (h : Memory.wfFrom lo m = true) (ha : lo ≤ a) :
    Memory.wfFrom lo (m.write a v) = true := by
  induction m generalizing lo with
  | nil => unfold Memory.write cellOf; split <;> simp_all [Memory.wfFrom]
  | cons c m ih =>
    obtain ⟨k, w⟩ := c
    simp only [Memory.wfFrom, Bool.and_eq_true, decide_eq_true_eq] at h
    unfold Memory.write
    split
    · next hlt => unfold cellOf; split <;> simp_all [Memory.wfFrom]
    · split
      · next heq =>
        subst heq
        unfold cellOf
        split
        · exact Memory.wfFrom_mono h.2 (by omega)
        · next hv => simp_all [Memory.wfFrom]
      · next hnlt hne =>
        simp only [Memory.wfFrom, Bool.and_eq_true, decide_eq_true_eq]
        exact ⟨h.1, ih h.2 (by omega)⟩

/-- A write keeps the canonical form. -/
theorem Memory.wf_write {m : Memory} (a : Nat) (v : Byte) (h : m.wf = true) : (m.write a v).wf = true :=
  Memory.wfFrom_write v h (Nat.zero_le a)

theorem Memory.within_iff {m : Memory} {n : Nat} : m.within n = true ↔ ∀ c ∈ m, c.1 < n := by
  simp [Memory.within]

/-- What a write lists is what it writes or what was listed. -/
theorem Memory.mem_write {m : Memory} {a : Nat} {v : Byte} {c : Host.Cell} (h : c ∈ m.write a v) :
    c = (a, v) ∨ c ∈ m := by
  have hcell : ∀ c', c' ∈ cellOf a v → c' = (a, v) := fun c' h' => by
    unfold cellOf at h'; split at h' <;> simp_all
  induction m with
  | nil => exact Or.inl (hcell c h)
  | cons d m ih =>
    obtain ⟨k, w⟩ := d
    unfold Memory.write at h
    split at h
    · exact (List.mem_append.mp h).imp (hcell c) id
    · split at h
      · exact (List.mem_append.mp h).imp (hcell c) (List.mem_cons_of_mem _)
      · rcases List.mem_cons.mp h with h | h
        · exact Or.inr (h ▸ List.mem_cons_self)
        · exact (ih h).imp id (List.mem_cons_of_mem _)

/-- A write inside the framebuffer keeps every listed index inside it (20_memory.md R50). -/
theorem Memory.within_write {m : Memory} {n a : Nat} (v : Byte) (h : m.within n = true) (ha : a < n) :
    (m.write a v).within n = true := by
  rw [Memory.within_iff] at h ⊢
  intro c hc
  rcases Memory.mem_write hc with rfl | hc
  · exact ha
  · exact h c hc

/-- The fill blanks the bytes below `n` and no other (44_wire.md R170). -/
theorem Memory.read_blank (m : Memory) (n a : Nat) : (m.blank n).read a = if a < n then blankByte else m.read a := by
  induction m with
  | nil => simp [Memory.blank]
  | cons c m ih =>
    obtain ⟨k, w⟩ := c
    simp only [Memory.blank] at ih ⊢
    rw [List.filter_cons]
    split
    · next hk =>
      simp only [decide_eq_true_eq] at hk
      rw [Memory.read_cons, Memory.read_cons, ih]
      by_cases ha : a = k
      · subst ha; simp [Nat.not_lt.mpr hk]
      · simp [ha]
    · next hk =>
      simp only [decide_eq_true_eq, Nat.not_le] at hk
      rw [ih, Memory.read_cons]
      by_cases ha : a < n
      · simp [ha]
      · simp [ha, show a ≠ k by omega]

theorem Memory.wfFrom_blank {m : Memory} {lo : Nat} (n : Nat) (h : Memory.wfFrom lo m = true) :
    Memory.wfFrom lo (m.blank n) = true := by
  induction m generalizing lo with
  | nil => rfl
  | cons c m ih =>
    obtain ⟨k, w⟩ := c
    simp only [Memory.wfFrom, Bool.and_eq_true, decide_eq_true_eq] at h
    have := ih h.2
    simp only [Memory.blank, List.filter_cons] at this ⊢
    split
    · simp only [Memory.wfFrom, Bool.and_eq_true, decide_eq_true_eq]; exact ⟨h.1, this⟩
    · exact Memory.wfFrom_mono this (by omega)

/-- The fill keeps the canonical form. -/
theorem Memory.wf_blank {m : Memory} (n : Nat) (h : m.wf = true) : (m.blank n).wf = true :=
  Memory.wfFrom_blank n h

theorem Memory.within_blank {m : Memory} {k : Nat} (n : Nat) (h : m.within k = true) : (m.blank n).within k = true := by
  simp only [Memory.within, Memory.blank, List.all_eq_true, List.mem_filter] at h ⊢
  exact fun c hc => h c hc.1

end Sys2Proof.Machine
end

