-- ==== Sys2Proof/Laws/State.lean ====
section
/-!
SUPPORT. What each named update of the state does to each field: one lemma per field per update.
-/

namespace Sys2Proof.Machine

/-! ### `respond` -/

section
variable (st : Status) (data : BitVec 32) (s : State)

@[simp] theorem respond_cfg : (respond st data s).cfg = s.cfg := rfl
@[simp] theorem respond_fb : (respond st data s).fb = s.fb := rfl
@[simp] theorem respond_rot : (respond st data s).rot = s.rot := rfl
@[simp] theorem respond_vcom : (respond st data s).vcom = s.vcom := rfl
@[simp] theorem respond_cs : (respond st data s).cs = s.cs := rfl
@[simp] theorem respond_busy : (respond st data s).busy = s.busy := rfl
@[simp] theorem respond_oobS : (respond st data s).oobS = s.oobS := rfl
@[simp] theorem respond_illS : (respond st data s).illS = s.illS := rfl
@[simp] theorem respond_txeS : (respond st data s).txeS = s.txeS := rfl
@[simp] theorem respond_seq : (respond st data s).seq = s.seq := rfl
@[simp] theorem respond_rsp : (respond st data s).rsp = some { status := st, data := data } := rfl
@[simp] theorem respond_pins : (respond st data s).pins = s.pins := rfl
@[simp] theorem respond_hostCmds : (respond st data s).hostCmds = s.hostCmds := rfl
@[simp] theorem respond_txScript : (respond st data s).txScript = s.txScript := rfl
@[simp] theorem respond_wire : (respond st data s).wire = s.wire := rfl

end

/-! ### `select` -/

section
variable (v : Bool) (s : State)

@[simp] theorem select_cfg : (select v s).cfg = s.cfg := rfl
@[simp] theorem select_fb : (select v s).fb = s.fb := rfl
@[simp] theorem select_rot : (select v s).rot = s.rot := rfl
@[simp] theorem select_vcom : (select v s).vcom = s.vcom := rfl
@[simp] theorem select_cs : (select v s).cs = v := rfl
@[simp] theorem select_busy : (select v s).busy = s.busy := rfl
@[simp] theorem select_oobS : (select v s).oobS = s.oobS := rfl
@[simp] theorem select_illS : (select v s).illS = s.illS := rfl
@[simp] theorem select_txeS : (select v s).txeS = s.txeS := rfl
@[simp] theorem select_seq : (select v s).seq = s.seq := rfl
@[simp] theorem select_rsp : (select v s).rsp = s.rsp := rfl
@[simp] theorem select_pins : (select v s).pins = s.pins := rfl
@[simp] theorem select_hostCmds : (select v s).hostCmds = s.hostCmds := rfl
@[simp] theorem select_txScript : (select v s).txScript = s.txScript := rfl
@[simp] theorem select_wire : (select v s).wire = s.wire ++ [.sel v] := rfl

end

/-! ### `flipVcom` -/

section
variable (s : State)

@[simp] theorem flipVcom_cfg : (flipVcom s).cfg = s.cfg := rfl
@[simp] theorem flipVcom_fb : (flipVcom s).fb = s.fb := rfl
@[simp] theorem flipVcom_rot : (flipVcom s).rot = s.rot := rfl
@[simp] theorem flipVcom_vcom : (flipVcom s).vcom = !s.vcom := rfl
@[simp] theorem flipVcom_cs : (flipVcom s).cs = s.cs := rfl
@[simp] theorem flipVcom_busy : (flipVcom s).busy = s.busy := rfl
@[simp] theorem flipVcom_oobS : (flipVcom s).oobS = s.oobS := rfl
@[simp] theorem flipVcom_illS : (flipVcom s).illS = s.illS := rfl
@[simp] theorem flipVcom_txeS : (flipVcom s).txeS = s.txeS := rfl
@[simp] theorem flipVcom_seq : (flipVcom s).seq = s.seq := rfl
@[simp] theorem flipVcom_rsp : (flipVcom s).rsp = s.rsp := rfl
@[simp] theorem flipVcom_pins : (flipVcom s).pins = s.pins := rfl
@[simp] theorem flipVcom_hostCmds : (flipVcom s).hostCmds = s.hostCmds := rfl
@[simp] theorem flipVcom_txScript : (flipVcom s).txScript = s.txScript := rfl
@[simp] theorem flipVcom_wire : (flipVcom s).wire = s.wire := rfl

end

/-! ### `takeResponse` -/

section
variable (s : State)

@[simp] theorem takeResponse_cfg : (takeResponse s).cfg = s.cfg := rfl
@[simp] theorem takeResponse_fb : (takeResponse s).fb = s.fb := rfl
@[simp] theorem takeResponse_rot : (takeResponse s).rot = s.rot := rfl
@[simp] theorem takeResponse_vcom : (takeResponse s).vcom = s.vcom := rfl
@[simp] theorem takeResponse_cs : (takeResponse s).cs = s.cs := rfl
@[simp] theorem takeResponse_busy : (takeResponse s).busy = false := rfl
@[simp] theorem takeResponse_oobS : (takeResponse s).oobS = s.oobS := rfl
@[simp] theorem takeResponse_illS : (takeResponse s).illS = s.illS := rfl
@[simp] theorem takeResponse_txeS : (takeResponse s).txeS = s.txeS := rfl
@[simp] theorem takeResponse_seq : (takeResponse s).seq = s.seq := rfl
@[simp] theorem takeResponse_rsp : (takeResponse s).rsp = none := rfl
@[simp] theorem takeResponse_pins : (takeResponse s).pins = s.pins := rfl
@[simp] theorem takeResponse_hostCmds : (takeResponse s).hostCmds = s.hostCmds := rfl
@[simp] theorem takeResponse_txScript : (takeResponse s).txScript = s.txScript := rfl
@[simp] theorem takeResponse_wire : (takeResponse s).wire = s.wire := rfl

end

/-! ### `popCommand` -/

section
variable (s : State)

@[simp] theorem popCommand_cfg : (s.popCommand).cfg = s.cfg := rfl
@[simp] theorem popCommand_fb : (s.popCommand).fb = s.fb := rfl
@[simp] theorem popCommand_rot : (s.popCommand).rot = s.rot := rfl
@[simp] theorem popCommand_vcom : (s.popCommand).vcom = s.vcom := rfl
@[simp] theorem popCommand_cs : (s.popCommand).cs = s.cs := rfl
@[simp] theorem popCommand_busy : (s.popCommand).busy = s.busy := rfl
@[simp] theorem popCommand_oobS : (s.popCommand).oobS = s.oobS := rfl
@[simp] theorem popCommand_illS : (s.popCommand).illS = s.illS := rfl
@[simp] theorem popCommand_txeS : (s.popCommand).txeS = s.txeS := rfl
@[simp] theorem popCommand_seq : (s.popCommand).seq = s.seq := rfl
@[simp] theorem popCommand_rsp : (s.popCommand).rsp = s.rsp := rfl
@[simp] theorem popCommand_pins : (s.popCommand).pins = s.pins := rfl
@[simp] theorem popCommand_hostCmds : (s.popCommand).hostCmds = s.hostCmds.tail := rfl
@[simp] theorem popCommand_txScript : (s.popCommand).txScript = s.txScript := rfl
@[simp] theorem popCommand_wire : (s.popCommand).wire = s.wire := rfl

end

/-! ### `offerFirst` -/

section
variable (s : State) (w : CmdWord)

@[simp] theorem offerFirst_cfg : (s.offerFirst w).cfg = s.cfg := rfl
@[simp] theorem offerFirst_fb : (s.offerFirst w).fb = s.fb := rfl
@[simp] theorem offerFirst_rot : (s.offerFirst w).rot = s.rot := rfl
@[simp] theorem offerFirst_vcom : (s.offerFirst w).vcom = s.vcom := rfl
@[simp] theorem offerFirst_cs : (s.offerFirst w).cs = false := rfl
@[simp] theorem offerFirst_busy : (s.offerFirst w).busy = false := rfl
@[simp] theorem offerFirst_oobS : (s.offerFirst w).oobS = s.oobS := rfl
@[simp] theorem offerFirst_illS : (s.offerFirst w).illS = s.illS := rfl
@[simp] theorem offerFirst_txeS : (s.offerFirst w).txeS = s.txeS := rfl
@[simp] theorem offerFirst_seq : (s.offerFirst w).seq = .idle := rfl
@[simp] theorem offerFirst_rsp : (s.offerFirst w).rsp = none := rfl
@[simp] theorem offerFirst_pins : (s.offerFirst w).pins = { s.pins with rst := false } := rfl
@[simp] theorem offerFirst_hostCmds : (s.offerFirst w).hostCmds = w :: s.hostCmds := rfl
@[simp] theorem offerFirst_txScript : (s.offerFirst w).txScript = s.txScript := rfl
@[simp] theorem offerFirst_wire : (s.offerFirst w).wire = s.wire := rfl

end

/-! ### `resetEdge` -/

section
variable (s : State)

@[simp] theorem resetEdge_cfg : (resetEdge s).cfg = s.cfg := rfl
@[simp] theorem resetEdge_fb : (resetEdge s).fb = s.fb := rfl
@[simp] theorem resetEdge_rot : (resetEdge s).rot = s.pins.cfgRotInit := rfl
@[simp] theorem resetEdge_vcom : (resetEdge s).vcom = false := rfl
@[simp] theorem resetEdge_cs : (resetEdge s).cs = false := rfl
@[simp] theorem resetEdge_busy : (resetEdge s).busy = true := rfl
@[simp] theorem resetEdge_oobS : (resetEdge s).oobS = false := rfl
@[simp] theorem resetEdge_illS : (resetEdge s).illS = false := rfl
@[simp] theorem resetEdge_txeS : (resetEdge s).txeS = false := rfl
@[simp] theorem resetEdge_seq : (resetEdge s).seq = .resetClear := rfl
@[simp] theorem resetEdge_rsp : (resetEdge s).rsp = none := rfl
@[simp] theorem resetEdge_pins : (resetEdge s).pins = s.pins := rfl
@[simp] theorem resetEdge_hostCmds : (resetEdge s).hostCmds = s.hostCmds := rfl
@[simp] theorem resetEdge_txScript : (resetEdge s).txScript = s.txScript := rfl
@[simp] theorem resetEdge_wire : (resetEdge s).wire = if s.cs then s.wire ++ [.sel false] else s.wire := rfl

end

/-! ### `setSticky`, by cases on the exception -/

section
variable (e : Exception) (s : State)

@[simp] theorem setSticky_cfg : (setSticky e s).cfg = s.cfg := by cases e <;> rfl
@[simp] theorem setSticky_fb : (setSticky e s).fb = s.fb := by cases e <;> rfl
@[simp] theorem setSticky_rot : (setSticky e s).rot = s.rot := by cases e <;> rfl
@[simp] theorem setSticky_vcom : (setSticky e s).vcom = s.vcom := by cases e <;> rfl
@[simp] theorem setSticky_cs : (setSticky e s).cs = s.cs := by cases e <;> rfl
@[simp] theorem setSticky_busy : (setSticky e s).busy = s.busy := by cases e <;> rfl
@[simp] theorem setSticky_oobS : (setSticky e s).oobS = (s.oobS || decide (e = .outOfBuffer)) := by
  cases e <;> simp [setSticky]
@[simp] theorem setSticky_illS : (setSticky e s).illS = (s.illS || decide (e = .illegalCommand)) := by
  cases e <;> simp [setSticky]
@[simp] theorem setSticky_txeS : (setSticky e s).txeS = (s.txeS || decide (e = .transportError)) := by
  cases e <;> simp [setSticky]
@[simp] theorem setSticky_seq : (setSticky e s).seq = s.seq := by cases e <;> rfl
@[simp] theorem setSticky_rsp : (setSticky e s).rsp = s.rsp := by cases e <;> rfl
@[simp] theorem setSticky_pins : (setSticky e s).pins = s.pins := by cases e <;> rfl
@[simp] theorem setSticky_hostCmds : (setSticky e s).hostCmds = s.hostCmds := by cases e <;> rfl
@[simp] theorem setSticky_txScript : (setSticky e s).txScript = s.txScript := by cases e <;> rfl
@[simp] theorem setSticky_wire : (setSticky e s).wire = s.wire := by cases e <;> rfl

end

/-! ### `raise` and `wireByte` -/

@[simp] theorem raise_s (e : Exception) (r : Run) : (raise e r).s = setSticky e r.s := rfl
@[simp] theorem raise_st (e : Exception) (r : Run) : (raise e r).st = e.status := rfl

/-! ### The command guard -/

/-- The one thing `command` can do, when the parameters are legal and its body answers a state. -/
theorem command_of_ok {s t : State} {body : State → Access State} (hl : s.cfg.legal = true)
    (h : body { s with busy := true } = .ok t) : command s body = .next t := by
  simp [command, hl, h]

/-- What `command` did, if it answers a next state. -/
theorem command_eq_next {s t : State} {body : State → Access State} (h : command s body = .next t) :
    s.cfg.legal = true ∧ body { s with busy := true } = .ok t := by
  unfold command at h
  split at h
  · next hl =>
    split at h
    · next t' ht => cases h; exact ⟨hl, ht⟩
    · cases h
  · cases h

/-- With illegal parameters every command is refused (00_scope.md R7). -/
theorem command_of_illegal {s : State} {body : State → Access State} (hl : s.cfg.legal = false) :
    command s body = .refused .illegalConfiguration := by simp [command, hl]

end Sys2Proof.Machine
end

