-- ==== Sys2Proof/Laws/Draw.lean ====
section
/-!
SUPPORT. What the pixel operations can do: MemRead and MemWrite inside the framebuffer, PutPixel, a list of points, a
drawing command, GetPixel.
-/

namespace Sys2Proof.Machine

/-- The memory a pixel write leaves. -/
theorem writePixel_of_lt {s : State} {i : Nat} (p : Nat) (col : Bool) (hi : i < s.cfg.nb) :
    writePixel s i p col = .ok { s with fb := s.fb.write i (setPixelBit (s.fb.read i) p col) } := by
  simp [writePixel, memRead, memWrite, hi]

/-- A run of bytes inside the framebuffer is read whole. -/
theorem readRun_of_le {s : State} {i n : Nat} (h : i + n ≤ s.cfg.nb) :
    readRun s i n = .ok ((List.range n).map fun k => s.fb.read (i + k)) := by
  induction n generalizing i with
  | zero => rfl
  | succ n ih =>
    have hi : i < s.cfg.nb := by omega
    simp only [readRun, memRead, hi, if_true, ih (i := i + 1) (by omega), Except.map, List.range_succ_eq_map,
      List.map_cons, List.map_map, Nat.add_zero]
    congr 2
    apply List.map_congr_left
    intro k _
    simp [Nat.add_comm, Nat.add_left_comm]

/-- What PutPixel does (40_pixel.md R100). -/
theorem putPixel_cases {r : Run} (hl : r.s.cfg.legal = true) (col : Bool) (pt : Point) :
    (locate r.s.cfg r.s.rot pt.1 pt.2 = .clip ∧ putPixel col r pt = .ok r) ∨
    (r.s.oobAt pt ∧ putPixel col r pt = .ok { s := { r.s with oobS := true }, st := .outOfBuffer }) ∨
    (∃ i p, i < r.s.cfg.nb ∧ p < 8 ∧ r.s.storedAt pt i p ∧
      putPixel col r pt =
        .ok { r with s := { r.s with fb := r.s.fb.write i (setPixelBit (r.s.fb.read i) p col) } }) := by
  unfold putPixel State.oobAt State.storedAt
  cases h : locate r.s.cfg r.s.rot pt.1 pt.2 with
  | clip => simp
  | oob x' y' => simp [Located.isOob, raise, setSticky, Exception.status]
  | cell i p =>
    obtain ⟨hi, hp⟩ := locate_cell_lt hl h
    simp [writePixel_of_lt p col hi, Except.map, hi, hp]

/-- The memory `m'` is `m` with the points of `pts` written in colour `col`, seen through single bits and bytes. -/
def Painted (cfg : Config) (rot : BitVec 2) (pts : List Point) (col : Bool) (m m' : Memory) : Prop :=
  (∀ a p, (∃ pt ∈ pts, locate cfg rot pt.1 pt.2 = .cell a p) → (m'.read a).getLsbD p = col) ∧
  (∀ a p, (∀ pt ∈ pts, locate cfg rot pt.1 pt.2 ≠ .cell a p) → (m'.read a).getLsbD p = (m.read a).getLsbD p) ∧
  (∀ a, (∀ pt ∈ pts, ∀ p, locate cfg rot pt.1 pt.2 ≠ .cell a p) → m'.read a = m.read a)

/-- Some point of the list is out of buffer. -/
def someOob (cfg : Config) (rot : BitVec 2) (pts : List Point) : Bool :=
  pts.any fun pt => (locate cfg rot pt.1 pt.2).isOob

@[simp] theorem isOob_clip : Located.clip.isOob = false := rfl
@[simp] theorem isOob_oob (x' y' : Int) : (Located.oob x' y').isOob = true := rfl
@[simp] theorem isOob_cell (i p : Nat) : (Located.cell i p).isOob = false := rfl

theorem someOob_cons (cfg : Config) (rot : BitVec 2) (pt : Point) (pts : List Point) :
    someOob cfg rot (pt :: pts) = ((locate cfg rot pt.1 pt.2).isOob || someOob cfg rot pts) := by
  simp [someOob]

theorem painted_cons_skip {cfg : Config} {rot : BitVec 2} {pt : Point} {pts : List Point} {col : Bool} {m m' : Memory}
    (hno : ∀ a p, locate cfg rot pt.1 pt.2 ≠ .cell a p) (h : Painted cfg rot pts col m m') :
    Painted cfg rot (pt :: pts) col m m' := by
  refine ⟨fun a p => ?_, fun a p ha => h.2.1 a p fun q hq => ha q (List.mem_cons_of_mem _ hq),
    fun a ha => h.2.2 a fun q hq => ha q (List.mem_cons_of_mem _ hq)⟩
  rintro ⟨q, hq, hc⟩
  rcases List.mem_cons.mp hq with rfl | hq
  · exact absurd hc (hno a p)
  · exact h.1 a p ⟨q, hq, hc⟩

theorem painted_cons_write {cfg : Config} {rot : BitVec 2} {pt : Point} {pts : List Point} {col : Bool} {m m' : Memory}
    {i p : Nat} (hp : p < 8) (hw : m.wf = true) (hc : locate cfg rot pt.1 pt.2 = .cell i p)
    (h : Painted cfg rot pts col (m.write i (setPixelBit (m.read i) p col)) m') :
    Painted cfg rot (pt :: pts) col m m' := by
  have hread := fun a => Memory.read_write hw i a (setPixelBit (m.read i) p col)
  have hbit : ∀ a q, ((m.write i (setPixelBit (m.read i) p col)).read a).getLsbD q =
      if a = i ∧ q = p then col else (m.read a).getLsbD q := by
    intro a q
    rw [hread]
    by_cases ha : a = i
    · subst ha; simp [getLsbD_setPixelBit _ hp]
    · simp [ha]
  refine ⟨fun a q => ?_, fun a q ha => ?_, fun a ha => ?_⟩
  · rintro ⟨pt', hmem, hc'⟩
    by_cases hex : ∃ pt ∈ pts, locate cfg rot pt.1 pt.2 = .cell a q
    · exact h.1 a q hex
    · push Not at hex
      rw [h.2.1 a q hex, hbit]
      rcases List.mem_cons.mp hmem with rfl | hmem
      · rw [hc] at hc'; cases hc'; simp
      · exact absurd hc' (hex pt' hmem)
  · rw [h.2.1 a q fun pt' hm => ha pt' (List.mem_cons_of_mem _ hm), hbit, if_neg]
    rintro ⟨rfl, rfl⟩
    exact ha pt List.mem_cons_self hc
  · rw [h.2.2 a fun pt' hm => ha pt' (List.mem_cons_of_mem _ hm), hread, if_neg]
    rintro rfl
    exact ha pt List.mem_cons_self p hc

/-- Everything writing a list of points can do (40_pixel.md R101): it never faults; `OOB_S` and the status tell whether
a point was out of buffer; the memory keeps its form and its bound, and holds the points. -/
theorem paint_spec {r : Run} (hl : r.s.cfg.legal = true) (col : Bool) (pts : List Point) :
    ∃ m, paint col pts r =
        .ok { s := { r.s with fb := m, oobS := r.s.oobS || someOob r.s.cfg r.s.rot pts },
              st := if someOob r.s.cfg r.s.rot pts then .outOfBuffer else r.st } ∧
      (r.s.fb.within r.s.cfg.nb = true → m.within r.s.cfg.nb = true) ∧
      (r.s.fb.wf = true → m.wf = true ∧ Painted r.s.cfg r.s.rot pts col r.s.fb m) := by
  induction pts generalizing r with
  | nil => exact ⟨r.s.fb, by simp [paint, someOob], id, fun h => ⟨h, by simp [Painted]⟩⟩
  | cons pt pts ih =>
    rcases putPixel_cases hl col pt with ⟨hc, hput⟩ | ⟨ho, hput⟩ | ⟨i, p, hi, hp, hc, hput⟩
    · obtain ⟨m, h1, h2, h3⟩ := ih hl
      refine ⟨m, by simp [paint, hput, h1, someOob_cons, hc], h2, fun hw => ⟨(h3 hw).1, ?_⟩⟩
      exact painted_cons_skip (by simp [hc]) (h3 hw).2
    · obtain ⟨m, h1, h2, h3⟩ := ih (r := { s := { r.s with oobS := true }, st := .outOfBuffer }) hl
      unfold State.oobAt at ho
      refine ⟨m, by simp [paint, hput, h1, someOob_cons, ho], h2, fun hw => ⟨(h3 hw).1, ?_⟩⟩
      refine painted_cons_skip ?_ (h3 hw).2
      intro a p hcell
      simp [hcell] at ho
    · obtain ⟨m, h1, h2, h3⟩ :=
        ih (r := { r with s := { r.s with fb := r.s.fb.write i (setPixelBit (r.s.fb.read i) p col) } }) hl
      unfold State.storedAt at hc
      refine ⟨m, by simp [paint, hput, h1, someOob_cons, hc], fun hin => h2 (Memory.within_write _ hin hi),
        fun hw => ?_⟩
      obtain ⟨hw', hp'⟩ := h3 (Memory.wf_write _ _ hw)
      exact ⟨hw', painted_cons_write hp hw hc hp'⟩

/-- Everything a drawing command can do: the answer, with the memory `m` it leaves. -/
theorem draw_spec {s : State} (hl : s.cfg.legal = true) (col : Bool) (pts : List Point) :
    ∃ m, draw col pts s =
        .ok { s with
          fb := m, oobS := s.oobS || someOob s.cfg s.rot pts,
          rsp := some { status := if someOob s.cfg s.rot pts then .outOfBuffer else .ok, data := 0 } } ∧
      (s.fb.within s.cfg.nb = true → m.within s.cfg.nb = true) ∧
      (s.fb.wf = true → m.wf = true ∧ Painted s.cfg s.rot pts col s.fb m) := by
  obtain ⟨m, h1, h2⟩ := paint_spec (r := { s := s, st := .ok }) hl col pts
  exact ⟨m, by simp [draw, h1, Except.map, respond], h2⟩

/-- A drawing command paints exactly the points of its list, whatever describes their set. -/
theorem command_draw_paintsExactly {s : State} {S : Point → Prop} {pts : List Point} (hl : s.cfg.legal = true)
    (hw : s.fb.wf = true) (col : Bool) (hS : ∀ pt, pt ∈ pts ↔ S pt) :
    ∃ t, command s (draw col pts) = .next t ∧ PaintsExactly S col s t := by
  obtain ⟨m, h1, -, h3⟩ := draw_spec (s := { s with busy := true }) hl col pts
  obtain ⟨-, hp1, hp2, hp3⟩ := h3 hw
  refine ⟨_, command_of_ok hl h1, ?_⟩
  simp only [PaintsExactly, State.storedAt, State.oobAt, State.fbBit, ← hS]
  refine ⟨fun pt a p hm hc => hp1 a p ⟨pt, hm, hc⟩, hp2, fun a ha => hp3 a fun pt hm p => ha pt p hm, ?_, ?_⟩
  · rintro ⟨pt, hm, ho⟩
    have : someOob s.cfg s.rot pts = true := List.any_eq_true.mpr ⟨pt, hm, ho⟩
    simp [this]
  · intro hno
    have : someOob s.cfg s.rot pts = false := by
      rw [someOob, List.any_eq_false]; exact hno
    simp [this]

/-- What GetPixel does (40_pixel.md R105). -/
theorem readPixel_cases {r : Run} (hl : r.s.cfg.legal = true) (x y : Int) :
    (locate r.s.cfg r.s.rot x y = .clip ∧ readPixel r x y = .ok (r, false)) ∨
    (r.s.oobAt (x, y) ∧ readPixel r x y = .ok ({ s := { r.s with oobS := true }, st := .outOfBuffer }, false)) ∨
    (∃ i p, i < r.s.cfg.nb ∧ p < 8 ∧ r.s.storedAt (x, y) i p ∧ readPixel r x y = .ok (r, r.s.fbBit i p)) := by
  unfold readPixel State.oobAt State.storedAt
  cases h : locate r.s.cfg r.s.rot x y with
  | clip => simp
  | oob x' y' => simp [Located.isOob, raise, setSticky, Exception.status]
  | cell i p =>
    obtain ⟨hi, hp⟩ := locate_cell_lt hl h
    simp [memRead, Except.map, hi, hp, State.fbBit, pixelBit_eq]

end Sys2Proof.Machine
end

