-- ==== Sys2Proof/Laws/Transport.lean ====
section
/-!
SUPPORT. What the transport operations can do: a stretch of offered bytes for each way the transport answers, the end of
a transaction, and the bytes of a Clear and of a Refresh.
-/

namespace Sys2Proof.Machine

/-- A stretch with events before its own. -/
def Stretch.precededBy (r : Stretch) (es : List Event) : Stretch := { r with events := es ++ r.events }

@[simp] theorem verdicts_nil : verdicts [] = [] := rfl

theorem verdicts_cons (p : TxPins) (ps : List TxPins) :
    verdicts (p :: ps) = (match p.verdict with | none => verdicts ps | some v => v :: verdicts ps) := by
  unfold verdicts
  rw [List.filterMap_cons]
  cases p.verdict <;> rfl

@[simp] theorem acceptedEvents_nil : acceptedEvents [] = [] := rfl

@[simp] theorem acceptedEvents_cons (b : Byte) (bs : List Byte) :
    acceptedEvents (b :: bs) = .byte b .accepted :: acceptedEvents bs := rfl

/-- Samples that accept `j` bytes and reject none, with more bytes to come or with the last sample an acceptance: the
stretch goes on with the rest of the samples and of the bytes (44_wire.md R161). -/
theorem offerBytes_accepted_append (level : TxPins) (pre rest : List TxPins) (bytes : List Byte) (n j : Nat)
    (hv : verdicts pre = List.replicate j .accepted)
    (hj : j < bytes.length ∨ (j = bytes.length ∧ ∀ p, pre.getLast? = some p → p.verdict = some .accepted)) :
    offerBytes level (pre ++ rest) bytes n =
      (offerBytes level rest (bytes.drop j) (n + j)).precededBy (acceptedEvents (bytes.take j)) := by
  induction pre generalizing bytes n j with
  | nil =>
    have hj0 : j = 0 := by
      have := congrArg List.length hv
      simpa using this.symm
    subst hj0
    simp [Stretch.precededBy]
  | cons p pre ih =>
    rw [verdicts_cons] at hv
    cases hp : p.verdict with
    | none =>
      rw [hp] at hv
      have hlast : ∀ q, pre.getLast? = some q → (p :: pre).getLast? = some q := by
        intro q hq
        cases pre with
        | nil => simp at hq
        | cons a t => simpa using hq
      have hpos : 0 < bytes.length := by
        rcases hj with hj | ⟨hj, hl⟩
        · omega
        · cases hpre : pre.getLast? with
          | none =>
            have : pre = [] := List.getLast?_eq_none_iff.mp hpre
            subst this
            have := hl p rfl
            rw [hp] at this
            cases this
          | some q =>
            have hq := hl q (hlast q hpre)
            have hmem : Verdict.accepted ∈ verdicts pre :=
              List.mem_filterMap.mpr ⟨q, List.mem_of_getLast? hpre, hq⟩
            have := List.length_pos_of_mem hmem
            simp only [hv, List.length_replicate] at this
            omega
      obtain ⟨b, bs, rfl⟩ := List.exists_cons_of_length_pos hpos
      have := ih (b :: bs) n j hv (hj.imp id fun ⟨h, hl⟩ => ⟨h, fun q hq => hl q (hlast q hq)⟩)
      simpa [offerBytes, hp] using this
    | some v =>
      rw [hp] at hv
      cases j with
      | zero => cases hv
      | succ j =>
        rw [List.replicate_succ] at hv
        obtain ⟨rfl, hv'⟩ : v = .accepted ∧ verdicts pre = List.replicate j .accepted := List.cons.inj hv
        cases bytes with
        | nil => rcases hj with hj | ⟨hj, -⟩ <;> simp at hj
        | cons b bs =>
          have hlast : ∀ q, pre.getLast? = some q → (p :: pre).getLast? = some q := by
            intro q hq
            cases pre with
            | nil => simp at hq
            | cons a t => simpa using hq
          have := ih bs (n + 1) j hv'
            (hj.imp (fun h => by simpa using h) fun ⟨h, hl⟩ => ⟨by simpa using h, fun q hq => hl q (hlast q hq)⟩)
          simp only [List.cons_append, offerBytes, hp, this, List.drop_succ_cons, List.take_succ_cons,
            acceptedEvents_cons, Stretch.after, Stretch.precededBy]
          rw [Nat.add_assoc n 1 j, Nat.add_comm 1 j]

/-- With the pins at rest on acceptance every byte is accepted. -/
theorem offerAtLevel_accepted (level : TxPins) (h : level.verdict = some .accepted) (bytes : List Byte) (n : Nat) :
    offerAtLevel level bytes n =
      { script := [], pending := [], accepted := n + bytes.length, events := acceptedEvents bytes, rejected := none } := by
  induction bytes generalizing n with
  | nil => rfl
  | cons b bs ih => simp [offerAtLevel, h, ih, Stretch.after, Nat.add_assoc, Nat.add_comm]

theorem offerBytes_no_samples (level : TxPins) {bytes : List Byte} (h : bytes ≠ []) (n : Nat) :
    offerBytes level [] bytes n = offerAtLevel level bytes n := by
  cases bytes with
  | nil => exact absurd rfl h
  | cons b bs => rfl

@[simp] theorem offerBytes_no_bytes (level : TxPins) (script : List TxPins) (n : Nat) :
    offerBytes level script [] n = { script := script, pending := [], accepted := n, events := [], rejected := none } := by
  cases script <;> rfl

/-- The stretch of a transport that accepts all the bytes. -/
theorem offerBytes_of_accepts {s : State} {bytes : List Byte} {rest : List TxPins} (n : Nat)
    (h : TransportAccepts s bytes.length rest) :
    offerBytes s.pins.tx s.txScript bytes n =
      { script := rest, pending := [], accepted := n + bytes.length, events := acceptedEvents bytes,
        rejected := none } := by
  rcases h with ⟨pre, hs, hv, hl⟩ | ⟨k, hk, hv, hlev, rfl⟩
  · rw [hs, offerBytes_accepted_append _ _ _ _ _ _ hv (Or.inr ⟨rfl, hl⟩)]
    simp [Stretch.precededBy]
  · have := offerBytes_accepted_append s.pins.tx s.txScript [] bytes n k hv (Or.inl hk)
    rw [List.append_nil] at this
    rw [this, offerBytes_no_samples _ (by simpa using hk), offerAtLevel_accepted _ hlev]
    simp only [Stretch.precededBy, List.length_drop]
    congr 1
    · omega
    · rw [← List.take_append_drop k bytes]
      simp [acceptedEvents]

/-- The stretch of a transport that accepts `k` bytes and rejects the next. -/
theorem offerBytes_of_rejects {s : State} {bytes : List Byte} {k : Nat} {c : Byte} {rest : List TxPins} (n : Nat)
    (h : TransportRejects s bytes.length k c rest) :
    offerBytes s.pins.tx s.txScript bytes n =
      { script := rest, pending := bytes.drop k, accepted := n + k, events := rejectedEvents bytes k c,
        rejected := some c } := by
  obtain ⟨hk, h⟩ := h
  obtain ⟨b, bs, hb⟩ := List.exists_cons_of_length_pos (l := bytes.drop k) (by simp; omega)
  rcases h with ⟨pre, p, hs, hv, hp⟩ | ⟨hv, hp, rfl⟩
  · rw [hs, offerBytes_accepted_append _ _ _ _ _ _ hv (Or.inl hk), hb]
    simp [Stretch.precededBy, offerBytes, hp, rejectedEvents, hb]
  · have := offerBytes_accepted_append s.pins.tx s.txScript [] bytes n k hv (Or.inl hk)
    rw [List.append_nil] at this
    rw [this, hb]
    simp [Stretch.precededBy, offerBytes, offerAtLevel, hp, rejectedEvents, hb]

/-- The stretch of a transport that accepts `k` bytes and then gives no verdict. -/
theorem offerBytes_of_waits {s : State} {bytes : List Byte} {k : Nat} (n : Nat) (h : TransportWaits s bytes.length k) :
    offerBytes s.pins.tx s.txScript bytes n =
      { script := [], pending := bytes.drop k, accepted := n + k, events := acceptedEvents (bytes.take k),
        rejected := none } := by
  obtain ⟨hk, hv, hp⟩ := h
  obtain ⟨b, bs, hb⟩ := List.exists_cons_of_length_pos (l := bytes.drop k) (by simp; omega)
  have := offerBytes_accepted_append s.pins.tx s.txScript [] bytes n k hv (Or.inl hk)
  rw [List.append_nil] at this
  rw [this, hb]
  simp [Stretch.precededBy, offerBytes, offerAtLevel, hp]

/-- Whatever the transport does, what a stretch leaves fits together: nothing is left on offer unless the transport
waits or rejects, accepted and pending bytes make up the offered ones, and the events are those bytes. -/
theorem offerAtLevel_fits (level : TxPins) (bytes : List Byte) (n : Nat) :
    (offerAtLevel level bytes n).accepted + (offerAtLevel level bytes n).pending.length = n + bytes.length ∧
    (level.verdict ≠ none → (offerAtLevel level bytes n).rejected = none → (offerAtLevel level bytes n).pending = []) ∧
    (offerAtLevel level bytes n).events.foldl wireNext (some .selected) =
      some (if (offerAtLevel level bytes n).rejected.isSome then .stopped else .selected) := by
  induction bytes generalizing n with
  | nil => exact ⟨rfl, fun _ _ => rfl, rfl⟩
  | cons b bs ih =>
    unfold offerAtLevel
    cases h : level.verdict with
    | none => exact ⟨rfl, fun hn => absurd rfl hn, rfl⟩
    | some v =>
      cases v with
      | accepted =>
        obtain ⟨h1, h2, h3⟩ := ih (n + 1)
        refine ⟨?_, fun _ => h2 (by rw [h]; exact Option.some_ne_none _), h3⟩
        change _ = n + (bs.length + 1)
        rw [Nat.add_comm bs.length, ← Nat.add_assoc, ← h1]
        rfl
      | rejected c => exact ⟨rfl, fun _ hr => absurd hr (Option.some_ne_none _), rfl⟩

theorem offerBytes_fits (level : TxPins) (script : List TxPins) (bytes : List Byte) (n : Nat) :
    (offerBytes level script bytes n).accepted + (offerBytes level script bytes n).pending.length = n + bytes.length ∧
    (level.verdict ≠ none → (offerBytes level script bytes n).rejected = none →
      (offerBytes level script bytes n).pending = []) ∧
    (offerBytes level script bytes n).events.foldl wireNext (some .selected) =
      some (if (offerBytes level script bytes n).rejected.isSome then .stopped else .selected) := by
  induction script generalizing bytes n with
  | nil =>
    cases bytes with
    | nil => exact ⟨rfl, fun _ _ => rfl, rfl⟩
    | cons b bs => exact offerAtLevel_fits level (b :: bs) n
  | cons p ps ih =>
    cases bytes with
    | nil => exact ⟨rfl, fun _ _ => rfl, rfl⟩
    | cons b bs =>
      unfold offerBytes
      cases h : p.verdict with
      | none => exact ih (b :: bs) n
      | some v =>
        cases v with
        | accepted =>
          obtain ⟨h1, h2, h3⟩ := ih bs (n + 1)
          refine ⟨?_, h2, h3⟩
          change _ = n + (bs.length + 1)
          rw [Nat.add_comm bs.length, ← Nat.add_assoc, ← h1]
          rfl
        | rejected c => exact ⟨rfl, fun _ hr => absurd hr (Option.some_ne_none _), rfl⟩

/-- Samples that come in two lots: the second lot is looked at only if the first leaves a byte waiting. -/
theorem offerBytes_append_script (level : TxPins) (hlev : level.verdict = none) (xs ys : List TxPins)
    (bytes : List Byte) (n : Nat) :
    (((offerBytes level xs bytes n).rejected.isSome || (offerBytes level xs bytes n).pending.isEmpty) = true →
      offerBytes level (xs ++ ys) bytes n =
        { offerBytes level xs bytes n with script := (offerBytes level xs bytes n).script ++ ys }) ∧
    (((offerBytes level xs bytes n).rejected.isSome || (offerBytes level xs bytes n).pending.isEmpty) = false →
      (offerBytes level xs bytes n).script = [] ∧
      offerBytes level (xs ++ ys) bytes n =
        (offerBytes level ys (offerBytes level xs bytes n).pending (offerBytes level xs bytes n).accepted).precededBy
          (offerBytes level xs bytes n).events) := by
  induction xs generalizing bytes n with
  | nil =>
    cases bytes with
    | nil => simp
    | cons b bs => simp [offerBytes, offerAtLevel, hlev, Stretch.precededBy]
  | cons p ps ih =>
    cases bytes with
    | nil => simp
    | cons b bs =>
      cases h : p.verdict with
      | none => simpa [offerBytes, h] using ih (b :: bs) n
      | some v =>
        cases v with
        | accepted =>
          obtain ⟨h1, h2⟩ := ih bs (n + 1)
          simp only [List.cons_append, offerBytes, h, Stretch.after]
          refine ⟨fun hd => ?_, fun hd => ?_⟩
          · rw [h1 hd]
          · obtain ⟨h3, h4⟩ := h2 hd
            exact ⟨h3, by rw [h4]; rfl⟩
        | rejected c => simp [offerBytes, h]

/-- A stretch has the event of a rejected byte exactly when it ends in a rejection (44_wire.md R163, R165). -/
theorem offerAtLevel_rejected_iff (level : TxPins) (bytes : List Byte) (n : Nat) :
    (∃ b c, Event.byte b (.rejected c) ∈ (offerAtLevel level bytes n).events) ↔
      (offerAtLevel level bytes n).rejected.isSome = true := by
  induction bytes generalizing n with
  | nil => simp [offerAtLevel]
  | cons b bs ih =>
    unfold offerAtLevel
    cases h : level.verdict with
    | none => simp
    | some v =>
      cases v with
      | accepted => simpa [Stretch.after] using ih (n + 1)
      | rejected c => simp

theorem offerBytes_rejected_iff (level : TxPins) (script : List TxPins) (bytes : List Byte) (n : Nat) :
    (∃ b c, Event.byte b (.rejected c) ∈ (offerBytes level script bytes n).events) ↔
      (offerBytes level script bytes n).rejected.isSome = true := by
  induction script generalizing bytes n with
  | nil =>
    cases bytes with
    | nil => simp
    | cons b bs => exact offerAtLevel_rejected_iff level (b :: bs) n
  | cons p ps ih =>
    cases bytes with
    | nil => simp
    | cons b bs =>
      unfold offerBytes
      cases h : p.verdict with
      | none => exact ih (b :: bs) n
      | some v =>
        cases v with
        | accepted => simpa [Stretch.after] using ih bs (n + 1)
        | rejected c => simp

/-- The shape of an event list, from the shape of its first part (44_wire.md R163). -/
theorem wireMode_append (a b : List Event) : wireMode (a ++ b) = b.foldl wireNext (wireMode a) := by
  simp only [wireMode, List.foldl_append]

/-! ### The bytes of the transactions -/

/-- Both builds of the codec compute the reversal (43_codec.md R150). -/
theorem revTable_getD (b : Byte) : revTable.getD b.toNat 0 = rev8 b := by
  revert b; decide +kernel

@[simp] theorem wireByte_eq (s : State) (v : Byte) : wireByte s v = rev8 v := by
  unfold wireByte codec
  cases s.cfg.codecImpl
  · exact revTable_getD v
  · rfl

/-- The bytes of a Clear are its wire format (44_wire.md R173). -/
theorem clearBytes_eq (s : State) : clearBytes s = clearFormat s.vcom := by simp [clearBytes, clearFormat]

/-- A scanline of a legal panel is its row in the wire format (44_wire.md R184). -/
theorem scanline_eq {s : State} (hl : s.cfg.legal = true) {l : Nat} (hr : l < s.cfg.h) :
    scanline s (l + 1) = .ok (lineFormat s.cfg s.fb l) := by
  have hle : l * s.cfg.bpl + s.cfg.bpl ≤ s.cfg.nb := by
    rw [nb_eq hl, ← Nat.succ_mul]; exact Nat.mul_le_mul_right _ hr
  simp [scanline, readRun_of_le hle, Except.map, lineFormat]

theorem scanlines_eq {s : State} (hl : s.cfg.legal = true) (n l : Nat) (h : l + n ≤ s.cfg.h) :
    scanlines s (l + 1) n = .ok ((List.range n).flatMap fun k => lineFormat s.cfg s.fb (l + k)) := by
  induction n generalizing l with
  | zero => rfl
  | succ n ih =>
    simp only [scanlines, scanline_eq hl (l := l) (by omega), ih (l + 1) (by omega), Except.map,
      List.range_succ_eq_map, List.flatMap_cons, List.flatMap_map, Nat.add_zero]
    simp only [Nat.add_assoc, Nat.add_comm 1]

/-- The bytes of a Refresh of a legal panel are its wire format (44_wire.md R184). -/
theorem refreshBytes_eq {s : State} (hl : s.cfg.legal = true) :
    refreshBytes s = .ok (refreshFormat s.vcom s.cfg s.fb) := by
  simp [refreshBytes, scanlines_eq hl s.cfg.h 0 (by omega), Except.map, refreshFormat]

@[simp] theorem length_lineFormat (cfg : Config) (fb : Memory) (l : Nat) :
    (lineFormat cfg fb l).length = cfg.bpl + 2 := by simp [lineFormat]

/-- What a transaction's steps do once a stretch is known. -/
theorem carryOn_eq (t : Tx) (s : State) (r : Stretch) (h : offerBytes s.pins.tx s.txScript t.pending t.accepted = r) :
    carryOn t s =
      if r.rejected.isSome || r.pending.isEmpty then
        endTransaction t.op r.accepted r.rejected { s with txScript := r.script, wire := s.wire ++ r.events }
      else { s with
        txScript := r.script, wire := s.wire ++ r.events,
        seq := .transaction { op := t.op, pending := r.pending, accepted := r.accepted } } := by
  simp only [carryOn, h]

end Sys2Proof.Machine
end

