-- ==== Sys2Proof/Laws/Exec.lean ====
section
/-!
SUPPORT. Inversion, once, of everything that runs: what a command can answer, what the end of a transaction does, and
what a step can do. Later proofs cite these instead of unfolding a meaning.
-/

namespace Sys2Proof.Machine

/-- `t` is what a drawing command over the points `pts` leaves of `s` (40_pixel.md R101). -/
def Draws (col : Bool) (pts : List Point) (s t : State) : Prop :=
  ∃ m : Memory,
    t = { s with
      busy := true
      fb := m
      oobS := s.oobS || someOob s.cfg s.rot pts
      rsp := some { status := if someOob s.cfg s.rot pts then .outOfBuffer else .ok, data := 0 } } ∧
    (s.fb.within s.cfg.nb = true → m.within s.cfg.nb = true) ∧
    (s.fb.wf = true → m.wf = true ∧ Painted s.cfg s.rot pts col s.fb m)

/-- What each command leaves of `s` when it answers a next state. -/
def Answers (i : Instr) (s t : State) : Prop :=
  match i with
  | .nop => t = { s with busy := true, rsp := some { status := .ok, data := 0 } }
  | .setPixel x y col => Draws col [(x, y)] s t
  | .getPixel x y =>
    t = { s with
      busy := true
      oobS := s.oobS || (locate s.cfg s.rot x y).isOob
      rsp := some
        { status := if (locate s.cfg s.rot x y).isOob then .outOfBuffer else .ok
          data := pixelData (match locate s.cfg s.rot x y with
            | .cell a p => pixelBit (s.fb.read a) p
            | .clip => false
            | .oob _ _ => false) } }
  | .drawLine x0 y0 x1 y1 col => Draws col (linePoints x0 y0 x1 y1) s t
  | .drawFastVline x y h col => Draws col (vPath x y h) s t
  | .drawFastHline x y w col => Draws col (hPath x y w) s t
  | .fillRect x y w h col => Draws col (rectPath x y w h) s t
  | .fillScreen col => Draws col (rectPath 0 0 (extent s.cfg s.rot).1 (extent s.cfg s.rot).2) s t
  | .setRotation r => t = { s with busy := true, rot := r, rsp := some { status := .ok, data := 0 } }
  | .clear => t = clearOp .clear { s with busy := true }
  | .refresh => t = transact .refresh (refreshFormat s.vcom s.cfg s.fb) (flipVcom { s with busy := true })
  | .reverseByte v =>
    t = { s with busy := true, rsp := some { status := .ok, data := byteData (codec s.cfg.codecImpl v) } }
  | .reservedC => t = { s with busy := true, illS := true, rsp := some { status := .illegalCommand, data := 0 } }
  | .reservedD => t = { s with busy := true, illS := true, rsp := some { status := .illegalCommand, data := 0 } }
  | .reservedE => t = { s with busy := true, illS := true, rsp := some { status := .illegalCommand, data := 0 } }
  | .reservedF => t = { s with busy := true, illS := true, rsp := some { status := .illegalCommand, data := 0 } }

theorem draws_of_ok {col : Bool} {pts : List Point} {s t : State} (hl : s.cfg.legal = true)
    (h : draw col pts { s with busy := true } = .ok t) : Draws col pts s t := by
  obtain ⟨m, h1, h2, h3⟩ := draw_spec (s := { s with busy := true }) hl col pts
  rw [h1] at h
  cases h
  exact ⟨m, rfl, h2, h3⟩

theorem getPixel_answers {x y : Int} {s t : State} (hl : s.cfg.legal = true)
    (h : (readPixel { s := { s with busy := true }, st := .ok } x y).map
      (fun q => respond q.1.st (pixelData q.2) q.1.s) = .ok t) : Answers (.getPixel x y) s t := by
  simp only [Answers]
  rcases readPixel_cases (r := { s := { s with busy := true }, st := .ok }) hl x y with
    ⟨hc, e⟩ | ⟨hc, e⟩ | ⟨a, p, -, -, hc, e⟩
  · rw [e] at h; cases h; simp only at hc; simp [hc, respond]
  · simp only [State.oobAt] at hc
    rw [e] at h; cases h
    cases hloc : locate s.cfg s.rot x y with
    | oob x' y' => simp [respond]
    | clip => simp [hloc] at hc
    | cell a p => simp [hloc] at hc
  · simp only [State.storedAt] at hc
    rw [e] at h; cases h; simp [hc, respond, pixelBit_eq, State.fbBit]

theorem refresh_answers {s t : State} (hl : s.cfg.legal = true) (h : refreshOp { s with busy := true } = .ok t) :
    Answers .refresh s t := by
  have hr := refreshBytes_eq (s := { s with busy := true }) hl
  simp only [refreshOp, hr, Except.map] at h
  cases h
  rfl

/-- The inversion of `exec`: a command answers a next state only for legal parameters, and then the one state its rule
gives. -/
theorem exec_answers {i : Instr} {s t : State} (h : exec i s = .next t) : s.cfg.legal = true ∧ Answers i s t := by
  cases i <;>
    simp only [exec, execNop, execSetPixel, execGetPixel, execDrawLine, execDrawFastVline, execDrawFastHline,
      execFillRect, execFillScreen, execSetRotation, execClear, execRefresh, execReverseByte, execReservedC,
      execReservedD, execReservedE, execReservedF] at h <;>
    obtain ⟨hl, hb⟩ := command_eq_next h <;> refine ⟨hl, ?_⟩
  case setPixel => exact draws_of_ok hl hb
  case getPixel => exact getPixel_answers hl hb
  case drawLine => exact draws_of_ok hl hb
  case drawFastVline => exact draws_of_ok hl hb
  case drawFastHline => exact draws_of_ok hl hb
  case fillRect => exact draws_of_ok hl hb
  case fillScreen => exact draws_of_ok hl hb
  case refresh => exact refresh_answers hl hb
  all_goals cases hb; rfl

/-- Everything the end of a transaction does (44_wire.md R164, R165, R171; 70_reset_and_hazards.md R232). -/
theorem endTransaction_eq (op : TxOp) (n : Nat) (rejected : Option Byte) (s : State) :
    endTransaction op n rejected s =
      { s with
        vcom := if op = .refresh then s.vcom else !s.vcom
        cs := false
        seq := .idle
        busy := if op = .resetClear then false else s.busy
        txeS := s.txeS || rejected.isSome
        rsp := if op = .resetClear then s.rsp
          else some { status := if rejected.isSome then .transportError else .ok
                      data := transactionData (rejected.getD 0) n }
        wire := s.wire ++ [.sel false] } := by
  cases op <;> cases rejected <;>
    simp [endTransaction, report, select, flipAtEnd, flipVcom, raise, setSticky, respond, Exception.status]

/-- Everything the rest of a transaction can do: it ends, with all bytes accepted or one rejected, or it waits with a
byte on offer (44_wire.md R161, R165). -/
theorem carryOn_cases (x : Tx) (s : State) (r : Stretch)
    (hr : offerBytes s.pins.tx s.txScript x.pending x.accepted = r) :
    ((r.rejected.isSome = true ∨ r.pending = []) ∧
      carryOn x s =
        { s with
          vcom := if x.op = .refresh then s.vcom else !s.vcom
          cs := false
          seq := .idle
          busy := if x.op = .resetClear then false else s.busy
          txeS := s.txeS || r.rejected.isSome
          rsp := if x.op = .resetClear then s.rsp
            else some { status := if r.rejected.isSome then .transportError else .ok
                        data := transactionData (r.rejected.getD 0) r.accepted }
          txScript := r.script
          wire := s.wire ++ r.events ++ [.sel false] }) ∨
    (r.rejected = none ∧ r.pending ≠ [] ∧
      carryOn x s =
        { s with
          txScript := r.script, wire := s.wire ++ r.events,
          seq := .transaction { op := x.op, pending := r.pending, accepted := r.accepted } }) := by
  rw [carryOn_eq x s r hr]
  by_cases h : (r.rejected.isSome || r.pending.isEmpty) = true
  · rw [if_pos h, endTransaction_eq]
    exact Or.inl ⟨by simpa using h, rfl⟩
  · rw [if_neg h]
    exact Or.inr (by simpa using h)

theorem carryOn_inputs (x : Tx) (s : State) :
    (carryOn x s).pins = s.pins ∧ (carryOn x s).hostCmds = s.hostCmds := by
  rcases carryOn_cases x s _ rfl with ⟨-, e⟩ | ⟨-, -, e⟩ <;> rw [e] <;> exact ⟨rfl, rfl⟩

/-- No command drives an input pin or the command port (10_state.md R32). -/
theorem exec_inputs {i : Instr} {s t : State} (h : exec i s = .next t) : t.pins = s.pins ∧ t.hostCmds = s.hostCmds := by
  have ha := (exec_answers h).2
  clear h
  cases i <;> simp only [Answers, Draws, clearOp, transact] at ha
  case clear => rw [ha]; exact carryOn_inputs _ _
  case refresh => rw [ha]; exact carryOn_inputs _ _
  case setPixel => obtain ⟨m, rfl, -⟩ := ha; exact ⟨rfl, rfl⟩
  case drawLine => obtain ⟨m, rfl, -⟩ := ha; exact ⟨rfl, rfl⟩
  case drawFastVline => obtain ⟨m, rfl, -⟩ := ha; exact ⟨rfl, rfl⟩
  case drawFastHline => obtain ⟨m, rfl, -⟩ := ha; exact ⟨rfl, rfl⟩
  case fillRect => obtain ⟨m, rfl, -⟩ := ha; exact ⟨rfl, rfl⟩
  case fillScreen => obtain ⟨m, rfl, -⟩ := ha; exact ⟨rfl, rfl⟩
  all_goals rw [ha]; exact ⟨rfl, rfl⟩

/-- Everything a step can do: an edge in reset, the reset-time Clear, a transaction that goes on, an edge with a
response on offer, a command, or nothing (10_state.md R33; 70_reset_and_hazards.md R230, R232, R249). -/
theorem step_cases {s t : State} (h : step s = .next t) :
    s.cfg.legal = true ∧
    ((s.pins.rst = true ∧ t = resetEdge s) ∨
     (s.pins.rst = false ∧ s.seq = .resetClear ∧ t = clearOp .resetClear s) ∨
     (s.pins.rst = false ∧ ∃ x, s.seq = .transaction x ∧ t = carryOn x s) ∨
     (s.pins.rst = false ∧ s.seq = .idle ∧ s.rsp.isSome = true ∧ t = responseEdge s) ∨
     (s.pins.rst = false ∧ s.seq = .idle ∧ s.rsp = none ∧ s.busy = false ∧
       ∃ w rest, s.hostCmds = w :: rest ∧ exec (decode w) s.popCommand = .next t) ∨
     (s.pins.rst = false ∧ s.seq = .idle ∧ s.rsp = none ∧ (s.busy = true ∨ s.hostCmds = []) ∧ t = s)) := by
  unfold step coreEdge at h
  split at h
  · next hl =>
    refine ⟨hl, ?_⟩
    split at h
    · next hr => cases h; exact Or.inl ⟨hr, rfl⟩
    · next hr =>
      have hr : s.pins.rst = false := by simpa using hr
      refine Or.inr ?_
      unfold runningEdge at h
      cases hs : s.seq with
      | resetClear => rw [hs] at h; cases h; exact Or.inl ⟨hr, rfl, rfl⟩
      | transaction x => rw [hs] at h; cases h; exact Or.inr (Or.inl ⟨hr, x, rfl, rfl⟩)
      | idle =>
        rw [hs] at h
        refine Or.inr (Or.inr ?_)
        simp only at h
        split at h
        · next hp => cases h; exact Or.inl ⟨hr, rfl, hp, rfl⟩
        · next hp =>
          have hp : s.rsp = none := by simpa using hp
          refine Or.inr ?_
          unfold commandEdge State.cmdWord at h
          by_cases hb : s.busy = true
          · simp [State.cmdReady, hb] at h
            exact Or.inr ⟨hr, rfl, hp, Or.inl hb, h.symm⟩
          · have hb : s.busy = false := by simpa using hb
            cases hc : s.hostCmds with
            | nil => simp [State.cmdReady, hb, hr, hc] at h; exact Or.inr ⟨hr, rfl, hp, Or.inr rfl, h.symm⟩
            | cons w rest =>
              simp [State.cmdReady, hb, hr, hc] at h
              exact Or.inl ⟨hr, rfl, hp, hb, w, rest, rfl, h⟩
  · cases h

/-- No step drives an input pin (10_state.md R32). -/
theorem step_pins {s t : State} (h : step s = .next t) : t.pins = s.pins := by
  obtain ⟨-, h⟩ := step_cases h
  rcases h with ⟨-, rfl⟩ | ⟨-, -, rfl⟩ | ⟨-, x, -, rfl⟩ | ⟨-, -, -, rfl⟩ | ⟨-, -, -, -, w, rest, -, h⟩ | ⟨-, -, -, -, rfl⟩
  · rfl
  · exact (carryOn_inputs _ _).1
  · exact (carryOn_inputs x s).1
  · unfold responseEdge; split <;> rfl
  · exact (exec_inputs h).1
  · rfl

end Sys2Proof.Machine
end

