-- ==== Sys2Proof/Laws/PerInstr.lean ====
section
/-!
SUPPORT. The per-instruction family `EncodedOpcode`: the encoder puts the command's opcode in `op` and 0 in `rsv`
(30_encoding.md R84, R85); one lemma a constructor.
-/

namespace Sys2Proof.Laws

/-- The fields of a packed word that select the command and that are reserved (30_encoding.md R80). -/
theorem packWord_op_rsv (op : BitVec 4) (col : Bool) (a b c d : BitVec 16) :
    (packWord op col a b c d).extractLsb' 68 4 = op ∧ (packWord op col a b c d).extractLsb' 64 3 = 0#3 := by
  constructor
  · ext i hi
    simp only [packWord, BitVec.getElem_extractLsb', BitVec.getLsbD_append]
    simp [show ¬ 68 + i < 16 by omega, show ¬ 68 + i - 16 < 16 by omega, show ¬ 68 + i - 16 - 16 < 16 by omega,
      show ¬ 68 + i - 16 - 16 - 16 < 16 by omega, show ¬ 68 + i - 16 - 16 - 16 - 16 < 3 by omega,
      show ¬ 68 + i - 16 - 16 - 16 - 16 - 3 < 1 by omega, show 68 + i - 16 - 16 - 16 - 16 - 3 - 1 = i by omega, BitVec.getLsbD_eq_getElem hi]
  · ext i hi
    simp only [packWord, BitVec.getElem_extractLsb', BitVec.getLsbD_append]
    simp [show ¬ 64 + i < 16 by omega, show ¬ 64 + i - 16 < 16 by omega, show ¬ 64 + i - 16 - 16 < 16 by omega,
      show ¬ 64 + i - 16 - 16 - 16 < 16 by omega, show 64 + i - 16 - 16 - 16 - 16 < 3 by omega]

namespace EncodedOpcode

/-- The word of the command has its opcode in bits 71:68 and 0 in bits 66:64. -/
def Statement (i : Instr) : Prop :=
  (encode i).extractLsb' 68 4 = i.opcode ∧ (encode i).extractLsb' 64 3 = 0#3

theorem nop : Statement (.nop) := packWord_op_rsv _ _ _ _ _ _
theorem setPixel (x y : Int) (col : Bool) : Statement (.setPixel x y col) := packWord_op_rsv _ _ _ _ _ _
theorem getPixel (x y : Int) : Statement (.getPixel x y) := packWord_op_rsv _ _ _ _ _ _
theorem drawLine (x0 y0 x1 y1 : Int) (col : Bool) : Statement (.drawLine x0 y0 x1 y1 col) := packWord_op_rsv _ _ _ _ _ _
theorem drawFastVline (x y h : Int) (col : Bool) : Statement (.drawFastVline x y h col) := packWord_op_rsv _ _ _ _ _ _
theorem drawFastHline (x y w : Int) (col : Bool) : Statement (.drawFastHline x y w col) := packWord_op_rsv _ _ _ _ _ _
theorem fillRect (x y w h : Int) (col : Bool) : Statement (.fillRect x y w h col) := packWord_op_rsv _ _ _ _ _ _
theorem fillScreen (col : Bool) : Statement (.fillScreen col) := packWord_op_rsv _ _ _ _ _ _
theorem setRotation (r : BitVec 2) : Statement (.setRotation r) := packWord_op_rsv _ _ _ _ _ _
theorem clear : Statement (.clear) := packWord_op_rsv _ _ _ _ _ _
theorem refresh : Statement (.refresh) := packWord_op_rsv _ _ _ _ _ _
theorem reverseByte (v : Byte) : Statement (.reverseByte v) := packWord_op_rsv _ _ _ _ _ _
theorem reservedC : Statement (.reservedC) := packWord_op_rsv _ _ _ _ _ _
theorem reservedD : Statement (.reservedD) := packWord_op_rsv _ _ _ _ _ _
theorem reservedE : Statement (.reservedE) := packWord_op_rsv _ _ _ _ _ _
theorem reservedF : Statement (.reservedF) := packWord_op_rsv _ _ _ _ _ _

end EncodedOpcode

end Sys2Proof.Laws
end

