-- ==== Sys2Proof/Laws/Raster.lean ====
section
/-!
SUPPORT. The laws of the rasterizer: its loop as a list of iterates, what stays fixed in it, the invariant of its
accumulator, and the points of horizontal and vertical lines and of rectangles.
-/

namespace Sys2Proof.Machine

/-! ### The iterates of the loop -/

section
variable (r : Raster)

@[simp] theorem advance_x : r.advance.x = r.x + 1 := by unfold Raster.advance; split <;> rfl
@[simp] theorem advance_xend : r.advance.xend = r.xend := by unfold Raster.advance; split <;> rfl
@[simp] theorem advance_dx : r.advance.dx = r.dx := by unfold Raster.advance; split <;> rfl
@[simp] theorem advance_dy : r.advance.dy = r.dy := by unfold Raster.advance; split <;> rfl
@[simp] theorem advance_steep : r.advance.steep = r.steep := by unfold Raster.advance; split <;> rfl
@[simp] theorem advance_ystep : r.advance.ystep = r.ystep := by unfold Raster.advance; split <;> rfl

theorem advance_y_err : (r.err - r.dy < 0 ∧ r.advance.y = r.y + r.ystep ∧ r.advance.err = r.err - r.dy + r.dx) ∨
    (0 ≤ r.err - r.dy ∧ r.advance.y = r.y ∧ r.advance.err = r.err - r.dy) := by
  unfold Raster.advance
  split
  · next h => exact Or.inl ⟨h, rfl, rfl⟩
  · next h => exact Or.inr ⟨by omega, rfl, rfl⟩

theorem iterate_advance_fixed (k : Nat) :
    (Raster.advance^[k] r).x = r.x + k ∧ (Raster.advance^[k] r).xend = r.xend ∧
      (Raster.advance^[k] r).dx = r.dx ∧ (Raster.advance^[k] r).dy = r.dy ∧
      (Raster.advance^[k] r).steep = r.steep ∧ (Raster.advance^[k] r).ystep = r.ystep := by
  induction k with
  | zero => simp
  | succ k ih =>
    simp only [Function.iterate_succ', Function.comp_apply, advance_x, advance_xend, advance_dx, advance_dy,
      advance_steep, advance_ystep, ih]
    refine ⟨by push_cast; ring, ?_⟩
    simp

end

/-- The loop runs through all its iterations: its points are those of the iterates. -/
theorem rasterLoop_eq (n : Nat) (r : Raster) (h : (n : Int) ≤ r.xend - r.x + 1) :
    rasterLoop n r = (List.range n).map fun k => (Raster.advance^[k] r).plot := by
  induction n generalizing r with
  | zero => rfl
  | succ n ih =>
    have hx : r.x ≤ r.xend := by omega
    rw [rasterLoop, if_pos hx, ih r.advance (by simp; omega), List.range_succ_eq_map, List.map_cons, List.map_map]
    rfl

/-! ### The start of the loop -/

/-- The loop starts from ordered endpoints, and its minor delta is at most its major one (41_line.md R120). -/
theorem rasterStart_cases (x0 y0 x1 y1 : Int) :
    (|x1 - x0| < |y1 - y0| ∧ y1 < y0 ∧ rasterStart x0 y0 x1 y1 = rasterOrdered true y1 x1 y0 x0) ∨
    (|x1 - x0| < |y1 - y0| ∧ y0 < y1 ∧ rasterStart x0 y0 x1 y1 = rasterOrdered true y0 x0 y1 x1) ∨
    (|y1 - y0| ≤ |x1 - x0| ∧ x1 < x0 ∧ rasterStart x0 y0 x1 y1 = rasterOrdered false x1 y1 x0 y0) ∨
    (|y1 - y0| ≤ |x1 - x0| ∧ x0 ≤ x1 ∧ rasterStart x0 y0 x1 y1 = rasterOrdered false x0 y0 x1 y1) := by
  unfold rasterStart isSteep rasterMajor
  by_cases hs : |x1 - x0| < |y1 - y0|
  · have hne : y0 ≠ y1 := by
      rintro rfl
      have : 0 ≤ |x1 - x0| := abs_nonneg _
      simp at hs; omega
    by_cases hy : y1 < y0
    · exact Or.inl ⟨hs, hy, by simp [hs, hy]⟩
    · exact Or.inr (Or.inl ⟨hs, by omega, by simp [hs, hy]⟩)
  · by_cases hx : x1 < x0
    · exact Or.inr (Or.inr (Or.inl ⟨by omega, hx, by simp [hs, hx]⟩))
    · exact Or.inr (Or.inr (Or.inr ⟨by omega, by omega, by simp [hs, hx]⟩))

/-- The points of an ordered run of the loop. -/
def orderedPoints (steep : Bool) (x0 y0 x1 y1 : Int) : List Point :=
  (List.range (x1 - x0 + 1).toNat).map fun k => (Raster.advance^[k] (rasterOrdered steep x0 y0 x1 y1)).plot

theorem bres_of_start {x0 y0 x1 y1 a b c d : Int} {steep : Bool} (h : rasterStart x0 y0 x1 y1 = rasterOrdered steep a b c d)
    (hle : a ≤ c) : bres x0 y0 x1 y1 = orderedPoints steep a b c d := by
  unfold bres orderedPoints
  rw [h]
  exact rasterLoop_eq _ _ (by simp [rasterOrdered]; omega)

/-! ### The accumulator -/

/-- What holds of the accumulator and the minor coordinate after `k` iterations (41_line.md R120, R121). -/
theorem ordered_iterate {x0 y0 x1 y1 : Int} (steep : Bool) (hdy : |y1 - y0| ≤ x1 - x0) (k : Nat) :
    ∃ m : Nat,
      (Raster.advance^[k] (rasterOrdered steep x0 y0 x1 y1)).y = y0 + (if y0 < y1 then 1 else -1) * m ∧
      (Raster.advance^[k] (rasterOrdered steep x0 y0 x1 y1)).err =
        (x1 - x0) / 2 - k * |y1 - y0| + m * (x1 - x0) ∧
      0 ≤ (Raster.advance^[k] (rasterOrdered steep x0 y0 x1 y1)).err ∧
      (Raster.advance^[k] (rasterOrdered steep x0 y0 x1 y1)).err ≤ x1 - x0 ∧
      (x0 < x1 → (Raster.advance^[k] (rasterOrdered steep x0 y0 x1 y1)).err < x1 - x0) := by
  have hnn : 0 ≤ |y1 - y0| := abs_nonneg _
  induction k with
  | zero => exact ⟨0, by simp [rasterOrdered], by simp [rasterOrdered], by simp [rasterOrdered]; omega,
      by simp [rasterOrdered]; omega, fun h => by simp [rasterOrdered]; omega⟩
  | succ k ih =>
    obtain ⟨m, hy, he, h0, hle, hlt⟩ := ih
    obtain ⟨-, -, hdx, hdy', -, hys⟩ := iterate_advance_fixed (rasterOrdered steep x0 y0 x1 y1) k
    have e1 : (rasterOrdered steep x0 y0 x1 y1).dx = x1 - x0 := rfl
    have e2 : (rasterOrdered steep x0 y0 x1 y1).dy = |y1 - y0| := rfl
    have e3 : (rasterOrdered steep x0 y0 x1 y1).ystep = if y0 < y1 then 1 else -1 := rfl
    rw [e1] at hdx; rw [e2] at hdy'; rw [e3] at hys
    rw [Function.iterate_succ', Function.comp_apply]
    rcases advance_y_err (Raster.advance^[k] (rasterOrdered steep x0 y0 x1 y1)) with ⟨hn, hy', he'⟩ | ⟨hn, hy', he'⟩
    · refine ⟨m + 1, ?_, ?_, ?_, ?_, ?_⟩
      · rw [hy', hy, hys]; push_cast; ring
      · rw [he', he, hdy', hdx]; push_cast; ring
      · rw [he', hdx, hdy']; omega
      · rw [he', hdx]; omega
      · intro _; rw [he', hdx]; omega
    · refine ⟨m, ?_, ?_, ?_, ?_, ?_⟩
      · rw [hy', hy]
      · rw [he', he, hdy']; push_cast; ring
      · rw [he']; omega
      · rw [he', hdy']; omega
      · intro h; have := hlt h; rw [he', hdy']; omega

/-- With no minor delta the minor coordinate never moves (41_line.md R121). -/
theorem ordered_flat {x0 x1 : Int} (steep : Bool) (y : Int) (hx : x0 ≤ x1) (k : Nat) :
    (Raster.advance^[k] (rasterOrdered steep x0 y x1 y)).y = y := by
  induction k with
  | zero => rfl
  | succ k ih =>
    obtain ⟨m, -, -, h0, -⟩ := ordered_iterate (y0 := y) (y1 := y) steep (by simpa using hx) k
    obtain ⟨-, -, -, hdy, -, -⟩ := iterate_advance_fixed (rasterOrdered steep x0 y x1 y) k
    have e2 : (rasterOrdered steep x0 y x1 y).dy = 0 := by simp [rasterOrdered]
    rw [e2] at hdy
    rw [Function.iterate_succ', Function.comp_apply]
    rcases advance_y_err (Raster.advance^[k] (rasterOrdered steep x0 y x1 y)) with ⟨hn, -⟩ | ⟨-, hy, -⟩
    · omega
    · rw [hy, ih]

theorem orderedPoints_flat {x0 x1 : Int} (steep : Bool) (y : Int) (hx : x0 ≤ x1) :
    orderedPoints steep x0 y x1 y =
      (List.range (x1 - x0 + 1).toNat).map fun k : Nat => if steep then (y, x0 + (k : Int)) else (x0 + (k : Int), y) := by
  unfold orderedPoints
  apply List.map_congr_left
  intro k _
  obtain ⟨hk, -, -, -, hs, -⟩ := iterate_advance_fixed (rasterOrdered steep x0 y x1 y) k
  have e1 : (rasterOrdered steep x0 y x1 y).x = x0 := rfl
  have e2 : (rasterOrdered steep x0 y x1 y).steep = steep := rfl
  rw [e1] at hk; rw [e2] at hs
  simp only [Raster.plot, hk, hs, ordered_flat steep y hx k]

/-! ### Vertical and horizontal lines -/

/-- A vertical line, top to bottom (41_line.md R128). -/
theorem bres_vertical (x y0 y1 : Int) :
    bres x y0 x y1 = (List.range (|y1 - y0| + 1).toNat).map fun k : Nat => (x, min y0 y1 + (k : Int)) := by
  rcases rasterStart_cases x y0 x y1 with ⟨h, h', e⟩ | ⟨h, h', e⟩ | ⟨h, h', e⟩ | ⟨h, h', e⟩
  · rw [bres_of_start e h'.le, orderedPoints_flat _ _ h'.le, min_eq_right h'.le, abs_of_nonpos (by omega)]
    simp [neg_sub]
  · rw [bres_of_start e h'.le, orderedPoints_flat _ _ h'.le, min_eq_left h'.le, abs_of_nonneg (by omega)]
    simp
  · omega
  · simp only [sub_self, abs_zero] at h
    have : y1 - y0 = 0 := abs_nonpos_iff.mp h
    have hy : y1 = y0 := by omega
    subst hy
    rw [bres_of_start e h', orderedPoints_flat _ _ h']
    simp

/-- A horizontal line, left to right (41_line.md R130). -/
theorem bres_horizontal (x0 x1 y : Int) :
    bres x0 y x1 y = (List.range (|x1 - x0| + 1).toNat).map fun k : Nat => (min x0 x1 + (k : Int), y) := by
  rcases rasterStart_cases x0 y x1 y with ⟨h, h', e⟩ | ⟨h, h', e⟩ | ⟨h, h', e⟩ | ⟨h, h', e⟩
  · omega
  · omega
  · rw [bres_of_start e h'.le, orderedPoints_flat _ _ h'.le, min_eq_right h'.le, abs_of_nonpos (by omega)]
    simp [neg_sub]
  · rw [bres_of_start e h', orderedPoints_flat _ _ h', min_eq_left h', abs_of_nonneg (by omega)]
    simp

theorem mem_bres_vertical (x y0 y1 : Int) (pt : Point) :
    pt ∈ bres x y0 x y1 ↔ pt.1 = x ∧ min y0 y1 ≤ pt.2 ∧ pt.2 ≤ max y0 y1 := by
  rw [bres_vertical]
  simp only [List.mem_map, List.mem_range]
  constructor
  · rintro ⟨k, hk, rfl⟩
    refine ⟨rfl, by simp, ?_⟩
    simp only
    rcases abs_cases (y1 - y0) with ⟨h, _⟩ | ⟨h, _⟩ <;> rw [h] at hk <;> omega
  · rintro ⟨h1, h2, h3⟩
    refine ⟨(pt.2 - min y0 y1).toNat, ?_, ?_⟩
    · rcases abs_cases (y1 - y0) with ⟨h, _⟩ | ⟨h, _⟩ <;> rw [h] <;> omega
    · ext <;> simp <;> omega

theorem mem_bres_horizontal (x0 x1 y : Int) (pt : Point) :
    pt ∈ bres x0 y x1 y ↔ pt.2 = y ∧ min x0 x1 ≤ pt.1 ∧ pt.1 ≤ max x0 x1 := by
  rw [bres_horizontal]
  simp only [List.mem_map, List.mem_range]
  constructor
  · rintro ⟨k, hk, rfl⟩
    refine ⟨rfl, by simp, ?_⟩
    simp only
    rcases abs_cases (x1 - x0) with ⟨h, _⟩ | ⟨h, _⟩ <;> rw [h] at hk <;> omega
  · rintro ⟨h1, h2, h3⟩
    refine ⟨(pt.1 - min x0 x1).toNat, ?_, ?_⟩
    · rcases abs_cases (x1 - x0) with ⟨h, _⟩ | ⟨h, _⟩ <;> rw [h] <;> omega
    · ext <;> simp <;> omega

/-! ### Rectangles -/

theorem mem_columns (y h : Int) (n : Nat) (i : Int) (pt : Point) :
    pt ∈ columns y h n i ↔ i ≤ pt.1 ∧ pt.1 < i + n ∧ pt ∈ vPath pt.1 y h := by
  induction n generalizing i with
  | zero => simp [columns]; omega
  | succ n ih =>
    rw [columns, List.mem_append, ih]
    have hcol : pt ∈ vPath i y h → pt.1 = i := fun hp => ((mem_bres_vertical _ _ _ _).mp hp).1
    constructor
    · rintro (hp | ⟨h1, h2, h3⟩)
      · have := hcol hp
        rw [this]
        exact ⟨le_rfl, by push_cast; omega, hp⟩
      · exact ⟨by omega, by push_cast; omega, h3⟩
    · rintro ⟨h1, h2, h3⟩
      by_cases hi : pt.1 = i
      · rw [hi] at h3; exact Or.inl h3
      · exact Or.inr ⟨by omega, by push_cast at h2; omega, h3⟩

/-- The points of a rectangle are those of its columns (42_fill.md R140, R143). -/
theorem mem_rectPath (x y w h : Int) (pt : Point) :
    pt ∈ rectPath x y w h ↔
      x ≤ pt.1 ∧ pt.1 < x + w ∧ min y (farEnd y h) ≤ pt.2 ∧ pt.2 ≤ max y (farEnd y h) := by
  rw [rectPath, mem_columns, vPath, mem_bres_vertical]
  constructor
  · rintro ⟨h1, h2, -, h3, h4⟩; exact ⟨h1, by omega, h3, h4⟩
  · rintro ⟨h1, h2, h3, h4⟩; exact ⟨h1, by omega, rfl, h3, h4⟩

end Sys2Proof.Machine
end

