-- ==== Sys2Proof/Tests/Slice0.lean ====
section
/-!
SUPPORT. The model's own tests: ill-formed terms the check refuses, command words written out from 30_encoding.md R82 to
R87 and 95_test_vectors.md V2, one or two effects per command with the expectations of 95_test_vectors.md, and, for each
statement with hypotheses, a witness that meets them together.
-/

namespace Sys2Proof.Tests

open Sys2Proof Sys2Proof.Machine

/-! ### WellFormed refuses each ill-formed operand (30_encoding.md R83) -/

theorem test_wf_accepts_extremes : (Instr.fillRect (-32768) 32767 (-32768) 32767 true).wellFormed = true := by decide
theorem test_wf_setPixel_x : (Instr.setPixel 32768 0 true).wellFormed = false := by decide
theorem test_wf_setPixel_y : (Instr.setPixel 0 (-32769) true).wellFormed = false := by decide
theorem test_wf_getPixel_x : (Instr.getPixel (-32769) 0).wellFormed = false := by decide
theorem test_wf_getPixel_y : (Instr.getPixel 0 32768).wellFormed = false := by decide
theorem test_wf_drawLine :
    [Instr.drawLine 32768 0 0 0 true, .drawLine 0 32768 0 0 true, .drawLine 0 0 (-32769) 0 true,
      .drawLine 0 0 0 32768 true].all (fun i => !i.wellFormed) = true := by decide
theorem test_wf_drawFastVline :
    [Instr.drawFastVline 32768 0 0 true, .drawFastVline 0 (-32769) 0 true, .drawFastVline 0 0 32768 true].all
      (fun i => !i.wellFormed) = true := by decide
theorem test_wf_drawFastHline :
    [Instr.drawFastHline 32768 0 0 true, .drawFastHline 0 (-32769) 0 true, .drawFastHline 0 0 32768 true].all
      (fun i => !i.wellFormed) = true := by decide
theorem test_wf_fillRect :
    [Instr.fillRect 32768 0 0 0 true, .fillRect 0 32768 0 0 true, .fillRect 0 0 (-32769) 0 true,
      .fillRect 0 0 0 32768 true].all (fun i => !i.wellFormed) = true := by decide

/-! ### Words written out from the spec (95_test_vectors.md V2) -/

theorem test_decode_nop : decode 0x00_0000_0000_0000_0000#72 = .nop := by decide
theorem test_decode_setPixel : decode 0x18_0003_0005_0000_0000#72 = .setPixel 3 5 true := by decide
/-- `rsv` = 7 and `d` = 0xBEEF are not read (V2, last paragraph). -/
theorem test_decode_setPixel_unread : decode 0x17_0003_0005_0000_BEEF#72 = .setPixel 3 5 false := by decide
theorem test_decode_setPixel_negative : decode 0x10_FFFF_8000_0000_0000#72 = .setPixel (-1) (-32768) false := by decide
theorem test_decode_getPixel : decode 0x20_7FFF_0000_0000_0000#72 = .getPixel 32767 0 := by decide
theorem test_decode_drawLine :
    decode 0x38_FFFB_FFFB_FFFF_FFFE#72 = .drawLine (-5) (-5) (-1) (-2) true := by decide
theorem test_decode_drawFastVline : decode 0x48_0004_0005_FFFD_0000#72 = .drawFastVline 4 5 (-3) true := by decide
theorem test_decode_drawFastHline : decode 0x50_0005_0003_FFFE_0000#72 = .drawFastHline 5 3 (-2) false := by decide
theorem test_decode_fillRect : decode 0x68_0000_0000_0010_0008#72 = .fillRect 0 0 16 8 true := by decide
theorem test_decode_fillScreen : decode 0x78_0000_0000_0000_0000#72 = .fillScreen true := by decide
theorem test_decode_setRotation : decode 0x80_FFFD_0000_0000_0000#72 = .setRotation 1 := by decide
theorem test_decode_clear : decode 0x90_0000_0000_0000_0000#72 = .clear := by decide
theorem test_decode_refresh : decode 0xA0_0000_0000_0000_0000#72 = .refresh := by decide
theorem test_decode_reverseByte : decode 0xB0_1234_0000_0000_0000#72 = .reverseByte 0x34 := by decide
theorem test_decode_reservedC : decode 0xC0_0000_0000_0000_0000#72 = .reservedC := by decide
theorem test_decode_reservedD : decode 0xD0_0000_0000_0000_0000#72 = .reservedD := by decide
theorem test_decode_reservedE : decode 0xE0_0000_0000_0000_0000#72 = .reservedE := by decide
theorem test_decode_reservedF : decode 0xF8_7FFF_0001_0002_0003#72 = .reservedF := by decide

/-- The encoder writes the words of V2. -/
theorem test_encode_words :
    [encode (.drawLine (-5) (-5) (-1) (-2) true), encode (.drawFastVline 4 5 (-3) true),
      encode (.getPixel (-1) 2), encode (.reverseByte 0xA5)] =
    [0x38_FFFB_FFFB_FFFF_FFFE#72, 0x48_0004_0005_FFFD_0000#72, 0x20_FFFF_0002_0000_0000#72,
      0xB0_00A5_0000_0000_0000#72] := by decide

theorem test_table_word : decodeTableWord 72 0x80_0002_0000_0000_0000 = some (.setRotation 2) := by decide
theorem test_table_word_too_long : decodeTableWord 80 0x80_0002_0000_0000_0000 = none := by decide
theorem test_table_word_bit_beyond : decodeTableWord 8 0x100 = none := by decide

/-! ### Small states -/

/-- The state an outcome leaves. -/
def nextOf (o : Host.Outcome State Fault Refusal) : Option State :=
  match o with
  | .next t => some t
  | .fault _ => none
  | .refused _ => none

theorem eq_next_of {o : Host.Outcome State Fault Refusal} {t : State} (h : nextOf o = some t) : o = .next t := by
  cases o with
  | next u => simp only [nextOf, Option.some.injEq] at h; rw [h]
  | fault f => cases h
  | refused r => cases h

/-- A panel after initialisation with an accepting transport (10_state.md R38, second column). -/
def panel (w h : Nat) (mode : BoundsMode) (rot : BitVec 2) : State :=
  { State.resetWith { w := w, h := h, boundsMode := mode, codecImpl := .lut } rot with
    vcom := true, busy := false, seq := .idle }

/-- The 16 x 8 panel of most of 95_test_vectors.md. -/
def wide : State := panel 16 8 .unswapped 0

/-- The 8 x 2 panel of V9 and V10. -/
def small : State := panel 8 2 .unswapped 0

/-- Pins that accept a byte, that reject it with a code, and that give no verdict. -/
def accepting : TxPins := { ready := true, err := false, code := 0 }
def rejecting (c : Byte) : TxPins := { ready := true, err := true, code := c }
def waiting : TxPins := { ready := false, err := false, code := 0 }

/-- `s` with a transport that rests at a level, after the samples listed. -/
def withTransport (script : List TxPins) (level : TxPins) (s : State) : State :=
  { s with txScript := script, pins := { s.pins with tx := level } }

/-- The response and the framebuffer a command leaves. -/
def answer (i : Instr) (s : State) : Option (Option Response × List Nat) :=
  (nextOf (exec i s)).map fun t => (t.rsp, (List.range t.cfg.nb).map fun a => (t.fb.read a).toNat)

/-- The response, the polarity and the events a command leaves. -/
def traffic (i : Instr) (s : State) : Option (Option Response × Bool × List Event) :=
  (nextOf (exec i s)).map fun t => (t.rsp, t.vcom, t.wire)

/-- `STATUS` after a command's response was taken. -/
def statusAfter (i : Instr) (s : State) : Option Nat :=
  (nextOf (exec i s)).map fun t => (takeResponse t).statusReg.toNat

/-! ### Effects (95_test_vectors.md V4 to V12) -/

theorem test_nop : statusAfter .nop wide = some 0x0008 := by decide

/-- V4, row 1. -/
theorem test_setPixel_black :
    answer (.setPixel 3 5 false) wide = some (some ⟨.ok, 0⟩, [255, 255, 255, 255, 255, 255, 255, 255, 255, 255, 0xF7,
      255, 255, 255, 255, 255]) := by decide +kernel

/-- V11, row 12: `x = 9 >= H` under rotation 1. -/
theorem test_setPixel_out_of_buffer : statusAfter (.setPixel 9 2 false) { wide with rot := 1 } = some 0x001A := by
  decide +kernel

/-- V4, row 1: the pixel written reads 0, its neighbour 1. -/
theorem test_getPixel :
    ((answer (.getPixel 3 5) { wide with fb := [(10, 0xF7)] }).map (·.1),
      (answer (.getPixel 4 5) { wide with fb := [(10, 0xF7)] }).map (·.1)) =
    (some (some ⟨.ok, 0⟩), some (some ⟨.ok, 1⟩)) := by decide +kernel

/-- V4, row 6. -/
theorem test_getPixel_out_of_buffer :
    (answer (.getPixel 9 2) { wide with rot := 1 }).map (·.1) = some (some ⟨.outOfBuffer, 0⟩) := by decide +kernel

/-- V6, clipping, row 1. -/
theorem test_drawLine_clipped :
    answer (.drawLine (-2) (-1) 3 1 false) wide = some (some ⟨.ok, 0⟩, [0xFC, 255, 0xF3, 255, 255, 255, 255, 255, 255,
      255, 255, 255, 255, 255, 255, 255]) := by decide +kernel

/-- V6, octant 3. -/
theorem test_drawLine_octant_3 :
    linePoints 8 8 6 13 = [(8, 8), (8, 9), (7, 10), (7, 11), (6, 12), (6, 13)] := by decide +kernel

/-- V7, framebuffer results, row 2. -/
theorem test_drawFastVline :
    answer (.drawFastVline 4 1 3 false) wide = some (some ⟨.ok, 0⟩, [255, 255, 0xEF, 255, 0xEF, 255, 0xEF, 255, 255,
      255, 255, 255, 255, 255, 255, 255]) := by decide +kernel

/-- V7: a negative height. -/
theorem test_drawFastVline_negative : vPath 4 5 (-3) = [(4, 1), (4, 2), (4, 3), (4, 4), (4, 5)] := by decide +kernel

/-- V7, framebuffer results, row 1. -/
theorem test_drawFastHline :
    answer (.drawFastHline 2 3 5 false) wide = some (some ⟨.ok, 0⟩, [255, 255, 255, 255, 255, 255, 0x83, 255, 255,
      255, 255, 255, 255, 255, 255, 255]) := by decide +kernel

/-- V7: a zero width writes two points. -/
theorem test_drawFastHline_zero : hPath 2 3 0 = [(1, 3), (2, 3)] := by decide +kernel

/-- V7, framebuffer results, row 5. -/
theorem test_fillRect :
    answer (.fillRect 6 6 4 4 false) wide = some (some ⟨.ok, 0⟩, [255, 255, 255, 255, 255, 255, 255, 255, 255, 255,
      255, 255, 0x3F, 0xFC, 0x3F, 0xFC]) := by decide +kernel

/-- V7: a negative height, and a width of zero. -/
theorem test_fillRect_points :
    rectPath 1 3 2 (-1) = [(1, 1), (1, 2), (1, 3), (2, 1), (2, 2), (2, 3)] ∧ rectPath 1 1 0 3 = [] := by
  decide +kernel

/-- V8, 8x16 unswapped, rotation 3. -/
theorem test_fillScreen_out_of_buffer :
    answer (.fillScreen false) (panel 8 16 .unswapped 3) = some (some ⟨.outOfBuffer, 0⟩, [255, 255, 255, 255, 255, 255,
      255, 255, 0, 0, 0, 0, 0, 0, 0, 0]) := by decide +kernel

/-- V8, 16x8 swapped, rotation 1. -/
theorem test_fillScreen_swapped :
    answer (.fillScreen false) (panel 16 8 .swapped 1) = some (some ⟨.ok, 0⟩, List.replicate 16 0) := by decide +kernel

/-- V11, row 8. -/
theorem test_setRotation : statusAfter (.setRotation 1) { wide with rot := 2 } = some 0x000A := by decide

/-- V9, row 1. -/
theorem test_clear :
    traffic .clear { small with fb := [(0, 0x12)] } = some (some ⟨.ok, 2⟩, false,
      [.sel true, .byte 0x60 .accepted, .byte 0x00 .accepted, .sel false]) := by decide +kernel

/-- V10, row 2. -/
theorem test_clear_rejected :
    traffic .clear (withTransport [accepting] (rejecting 5) small) = some (some ⟨.transportError, 0x05000001⟩, false,
      [.sel true, .byte 0x60 .accepted, .byte 0x00 (.rejected 5), .sel false]) := by decide +kernel

/-- V9, last row. -/
theorem test_refresh :
    traffic .refresh { panel 16 3 .unswapped 0 with fb := [(0, 0xFE), (3, 0x7F), (5, 0xFD)] } =
      some (some ⟨.ok, 14⟩, false, .sel true :: acceptedEvents
        [0xC0, 0x80, 0x7F, 0xFF, 0x00, 0x40, 0xFF, 0xFE, 0x00, 0xC0, 0xFF, 0xBF, 0x00, 0x00] ++ [.sel false]) := by
  decide +kernel

/-- V10, row 4. -/
theorem test_refresh_rejected :
    traffic .refresh (withTransport [accepting, waiting, accepting, accepting] (rejecting 5) small) =
      some (some ⟨.transportError, 0x05000003⟩, false, [.sel true, .byte 0xC0 .accepted, .byte 0x80 .accepted,
        .byte 0xFF .accepted, .byte 0x00 (.rejected 5), .sel false]) := by decide +kernel

/-- V11, row 3. -/
theorem test_reverseByte : (answer (.reverseByte 0x34) small).map (·.1) = some (some ⟨.ok, 0x2C⟩) := by decide +kernel

/-- V11, rows 9 and 10. -/
theorem test_reserved :
    [.reservedC, .reservedD, .reservedE, .reservedF].map (fun i => statusAfter i { wide with rot := 1 }) =
      List.replicate 4 (some 0x002A) := by decide

/-- V12, row 1, from `State.reset`. -/
theorem test_reset_clear :
    (nextOf (step State.reset)).map (fun t => (t.wire, t.statusReg.toNat)) =
      some ([.sel true, .byte 0x20 .accepted, .byte 0x00 .accepted, .sel false], 0x0008) := by decide +kernel

/-- V12, row 3. -/
theorem test_reset_clear_rejected :
    (nextOf (step (withTransport [] (rejecting 9) State.reset))).map (fun t => (t.wire, t.statusReg.toNat)) =
      some ([.sel true, .byte 0x20 (.rejected 9), .sel false], 0x0048) := by decide +kernel

/-- The host's word is the first command a step executes. -/
theorem test_withFetchWord :
    (nextOf (step (State.reset.withFetchWord 72 0x80_0003_0000_0000_0000))).map (fun t => (t.rot, t.rsp)) =
      some (3, some ⟨.ok, 0⟩) := by decide

/-! ### Witnesses: states and operands that meet each statement's hypotheses -/

/-- A CLEAR in progress whose transport accepted one byte and gives no verdict on the next. -/
def clearWaiting : State :=
  { withTransport [] waiting small with
    busy := true
    cs := true
    seq := .transaction { op := .clear, pending := [0x00], accepted := 1 }
    wire := [.sel true, .byte 0x60 .accepted] }

/-- A response on offer that the host does not take, and one that it takes. -/
def responding (take : Bool) : State :=
  { small with busy := true, rsp := some ⟨.outOfBuffer, 0⟩, oobS := true, pins := { small.pins with rspReady := take } }

/-- `s` with `rst` at 1. -/
def inReset (s : State) : State := { s with pins := { s.pins with rst := true } }

theorem witness_DecodeOfEncode : (Instr.drawLine (-32768) 32767 32767 (-32768) true).wellFormed = true := by decide

/-- Every opcode, with all other bits 0 and with all other bits 1. -/
theorem witness_opcodes :
    (List.range 16).all (fun n =>
      (BitVec.ofNat 72 (n * 2 ^ 68)).extractLsb' 68 4 == BitVec.ofNat 4 n &&
      (BitVec.ofNat 72 (n * 2 ^ 68 + (2 ^ 68 - 1))).extractLsb' 68 4 == BitVec.ofNat 4 n) = true := by decide +kernel

/-- A ready core with a word on its command port. -/
def offering : State := { small with hostCmds := [0x10_0003_0000_0000_0000#72] }

theorem witness_StepRunsOfferedCommand :
    offering.cfg.legal = true ∧ offering.pins.rst = false ∧ offering.seq = .idle ∧ offering.rsp = none ∧
      offering.busy = false ∧ offering.hostCmds = [0x10_0003_0000_0000_0000#72] := by decide

theorem witness_IdleCoreKeepsItsState :
    small.cfg.legal = true ∧ small.pins.rst = false ∧ small.seq = .idle ∧ small.rsp = none ∧ small.hostCmds = [] := by
  decide

theorem witness_ResponseIsHeldUntilTaken :
    [true, false].all (fun b =>
      (responding b).cfg.legal && !(responding b).pins.rst && (responding b).seq == .idle &&
        (responding b).rsp.isSome && (responding b).pins.rspReady == b) = true := by decide

/-- The extremes of the legal parameters, and their neighbours on each side (00_scope.md R6). -/
theorem witness_IllegalParametersAreRefused :
    [(8, 1), (32760, 255)].all (fun p => Config.legal ⟨p.1, p.2, .swapped, .lut⟩) = true ∧
    [(0, 1), (4, 1), (12, 1), (32768, 1), (8, 0), (8, 256)].all
      (fun p => !Config.legal ⟨p.1, p.2, .swapped, .lut⟩) = true := by decide

theorem witness_IllegalParametersAreRefused_side :
    (8 ∣ 32760 ∧ 8 ≤ 32760 ∧ 32760 ≤ 32760 ∧ 1 ≤ 255 ∧ 255 ≤ 255) ∧
      ¬ (8 ∣ 12 ∧ 8 ≤ 12 ∧ 12 ≤ 32760 ∧ 1 ≤ 1 ∧ 1 ≤ 255) := by decide

/-- `GeometryIsImmutable`, `OnlyDrawingAndClearWriteFramebuffer`, `OnlyTransactionsReachTheWire`,
`NoCommandReadsStickyBits`: a command that is none of those they leave out. -/
theorem witness_exec_nop :
    exec .nop { small with oobS := true, illS := true, txeS := true } =
      .next { small with oobS := true, illS := true, txeS := true, busy := true, rsp := some ⟨.ok, 0⟩ } :=
  eq_next_of (by decide)

/-- `GeometryIsImmutable`, second part, `StepKeepsCoreInvariant`: a step that answers. -/
theorem witness_step_waiting : step clearWaiting = .next clearWaiting := eq_next_of (by decide)

/-- `StepKeepsCoreInvariant`, `ByteOfferedOnlyWhenSelected`: the invariant holds of a core that waits on its transport,
with a byte on offer. -/
theorem witness_CoreInvariant : CoreInvariant clearWaiting ∧ clearWaiting.txValid = true := by
  refine ⟨⟨by decide, by decide, by decide, ?_, ?_, by decide, ?_, by decide⟩, by decide⟩
  · exact ⟨fun _ => ⟨_, rfl⟩, fun _ => rfl⟩
  · exact ⟨fun _ => Or.inl (by decide), fun _ => rfl⟩
  · rintro t h
    cases h
    exact ⟨by decide, by decide⟩

/-- `StickyBitsStaySet`: a step out of reset with a sticky bit set, and a step in reset. -/
theorem witness_StickyBitsStaySet :
    ((responding false).pins.rst = false ∧ (responding false).oobS = true ∧
      step (responding false) = .next (responding false)) ∧
    ((inReset (responding false)).pins.rst = true ∧
      step (inReset (responding false)) = .next (resetEdge (inReset (responding false)))) := by
  exact ⟨⟨rfl, rfl, eq_next_of (by decide)⟩, rfl, eq_next_of (by decide)⟩

/-- `FamiliesRaiseTheirOwnExceptions`: from no response to each of the four statuses. -/
theorem witness_FamiliesRaiseTheirOwnExceptions :
    small.rsp = none ∧
    [(Instr.nop, small), (.fillScreen true, panel 8 16 .unswapped 1), (.refresh, withTransport [] (rejecting 1) small),
      (.reservedE, small)].map (fun p => (nextOf (exec p.1 p.2)).bind fun t => t.rsp.map fun r => r.status) =
    [some .ok, some .outOfBuffer, some .transportError, some .illegalCommand] := by decide +kernel

/-- `ResetEdgeLoadsAndAbandons`, `ResetCutsTransactionShort`, `ResetThenInitialisationValues`: reset comes while a transaction waits. -/
theorem witness_ResetEdgeLoadsAndAbandons :
    (inReset clearWaiting).cfg.legal = true ∧ (inReset clearWaiting).pins.rst = true ∧
      (inReset clearWaiting).cs = true := by decide

/-- `ResetTimeClearRunsOnce`, with the three ways of the transport below. -/
theorem witness_ResetTimeClearRunsOnce :
    State.reset.cfg.legal = true ∧ State.reset.pins.rst = false ∧ State.reset.seq = .resetClear ∧
      State.reset.vcom = false := by decide

/-- The transport's three ways, for any number of bytes: a level that accepts, one that rejects, one that waits. -/
theorem witness_TransportAccepts (s : State) (n : Nat) (hn : 0 < n) : TransportAccepts (withTransport [] accepting s) n [] :=
  Or.inr ⟨0, hn, rfl, rfl, rfl⟩

theorem witness_TransportRejects (s : State) (n : Nat) (c : Byte) (hn : 0 < n) :
    TransportRejects (withTransport [] (rejecting c) s) n 0 c [] :=
  ⟨hn, Or.inr ⟨rfl, rfl, rfl⟩⟩

theorem witness_TransportWaits (s : State) (n : Nat) (hn : 0 < n) : TransportWaits (withTransport [] waiting s) n 0 :=
  ⟨hn, rfl, rfl⟩

/-- The same, for two bytes, through listed samples: waits between verdicts, a sample left over, the last byte
rejected, the last byte waiting. -/
theorem witness_transport_samples :
    TransportAccepts (withTransport [waiting, accepting, accepting, waiting] waiting small) 2 [waiting] ∧
    TransportRejects (withTransport [accepting, waiting, rejecting 7, accepting] waiting small) 2 1 7 [accepting] ∧
    TransportWaits (withTransport [accepting, waiting] waiting small) 2 1 := by
  refine ⟨Or.inl ⟨[waiting, accepting, accepting], rfl, by decide, ?_⟩,
    ⟨by decide, Or.inl ⟨[accepting, waiting], rejecting 7, rfl, by decide, by decide⟩⟩, by decide, by decide, by decide⟩
  intro p hp
  cases hp
  decide

/-- `ResetThenInitialisationValues`: the state its clauses speak of meets a transport that accepts and one that
rejects. -/
theorem witness_ResetThenInitialisationValues :
    (∃ rest, TransportAccepts (withTransport [] accepting (resetEdge (inReset clearWaiting))) 2 rest) ∧
    (∃ k c rest, TransportRejects (withTransport [] (rejecting 9) (resetEdge (inReset clearWaiting))) 2 k c rest) :=
  ⟨⟨_, witness_TransportAccepts _ 2 (by decide)⟩, _, _, _, witness_TransportRejects _ 2 9 (by decide)⟩

/-- `PixelsAreRowMajor`, `RefreshCarriesEachPixel`: the last pixel of the panel. -/
theorem witness_PixelsAreRowMajor :
    wide.cfg.legal = true ∧ (15 < wide.cfg.w) ∧ (7 < wide.cfg.h) ∧
      byteIndex wide.cfg 15 7 = byteIndex wide.cfg 8 7 := by decide

theorem witness_NoAccessOutsideFramebuffer : locate wide.cfg 2 0 0 = .cell 15 7 := by decide

/-- `OutOfBufferExactlyInBand`: both sides of the band's edge, rotations 1 and 3, each shape of panel (V3), and the
panels without a band. -/
theorem witness_OutOfBufferExactlyInBand :
    [(16, 8, 1, 8, 0, true), (16, 8, 3, 7, 7, false), (8, 16, 3, 0, 8, true), (8, 16, 1, 7, 7, false)].all
      (fun (w, h, r, x, y, o) =>
        Config.legal ⟨w, h, .unswapped, .lut⟩ && w != h &&
          (locate ⟨w, h, .unswapped, .lut⟩ (BitVec.ofNat 2 r) (Int.ofNat x) (Int.ofNat y)).isOob == o) = true ∧
    hasBand wide.cfg 1 ∧ ¬ hasBand (panel 16 8 .swapped 1).cfg 1 := by
  unfold hasBand; decide +kernel

/-- `OutOfBufferExactlyInBand`, clipped and stored points: the edges of each extent, the band's panel among them (V3). -/
theorem test_locate_clip :
    [locate wide.cfg 1 16 0, locate wide.cfg 1 0 8, locate wide.cfg 1 (-1) 0,
      locate (panel 16 8 .swapped 1).cfg 1 8 0, locate (panel 16 8 .swapped 1).cfg 1 7 15] =
    [.clip, .clip, .clip, .clip, .cell 14 0] ∧ (locate wide.cfg 1 15 7).isOob = true := by decide

/-- The premises of the painting statements, with points that are clipped, out of buffer and stored. -/
theorem witness_painting :
    wide.cfg.legal = true ∧ { wide with fb := [(3, 0x00), (15, 0xFE)] }.fb.wf = true ∧
      locate wide.cfg 1 (-1) 0 = .clip ∧ (locate wide.cfg 1 8 0).isOob = true ∧ locate wide.cfg 1 7 7 = .cell 15 0 := by
  decide

/-- `WrittenPixelReadsBack`: in range and stored, under rotation 0; in range and out of buffer, under rotation 1. -/
theorem witness_WrittenPixelReadsBack :
    inRange wide.cfg 0 15 7 = true ∧ wide.rot = 0 ∧ wide.storedAt (15, 7) 15 7 ∧
      inRange wide.cfg 1 15 7 = true ∧ { wide with rot := 1 }.oobAt (15, 7) := by
  refine ⟨by decide, rfl, by unfold State.storedAt; decide, by decide, by unfold State.oobAt; decide⟩

/-- `RasterizerJoinsItsEndpoints`, `AccumulatorStaysInRange`: a flat line (the 45-degree one) and a steep one, with
neighbouring points, and a loop with `dx > 0`. -/
theorem witness_RasterizerJoinsItsEndpoints :
    ¬ (|(3 : Int) - 0| < |(0 : Int) - 3|) ∧ (bres 0 3 3 0)[2]? = some (2, 1) ∧ (bres 0 3 3 0)[3]? = some (3, 0) ∧
      (|(6 : Int) - 8| < |(13 : Int) - 8|) ∧ (bres 8 8 6 13)[0]? = some (8, 8) ∧ (bres 8 8 6 13)[1]? = some (8, 9) ∧
      0 < (rasterStart 8 8 6 13).dx := by decide +kernel

/-- `AccumulatorStaysInRange`: point 3 of a flat line (V6, `dx` = 4, `dy` = 1) after one minor step, and point 2 of a
steep one that goes back (V6, octant 3). -/
theorem witness_AccumulatorStaysInRange :
    ¬ (|(4 : Int) - 0| < |(1 : Int) - 0|) ∧ (bres 0 0 4 1)[3]? = some (0 + 3, 0 + 1 * 1) ∧ (0 : Int) ≠ 4 ∧
      (|(6 : Int) - 8| < |(13 : Int) - 8|) ∧ (bres 8 8 6 13)[2]? = some (8 + -1 * 1, 8 + 2) := by decide +kernel

theorem witness_RectangleVisitsEachPointOnce : rectPath 3 3 1 1 = [(3, 3)] ∧ (1 : Int) ≤ 1 := by decide +kernel

/-- `FillScreenReachesItsPart`: a state for each of its two clauses, and a pixel read back. -/
theorem witness_FillScreenReachesItsPart :
    (panel 8 8 .unswapped 3).cfg.legal = true ∧ (panel 8 8 .unswapped 3).fb.wf = true ∧
      (panel 8 8 .unswapped 3).cfg.w = (panel 8 8 .unswapped 3).cfg.h ∧
      inRange (panel 8 8 .unswapped 3).cfg 3 7 7 = true ∧
      (panel 8 16 .unswapped 3).cfg.legal = true ∧
      hasBand (panel 8 16 .unswapped 3).cfg (panel 8 16 .unswapped 3).rot := by unfold hasBand; decide

/-- `CodecReversesBits`, `CodecLaws`: the extreme bit positions; two equal reversals; a byte that is its own. -/
theorem witness_codec : (0x80#8).getLsbD (7 - 0) = true ∧ (codec .lut 0x01#8) = 0x80#8 ∧ rev8 0x18#8 = 0x18#8 := by
  decide

/-- `RefreshLength`: the largest panel. -/
theorem witness_RefreshLength : Config.legal ⟨32760, 255, .unswapped, .combinational⟩ = true := by decide

/-- `ClearFillsAndTransacts`, `RefreshSendsTheFrame`: each way of the transport, for the bytes of each. -/
theorem witness_transactions :
    (withTransport [] accepting small).cfg.legal = true ∧ TransportAccepts (withTransport [] accepting small) 2 [] ∧
      TransportRejects (withTransport [] (rejecting 5) small) 2 0 5 [] ∧
      TransportWaits (withTransport [] waiting small) 2 0 ∧ 0 < (refreshFormat true small.cfg small.fb).length :=
  ⟨by decide, witness_TransportAccepts small 2 (by decide), witness_TransportRejects small 2 5 (by decide),
    witness_TransportWaits small 2 (by decide), by decide⟩

/-- `WaitingTransactionGoesOn`, `WaitingIsUnobservable`: a transaction that waits. -/
theorem witness_WaitingTransactionGoesOn :
    clearWaiting.cfg.legal = true ∧ clearWaiting.pins.rst = false ∧
      clearWaiting.seq = .transaction { op := .clear, pending := [0x00], accepted := 1 } ∧ [(0x00 : Byte)] ≠ [] ∧
      clearWaiting.pins.tx.verdict = none := by decide

/-- `AnsweringTransportEndsTransactions`: a waiting transaction and a level that accepts. -/
theorem witness_AnsweringTransportEndsTransactions :
    (withTransport [waiting] accepting clearWaiting).cfg.legal = true ∧
      (withTransport [waiting] accepting clearWaiting).pins.tx.verdict ≠ none ∧
      (withTransport [waiting] accepting clearWaiting).pins.rst = false ∧
      (withTransport [waiting] accepting clearWaiting).seq =
        .transaction { op := .clear, pending := [0x00], accepted := 1 } := by decide

/-- `PolarityAlternates`: a Clear and a Refresh that end, a Clear that waits, the reset-time Clear. -/
theorem witness_PolarityAlternates :
    [(nextOf (exec .refresh small)).map (·.vcom), (nextOf (exec .clear small)).map (·.vcom),
      (nextOf (step clearWaiting)).map (·.vcom), (nextOf (step State.reset)).map (·.vcom)] =
    [some false, some false, some true, some true] := by decide +kernel

/-- `ReservedOpcodesRaiseIllegalCommand`: the words on both sides of the boundary 0xC, and a command below it that
answers. -/
theorem witness_ReservedOpcodesRaiseIllegalCommand :
    0xC#4 ≤ (0xC00000000000000000#72).extractLsb' 68 4 ∧ (0xBFFFFFFFFFFFFFFFFF#72).extractLsb' 68 4 < 0xC#4 ∧
      (nextOf (exec (decode 0xBFFFFFFFFFFFFFFFFF#72) small)).isSome = true := by decide +kernel

/-- `StatusRegisterFields`: a response of each status on offer, none on offer, `rst` at 0 and at 1. -/
theorem witness_StatusRegisterFields :
    [Status.ok, .illegalCommand, .outOfBuffer, .transportError].map
      (fun st => { small with rsp := some ⟨st, 7⟩ }.rspStatus) = [some 0, some 1, some 2, some 3] ∧
    small.rsp = none ∧ small.pins.rst = false ∧ (inReset small).pins.rst = true := by decide

/-- What the pins mean at an edge (44_wire.md R161): an error code counts whether or not `tx_ready` is 1. -/
theorem test_verdict :
    [{ ready := true, err := true, code := 9 }, { ready := false, err := true, code := 9 },
      { ready := true, err := false, code := 9 }, { ready := false, err := false, code := 9 : TxPins }].map
      TxPins.verdict = [some (.rejected 9), some (.rejected 9), some .accepted, none] := by decide

/-- `UnfaultedCommandsRaisedNothing`: from an unfaulted state, commands that leave one and commands that do not, an
out-of-buffer point and a rejected byte among them. -/
theorem witness_UnfaultedCommandsRaisedNothing :
    small.faulted = false ∧
    [(Instr.nop, small), (.setPixel 7 7 true, panel 16 8 .unswapped 1), (.setPixel 8 7 true, panel 16 8 .unswapped 1),
      (.fillScreen true, panel 16 8 .swapped 1), (.fillScreen true, panel 16 8 .unswapped 1),
      (.clear, withTransport [accepting, accepting] (rejecting 1) small), (.clear, withTransport [] (rejecting 1) small),
      (.reservedC, small)].map (fun p => (nextOf (exec p.1 p.2)).map State.faulted) =
    [some false, some false, some true, some false, some true, some false, some true, some true] := by decide +kernel

/-- `UnfaultedRunRaisedNothing`: three steps from the reset state with a command offered, none of which raises an
exception, so that the run's last state is unfaulted. -/
theorem witness_UnfaultedRunRaisedNothing :
    State.reset.pins.rst = false ∧ State.reset.rsp = none ∧
    (nextOf (Host.Core.run core 3 { State.reset with hostCmds := [0xA0_0000_0000_0000_0000#72] })).map State.faulted =
      some false := by decide +kernel

/-- `UnfaultedCommandsKeepTheirClaims`: commands that leave no sticky bit set, one of each kind of claim: a point stored, a
point clipped, a point inside the buffer on a panel with a band, a read of each, a Clear and a Refresh that end, a Clear
that waits. -/
theorem witness_UnfaultedCommandsKeepTheirClaims :
    wide.fb.wf = true ∧ (panel 16 8 .unswapped 1).fb.wf = true ∧ small.fb.wf = true ∧
    [(Instr.setPixel 3 5 false, wide), (.setPixel 16 5 false, wide), (.drawLine 0 0 7 7 false, panel 16 8 .unswapped 1),
      (.fillRect 0 0 8 8 false, panel 16 8 .unswapped 1), (.getPixel 3 5, wide), (.getPixel 16 5, wide),
      (.clear, small), (.refresh, small), (.clear, withTransport [accepting] waiting small)].map
      (fun p => (nextOf (exec p.1 p.2)).map fun t => (t.faulted, t.cs)) =
    [some (false, false), some (false, false), some (false, false), some (false, false), some (false, false),
      some (false, false), some (false, false), some (false, false), some (false, true)] := by decide +kernel

/-- `UnfaultedReadsReturnWhatWasWritten`: a pixel written and read under rotation 1, on a panel with a band; a screen
filled on a square panel under rotation 3, with an in-range point. -/
theorem witness_UnfaultedReadsReturnWhatWasWritten :
    inRange (panel 16 8 .unswapped 1).cfg 1 7 7 = true ∧
    (((nextOf (exec (.setPixel 7 7 false) (panel 16 8 .unswapped 1))).bind fun t =>
      nextOf (exec (.getPixel 7 7) (takeResponse t))).map State.faulted) = some false ∧
    (nextOf (exec (.fillScreen false) (panel 8 8 .unswapped 3))).map State.faulted = some false ∧
    (panel 8 8 .unswapped 3).fb.wf = true ∧ inRange (panel 8 8 .unswapped 3).cfg 3 7 0 = true := by decide +kernel

end Sys2Proof.Tests
end

section
/-!
PROOFS. The scope of the model (00_scope.md): which parameters the core runs with (R7), and what geometry a command and
a step leave alone (R8).
-/

namespace Sys2Proof.Machine

/-! ### Refusal and totality (00_scope.md R6, R7) -/

/-- The legality check decides the legal values as 00_scope.md R6 writes them. -/
theorem legal_iff_dvd (c : Config) :
    c.legal = true ↔ 8 ∣ c.w ∧ 8 ≤ c.w ∧ c.w ≤ 32760 ∧ 1 ≤ c.h ∧ c.h ≤ 255 := by
  rw [legal_iff, Nat.dvd_iff_mod_eq_zero]

theorem draw_answers {s : State} (hl : s.cfg.legal = true) (col : Bool) (pts : List Point) :
    ∃ t, draw col pts s = .ok t := by
  obtain ⟨m, h, -⟩ := draw_spec hl col pts
  exact ⟨_, h⟩

theorem readPixel_answers {r : Run} (hl : r.s.cfg.legal = true) (x y : Int) : ∃ q, readPixel r x y = .ok q := by
  rcases readPixel_cases hl x y with ⟨-, h⟩ | ⟨-, h⟩ | ⟨a, p, -, -, -, h⟩ <;> exact ⟨_, h⟩

theorem refreshOp_answers {s : State} (hl : s.cfg.legal = true) : ∃ t, refreshOp s = .ok t := by
  simp [refreshOp, refreshBytes_eq hl, Except.map]

/-- Every command is the guard `command` around a body that accesses the framebuffer inside its bounds only, so that it
answers whenever the parameters are legal (20_memory.md R52). -/
theorem exec_eq_command (i : Instr) :
    ∃ body : State → Access State, (∀ s, exec i s = command s body) ∧
      ∀ s : State, s.cfg.legal = true → ∃ t, body s = .ok t := by
  cases i <;>
    simp only [exec, execNop, execSetPixel, execGetPixel, execDrawLine, execDrawFastVline, execDrawFastHline,
      execFillRect, execFillScreen, execSetRotation, execClear, execRefresh, execReverseByte, execReservedC,
      execReservedD, execReservedE, execReservedF] <;>
    refine ⟨_, fun _ => rfl, fun s hl => ?_⟩
  case setPixel => exact draw_answers hl _ _
  case drawLine => exact draw_answers hl _ _
  case drawFastVline => exact draw_answers hl _ _
  case drawFastHline => exact draw_answers hl _ _
  case fillRect => exact draw_answers hl _ _
  case fillScreen => exact draw_answers hl _ _
  case getPixel x y =>
    obtain ⟨q, hq⟩ := readPixel_answers (r := { s := s, st := .ok }) hl x y
    simp [hq, Except.map]
  case refresh => exact refreshOp_answers hl
  all_goals exact ⟨_, rfl⟩

theorem exec_of_illegal {s : State} (hl : s.cfg.legal = false) (i : Instr) :
    exec i s = .refused .illegalConfiguration := by
  obtain ⟨body, hexec, -⟩ := exec_eq_command i
  rw [hexec, command_of_illegal hl]

theorem exec_answers_of_legal {s : State} (hl : s.cfg.legal = true) (i : Instr) : ∃ t, exec i s = .next t := by
  obtain ⟨body, hexec, hbody⟩ := exec_eq_command i
  obtain ⟨t, ht⟩ := hbody { s with busy := true } hl
  exact ⟨t, by rw [hexec, command_of_ok hl ht]⟩

theorem step_of_illegal {s : State} (hl : s.cfg.legal = false) : step s = .refused .illegalConfiguration := by
  simp [step, coreEdge, hl]

theorem commandEdge_answers {s : State} (hl : s.cfg.legal = true) : ∃ t, commandEdge s = .next t := by
  unfold commandEdge
  split
  · split
    · next w _ => exact exec_answers_of_legal (s := s.popCommand) hl (decode w)
    · exact ⟨s, rfl⟩
  · exact ⟨s, rfl⟩

theorem runningEdge_answers {s : State} (hl : s.cfg.legal = true) : ∃ t, runningEdge s = .next t := by
  unfold runningEdge
  cases s.seq with
  | resetClear => exact ⟨_, rfl⟩
  | transaction x => exact ⟨_, rfl⟩
  | idle =>
    dsimp only
    split
    · exact ⟨_, rfl⟩
    · exact commandEdge_answers hl

theorem step_answers_of_legal {s : State} (hl : s.cfg.legal = true) : ∃ t, step s = .next t := by
  rw [step, coreEdge, if_pos hl]
  split
  · exact ⟨_, rfl⟩
  · exact runningEdge_answers hl

/-! ### The geometry a command and a step keep (00_scope.md R8) -/

/-- The transport's answers reach neither the parameters nor the rotation. -/
theorem carryOn_geometry (x : Tx) (s : State) : (carryOn x s).cfg = s.cfg ∧ (carryOn x s).rot = s.rot := by
  rcases carryOn_cases x s _ rfl with ⟨-, h⟩ | ⟨-, -, h⟩ <;> rw [h] <;> exact ⟨rfl, rfl⟩

theorem clearOp_geometry (op : TxOp) (s : State) : (clearOp op s).cfg = s.cfg ∧ (clearOp op s).rot = s.rot :=
  carryOn_geometry _ _

theorem Draws.geometry {col : Bool} {pts : List Point} {s t : State} (h : Draws col pts s t) :
    t.cfg = s.cfg ∧ t.rot = s.rot := by
  obtain ⟨m, rfl, -⟩ := h
  exact ⟨rfl, rfl⟩

/-- SET_ROTATION is the only command that changes a part of the geometry, the rotation (45_control.md R192). -/
theorem Answers.geometry {i : Instr} {s t : State} (h : Answers i s t) :
    t.cfg = s.cfg ∧ ((∀ r, i ≠ .setRotation r) → t.rot = s.rot) := by
  have keeps : t.cfg = s.cfg ∧ t.rot = s.rot → t.cfg = s.cfg ∧ ((∀ r, i ≠ .setRotation r) → t.rot = s.rot) :=
    fun ⟨hcfg, hrot⟩ => ⟨hcfg, fun _ => hrot⟩
  cases i with
  | setRotation r => subst h; exact ⟨rfl, fun hne => absurd rfl (hne r)⟩
  | setPixel x y col => exact keeps (Draws.geometry h)
  | drawLine x0 y0 x1 y1 col => exact keeps (Draws.geometry h)
  | drawFastVline x y h' col => exact keeps (Draws.geometry h)
  | drawFastHline x y w col => exact keeps (Draws.geometry h)
  | fillRect x y w h' col => exact keeps (Draws.geometry h)
  | fillScreen col => exact keeps (Draws.geometry h)
  | clear => subst h; exact keeps (clearOp_geometry _ _)
  | refresh => subst h; exact keeps (carryOn_geometry _ _)
  | nop => subst h; exact keeps ⟨rfl, rfl⟩
  | getPixel x y => subst h; exact keeps ⟨rfl, rfl⟩
  | reverseByte v => subst h; exact keeps ⟨rfl, rfl⟩
  | reservedC => subst h; exact keeps ⟨rfl, rfl⟩
  | reservedD => subst h; exact keeps ⟨rfl, rfl⟩
  | reservedE => subst h; exact keeps ⟨rfl, rfl⟩
  | reservedF => subst h; exact keeps ⟨rfl, rfl⟩

theorem exec_cfg {i : Instr} {s t : State} (h : exec i s = .next t) : t.cfg = s.cfg :=
  (exec_answers h).2.geometry.1

theorem exec_rot {i : Instr} {s t : State} (h : exec i s = .next t) (hne : ∀ r, i ≠ .setRotation r) : t.rot = s.rot :=
  (exec_answers h).2.geometry.2 hne

theorem responseEdge_cfg (s : State) : (responseEdge s).cfg = s.cfg := by
  unfold responseEdge; split <;> rfl

theorem step_cfg {s t : State} (h : step s = .next t) : t.cfg = s.cfg := by
  obtain ⟨-, h⟩ := step_cases h
  rcases h with ⟨-, rfl⟩ | ⟨-, -, rfl⟩ | ⟨-, x, -, rfl⟩ | ⟨-, -, -, rfl⟩ | ⟨-, -, -, -, w, rest, -, h⟩ | ⟨-, -, -, -, rfl⟩
  · exact resetEdge_cfg s
  · exact (clearOp_geometry .resetClear s).1
  · exact (carryOn_geometry x s).1
  · exact responseEdge_cfg s
  · exact exec_cfg (s := s.popCommand) h
  · rfl

/-! ### The obligations -/

/-- Settles O9: illegal parameters stop `step` and the guard of every command; legal ones leave neither a fault nor a
refusal to answer. -/
theorem illegalParametersAreRefused : Obligations.IllegalParametersAreRefused := by
  intro s
  rw [← legal_iff_dvd]
  refine ⟨fun hl => ?_, fun hl => ⟨step_answers_of_legal hl, exec_answers_of_legal hl⟩⟩
  have hl : s.cfg.legal = false := Bool.eq_false_of_not_eq_true hl
  exact ⟨step_of_illegal hl, exec_of_illegal hl⟩

/-- Settles O10, from the inversions of `exec` and of `step`. -/
theorem geometryIsImmutable : Obligations.GeometryIsImmutable :=
  ⟨fun _ _ _ h => ⟨exec_cfg h, exec_rot h⟩, fun _ _ h => step_cfg h⟩

end Sys2Proof.Machine
end

section
/-!
PROOFS. The state's own rules (10_state.md): no command reads a sticky bit (R31), and what every element holds right
after reset and after initialisation (R38).
-/

namespace Sys2Proof.Machine

/-! ### States and results that differ only in the sticky bits (10_state.md R31) -/

/-- `t` is `s` but for the three sticky bits. -/
def SameButSticky (s t : State) : Prop := t = { s with oobS := t.oobS, illS := t.illS, txeS := t.txeS }

theorem sameButSticky_iff {s t : State} :
    SameButSticky s t ↔ ∃ o x e, t = { s with oobS := o, illS := x, txeS := e } :=
  ⟨fun h => ⟨_, _, _, h⟩, by rintro ⟨o, x, e, rfl⟩; rfl⟩

/-- Two commands in execution that differ only in the sticky bits: the status so far is the same. -/
def SameRunButSticky (r r' : Run) : Prop := SameButSticky r.s r'.s ∧ r'.st = r.st

/-- When the first access answers, so does the second, with a result that `R` relates to the first one's. -/
def AnswersAlike {α : Type} (R : α → α → Prop) (a b : Access α) : Prop :=
  ∀ x, a = .ok x → ∃ y, b = .ok y ∧ R x y

theorem answersAlike_ok {α : Type} {R : α → α → Prop} {x y : α} (h : R x y) : AnswersAlike R (.ok x) (.ok y) := by
  rintro _ ⟨⟩
  exact ⟨y, rfl, h⟩

theorem AnswersAlike.map {α β : Type} {R : α → α → Prop} {Q : β → β → Prop} {a b : Access α} {f g : α → β}
    (h : AnswersAlike R a b) (hfg : ∀ x y, R x y → Q (f x) (g y)) : AnswersAlike Q (a.map f) (b.map g) := by
  intro z hz
  cases a with
  | error _ => cases hz
  | ok x =>
    cases hz
    obtain ⟨y, rfl, hxy⟩ := h x rfl
    exact ⟨g y, rfl, hfg x y hxy⟩

/-- The operation `f` does not depend on the sticky bits: it takes states that differ only there to such states. -/
def IgnoresSticky (f : State → State) : Prop := ∀ s s', SameButSticky s s' → SameButSticky (f s) (f s')

/-- The body of a command does not depend on the sticky bits, for the parameters a core exists for. -/
def BodyIgnoresSticky (body : State → Access State) : Prop :=
  ∀ s s', s.cfg.legal = true → SameButSticky s s' → AnswersAlike SameButSticky (body s) (body s')

theorem IgnoresSticky.body {f : State → State} (h : IgnoresSticky f) : BodyIgnoresSticky fun s => .ok (f s) :=
  fun s s' _ hs => answersAlike_ok (h s s' hs)

theorem command_ignoresSticky {body : State → Access State} (hbody : BodyIgnoresSticky body) {s s' t : State}
    (hs : SameButSticky s s') (h : command s body = .next t) :
    ∃ t', command s' body = .next t' ∧ SameButSticky t t' := by
  obtain ⟨o, x, e, rfl⟩ := sameButSticky_iff.mp hs
  obtain ⟨hl, ht⟩ := command_eq_next h
  obtain ⟨t', ht', htt'⟩ :=
    hbody { s with busy := true } { s with oobS := o, illS := x, txeS := e, busy := true } hl rfl t ht
  exact ⟨t', command_of_ok hl ht', htt'⟩

/-! ### Pixels -/

theorem raise_sameButSticky (e : Exception) {r r' : Run} (h : SameRunButSticky r r') :
    SameRunButSticky (raise e r) (raise e r') := by
  obtain ⟨o, x, e', hs⟩ := sameButSticky_iff.mp h.1
  refine ⟨?_, rfl⟩
  rw [raise_s, raise_s, hs]
  cases e <;> rfl

theorem memRead_sameButSticky {s s' : State} (h : SameButSticky s s') (i : Nat) : memRead s' i = memRead s i := by
  obtain ⟨_, _, _, rfl⟩ := sameButSticky_iff.mp h
  rfl

theorem writePixel_sameButSticky {s s' : State} (h : SameButSticky s s') (i p : Nat) (col : Bool) :
    AnswersAlike SameButSticky (writePixel s i p col) (writePixel s' i p col) := by
  obtain ⟨o, x, e, rfl⟩ := sameButSticky_iff.mp h
  by_cases hi : i < s.cfg.nb
  · rw [writePixel_of_lt p col hi, writePixel_of_lt (s := { s with oobS := o, illS := x, txeS := e }) p col hi]
    exact answersAlike_ok rfl
  · simp [writePixel, memRead, hi, AnswersAlike]

theorem locate_sameButSticky {s s' : State} (h : SameButSticky s s') (x y : Int) :
    locate s'.cfg s'.rot x y = locate s.cfg s.rot x y := by
  obtain ⟨_, _, _, rfl⟩ := sameButSticky_iff.mp h
  rfl

theorem putPixel_sameButSticky {r r' : Run} (h : SameRunButSticky r r') (col : Bool) (pt : Point) :
    AnswersAlike SameRunButSticky (putPixel col r pt) (putPixel col r' pt) := by
  unfold putPixel
  rw [locate_sameButSticky h.1]
  cases locate r.s.cfg r.s.rot pt.1 pt.2 with
  | clip => exact answersAlike_ok h
  | oob _ _ => exact answersAlike_ok (raise_sameButSticky .outOfBuffer h)
  | cell i p => exact (writePixel_sameButSticky h.1 i p col).map fun _ _ hs => ⟨hs, h.2⟩

theorem paint_sameButSticky {r r' : Run} (h : SameRunButSticky r r') (col : Bool) (pts : List Point) :
    AnswersAlike SameRunButSticky (paint col pts r) (paint col pts r') := by
  induction pts generalizing r r' with
  | nil => exact answersAlike_ok h
  | cons pt pts ih =>
    intro q hq
    unfold paint at hq ⊢
    cases hput : putPixel col r pt with
    | error f => simp [hput] at hq
    | ok r₁ =>
      obtain ⟨r₁', hput', h₁⟩ := putPixel_sameButSticky h col pt r₁ hput
      simp only [hput, hput'] at hq ⊢
      exact ih h₁ q hq

theorem respond_sameButSticky (st : Status) (data : BitVec 32) : IgnoresSticky (respond st data) := by
  intro s s' h
  obtain ⟨o, x, e, rfl⟩ := sameButSticky_iff.mp h
  rfl

/-- A drawing command whose points depend on nothing but the geometry. -/
theorem draw_ignoresSticky (col : Bool) (pts : Config → BitVec 2 → List Point) :
    BodyIgnoresSticky fun s => draw col (pts s.cfg s.rot) s := by
  intro s s' _ h
  have hpts : pts s'.cfg s'.rot = pts s.cfg s.rot := by rw [h]
  dsimp only
  rw [hpts]
  refine (paint_sameButSticky (r := { s := s, st := .ok }) (r' := { s := s', st := .ok }) ⟨h, rfl⟩ col _).map
    fun r r' hr => ?_
  rw [hr.2]
  exact respond_sameButSticky r.st 0 _ _ hr.1

theorem readPixel_sameButSticky {r r' : Run} (h : SameRunButSticky r r') (x y : Int) :
    AnswersAlike (fun q q' => SameRunButSticky q.1 q'.1 ∧ q'.2 = q.2) (readPixel r x y) (readPixel r' x y) := by
  unfold readPixel
  rw [locate_sameButSticky h.1]
  cases locate r.s.cfg r.s.rot x y with
  | clip => exact answersAlike_ok ⟨h, rfl⟩
  | oob _ _ => exact answersAlike_ok ⟨raise_sameButSticky .outOfBuffer h, rfl⟩
  | cell i p =>
    dsimp only
    rw [memRead_sameButSticky h.1]
    exact AnswersAlike.map (R := (· = ·)) (fun b hb => ⟨b, hb, rfl⟩) fun b b' hb => ⟨h, by rw [hb]⟩

theorem getPixel_ignoresSticky (x y : Int) : BodyIgnoresSticky fun s =>
    (readPixel { s := s, st := .ok } x y).map fun q => respond q.1.st (pixelData q.2) q.1.s := by
  intro s s' _ h
  refine (readPixel_sameButSticky (r := { s := s, st := .ok }) (r' := { s := s', st := .ok }) ⟨h, rfl⟩ x y).map ?_
  rintro q q' ⟨⟨hs, hst⟩, hv⟩
  rw [hst, hv]
  exact respond_sameButSticky _ _ _ _ hs

/-! ### Transactions -/

theorem carryOn_ignoresSticky (x : Tx) : IgnoresSticky (carryOn x) := by
  intro s s' h
  obtain ⟨o, i, e, rfl⟩ := sameButSticky_iff.mp h
  rw [carryOn_eq x s _ rfl, carryOn_eq x { s with oobS := o, illS := i, txeS := e } _ rfl]
  dsimp only
  split
  · rw [endTransaction_eq, endTransaction_eq]; rfl
  · rfl

theorem transact_ignoresSticky (op : TxOp) (bytes : List Byte) : IgnoresSticky (transact op bytes) := by
  intro s s' h
  obtain ⟨o, i, e, rfl⟩ := sameButSticky_iff.mp h
  exact carryOn_ignoresSticky _ _ _ rfl

theorem clearOp_ignoresSticky (op : TxOp) : IgnoresSticky (clearOp op) := by
  intro s s' h
  obtain ⟨o, i, e, rfl⟩ := sameButSticky_iff.mp h
  exact transact_ignoresSticky op (clearBytes s) _ _ rfl

theorem refreshOp_ignoresSticky : BodyIgnoresSticky refreshOp := by
  intro s s' hl h
  obtain ⟨o, i, e, rfl⟩ := sameButSticky_iff.mp h
  have hbytes := refreshBytes_eq hl
  have hbytes' := refreshBytes_eq (s := { s with oobS := o, illS := i, txeS := e }) hl
  simp only [refreshOp, hbytes, hbytes', Except.map]
  exact answersAlike_ok (transact_ignoresSticky _ _ _ _ rfl)

/-! ### The other commands -/

theorem illegalCommand_ignoresSticky : IgnoresSticky illegalCommand := by
  intro s s' h
  obtain ⟨o, x, e, rfl⟩ := sameButSticky_iff.mp h
  rfl

theorem setRotation_ignoresSticky (r : BitVec 2) : IgnoresSticky fun s => respond .ok 0 { s with rot := r } := by
  intro s s' h
  obtain ⟨o, x, e, rfl⟩ := sameButSticky_iff.mp h
  rfl

theorem reverseByte_ignoresSticky (v : Byte) :
    IgnoresSticky fun s => respond .ok (byteData (codec s.cfg.codecImpl v)) s := by
  intro s s' h
  obtain ⟨o, x, e, rfl⟩ := sameButSticky_iff.mp h
  rfl

/-- Every command is the guard around a body that does not depend on the sticky bits. -/
theorem exec_eq_command_ignoresSticky (i : Instr) :
    ∃ body : State → Access State, (∀ s, exec i s = command s body) ∧ BodyIgnoresSticky body := by
  cases i with
  | nop => exact ⟨_, fun _ => rfl, (respond_sameButSticky .ok 0).body⟩
  | setPixel x y col => exact ⟨_, fun _ => rfl, draw_ignoresSticky col fun _ _ => [(x, y)]⟩
  | getPixel x y => exact ⟨_, fun _ => rfl, getPixel_ignoresSticky x y⟩
  | drawLine x0 y0 x1 y1 col => exact ⟨_, fun _ => rfl, draw_ignoresSticky col fun _ _ => linePoints x0 y0 x1 y1⟩
  | drawFastVline x y h col => exact ⟨_, fun _ => rfl, draw_ignoresSticky col fun _ _ => vPath x y h⟩
  | drawFastHline x y w col => exact ⟨_, fun _ => rfl, draw_ignoresSticky col fun _ _ => hPath x y w⟩
  | fillRect x y w h col => exact ⟨_, fun _ => rfl, draw_ignoresSticky col fun _ _ => rectPath x y w h⟩
  | fillScreen col =>
    exact ⟨_, fun _ => rfl, draw_ignoresSticky col fun cfg rot => rectPath 0 0 (extent cfg rot).1 (extent cfg rot).2⟩
  | setRotation r => exact ⟨_, fun _ => rfl, (setRotation_ignoresSticky r).body⟩
  | clear => exact ⟨_, fun _ => rfl, (clearOp_ignoresSticky .clear).body⟩
  | refresh => exact ⟨_, fun _ => rfl, refreshOp_ignoresSticky⟩
  | reverseByte v => exact ⟨_, fun _ => rfl, (reverseByte_ignoresSticky v).body⟩
  | reservedC => exact ⟨_, fun _ => rfl, illegalCommand_ignoresSticky.body⟩
  | reservedD => exact ⟨_, fun _ => rfl, illegalCommand_ignoresSticky.body⟩
  | reservedE => exact ⟨_, fun _ => rfl, illegalCommand_ignoresSticky.body⟩
  | reservedF => exact ⟨_, fun _ => rfl, illegalCommand_ignoresSticky.body⟩

/-! ### Reset, then the reset-time Clear (10_state.md R38; 70_reset_and_hazards.md R230, R232) -/

theorem step_of_rst {s : State} (hl : s.cfg.legal = true) (hr : s.pins.rst = true) : step s = .next (resetEdge s) := by
  simp [step, coreEdge, hl, hr]

theorem step_of_resetClear {s : State} (hl : s.cfg.legal = true) (hr : s.pins.rst = false)
    (hseq : s.seq = .resetClear) : step s = .next (clearOp .resetClear s) := by
  simp [step, coreEdge, runningEdge, hl, hr, hseq]

/-- Everything a Clear leaves when its transaction ends within one stretch of the transport's answers
(44_wire.md R170 to R172). -/
theorem clearOp_of_ended (op : TxOp) {s : State} {r : Stretch}
    (hr : offerBytes s.pins.tx s.txScript (clearFormat s.vcom) 0 = r) (hend : r.rejected.isSome = true ∨ r.pending = []) :
    clearOp op s =
      { s with
        fb := s.fb.blank s.cfg.nb
        vcom := if op = .refresh then s.vcom else !s.vcom
        cs := false
        seq := .idle
        busy := if op = .resetClear then false else s.busy
        txeS := s.txeS || r.rejected.isSome
        rsp := if op = .resetClear then s.rsp
          else some { status := if r.rejected.isSome then .transportError else .ok
                      data := transactionData (r.rejected.getD 0) r.accepted }
        txScript := r.script
        wire := s.wire ++ [.sel true] ++ r.events ++ [.sel false] } := by
  rw [clearOp, clearBytes_eq, transact, carryOn_eq _ _ r hr, if_pos (by simpa using hend), endTransaction_eq]
  rfl

/-- The state of the edge after reset: what the last edge with `rst` = 1 leaves, and `rst` = 0. -/
def releasedFromReset (s : State) : State := { resetEdge s with pins := { s.pins with rst := false } }

/-- The edge after reset, when the transport answers each byte the reset-time Clear offers: the second column of R38,
with `TXE_S` telling whether one was rejected. -/
theorem step_releasedFromReset {s : State} (hl : s.cfg.legal = true) {r : Stretch}
    (hr : offerBytes s.pins.tx s.txScript (clearFormat false) 0 = r) (hend : r.rejected.isSome = true ∨ r.pending = []) :
    ∃ v, step (releasedFromReset s) = .next v ∧ v.txeS = r.rejected.isSome ∧
      (∀ a, a < v.cfg.nb → v.fb.read a = 0xFF#8) ∧ v.rot = s.pins.cfgRotInit ∧ v.vcom = true ∧ v.cs = false ∧
      v.busy = false ∧ v.oobS = false ∧ v.illS = false ∧ v.seq = .idle ∧ v.rspValid = false ∧ v.txValid = false := by
  have hclear := clearOp_of_ended .resetClear (s := releasedFromReset s) hr hend
  refine ⟨_, step_of_resetClear hl rfl rfl, ?_⟩
  rw [hclear]
  refine ⟨rfl, fun a ha => ?_, rfl, rfl, rfl, rfl, rfl, rfl, rfl, rfl, rfl⟩
  exact (Memory.read_blank _ _ a).trans (if_pos ha)

/-! ### The obligations -/

/-- Settles O15: `exec` is the guard around a body that takes states differing only in the sticky bits to such states. -/
theorem noCommandReadsStickyBits : Obligations.NoCommandReadsStickyBits := by
  intro i s t o x e h
  obtain ⟨body, hexec, hbody⟩ := exec_eq_command_ignoresSticky i
  rw [hexec] at h
  rw [hexec]
  exact command_ignoresSticky hbody rfl h

/-- Settles O22: a reset edge, then the reset-time Clear with its two bytes accepted or one of them rejected. -/
theorem resetThenInitialisationValues : Obligations.ResetThenInitialisationValues := by
  intro s hl hr
  refine ⟨resetEdge s, step_of_rst hl hr, rfl, rfl, rfl, rfl, rfl, rfl, rfl, rfl, rfl, rfl, ?_⟩
  rintro u rfl
  refine ⟨fun rest haccepts => ?_, fun k c rest hrejects => ?_⟩
  · exact step_releasedFromReset hl (offerBytes_of_accepts (bytes := clearFormat false) 0 haccepts) (Or.inr rfl)
  · exact step_releasedFromReset hl (offerBytes_of_rejects (bytes := clearFormat false) 0 hrejects) (Or.inl rfl)

end Sys2Proof.Machine
end

section
/-!
PROOFS. The memory (20_memory.md): the layout of the pixels in the framebuffer (R51) and the coordinate transform of each
rotation (R56).
-/

namespace Sys2Proof.Machine

/-! ### The layout of the pixels (20_memory.md R51) -/

/-- On a physical pixel's coordinates, which are not negative, R51's integer division is the natural numbers' one. -/
theorem byteIndex_natCast (c : Config) (x' y' : Nat) : byteIndex c x' y' = (y' * c.w + x') / 8 := by
  have hcast : ((y' : Int) * c.w + x') / 8 = (((y' * c.w + x') / 8 : Nat) : Int) := by push_cast; rfl
  rw [byteIndex, hcast, Int.toNat_natCast]

/-- Settles O24: R51's two formulas agree, a pixel of the panel is below `NB`, and a byte is one row and eight columns,
as a row is a whole number of bytes. -/
theorem pixelsAreRowMajor : Obligations.PixelsAreRowMajor := by
  intro cfg hl x' y' hx hy
  refine ⟨byteIndex_natCast cfg x' y', byteIndex_eq hl x' y', bitIndex_eq x', ?_, fun x'' y'' hx'' _ hsame => ?_⟩
  · rw [byteIndex_eq hl]
    exact byteIndex_lt hl hx hy
  · rw [byteIndex_eq hl, byteIndex_eq hl] at hsame
    exact layout_injective hl hx hx'' hsame

/-! ### The coordinate transform (20_memory.md R56) -/

section
variable (c : Config) (x y : Int)

@[simp] theorem xform_zero : xform c x y 0#2 = (x, y) := rfl

@[simp] theorem xform_one : xform c x y 1#2 = ((c.w : Int) - 1 - y, x) := rfl

@[simp] theorem xform_two : xform c x y 2#2 = ((c.w : Int) - 1 - x, (c.h : Int) - 1 - y) := rfl

@[simp] theorem xform_three : xform c x y 3#2 = (y, (c.h : Int) - 1 - x) := rfl

end

/-- Settles O23, from the transform's equation for each rotation. -/
theorem transformTable : Obligations.TransformTable := fun cfg x y =>
  ⟨xform_zero cfg x y, xform_one cfg x y, xform_two cfg x y, xform_three cfg x y⟩

end Sys2Proof.Machine
end

section
/-!
PROOFS. The command word (30_encoding.md): `op` alone selects the command (R84), a command reads only the fields its row
names (R85), and the reserved opcodes alone raise `IllegalCommand` (R86).
-/

namespace Sys2Proof.Machine

/-! ### The opcode (30_encoding.md R84) -/

/-- Case analysis over the sixteen opcodes, each under the name of its command. -/
theorem opcode_cases {motive : BitVec 4 → Prop} (nop : motive 0x0#4) (setPixel : motive 0x1#4)
    (getPixel : motive 0x2#4) (drawLine : motive 0x3#4) (drawFastVline : motive 0x4#4) (drawFastHline : motive 0x5#4)
    (fillRect : motive 0x6#4) (fillScreen : motive 0x7#4) (setRotation : motive 0x8#4) (clear : motive 0x9#4)
    (refresh : motive 0xA#4) (reverseByte : motive 0xB#4) (reservedC : motive 0xC#4) (reservedD : motive 0xD#4)
    (reservedE : motive 0xE#4) (reservedF : motive 0xF#4) (op : BitVec 4) : motive op := by
  have hop : op = 0x0#4 ∨ op = 0x1#4 ∨ op = 0x2#4 ∨ op = 0x3#4 ∨ op = 0x4#4 ∨ op = 0x5#4 ∨ op = 0x6#4 ∨ op = 0x7#4 ∨
      op = 0x8#4 ∨ op = 0x9#4 ∨ op = 0xA#4 ∨ op = 0xB#4 ∨ op = 0xC#4 ∨ op = 0xD#4 ∨ op = 0xE#4 ∨ op = 0xF#4 := by
    revert op; decide
  rcases hop with rfl | rfl | rfl | rfl | rfl | rfl | rfl | rfl | rfl | rfl | rfl | rfl | rfl | rfl | rfl | rfl <;>
    assumption

section
variable {w : CmdWord}

theorem decode_nop (h : opField w = 0x0#4) : decode w = .nop := by rw [decode, h]; rfl

theorem decode_setPixel (h : opField w = 0x1#4) :
    decode w = .setPixel (sext16 (aField w)) (sext16 (bField w)) (colField w) := by rw [decode, h]; rfl

theorem decode_getPixel (h : opField w = 0x2#4) :
    decode w = .getPixel (sext16 (aField w)) (sext16 (bField w)) := by rw [decode, h]; rfl

theorem decode_drawLine (h : opField w = 0x3#4) :
    decode w = .drawLine (sext16 (aField w)) (sext16 (bField w)) (sext16 (cField w)) (sext16 (dField w))
      (colField w) := by rw [decode, h]; rfl

theorem decode_drawFastVline (h : opField w = 0x4#4) :
    decode w = .drawFastVline (sext16 (aField w)) (sext16 (bField w)) (sext16 (cField w)) (colField w) := by
  rw [decode, h]; rfl

theorem decode_drawFastHline (h : opField w = 0x5#4) :
    decode w = .drawFastHline (sext16 (aField w)) (sext16 (bField w)) (sext16 (cField w)) (colField w) := by
  rw [decode, h]; rfl

theorem decode_fillRect (h : opField w = 0x6#4) :
    decode w = .fillRect (sext16 (aField w)) (sext16 (bField w)) (sext16 (cField w)) (sext16 (dField w))
      (colField w) := by rw [decode, h]; rfl

theorem decode_fillScreen (h : opField w = 0x7#4) : decode w = .fillScreen (colField w) := by rw [decode, h]; rfl

theorem decode_setRotation (h : opField w = 0x8#4) : decode w = .setRotation (rotOperand (aField w)) := by
  rw [decode, h]; rfl

theorem decode_clear (h : opField w = 0x9#4) : decode w = .clear := by rw [decode, h]; rfl

theorem decode_refresh (h : opField w = 0xA#4) : decode w = .refresh := by rw [decode, h]; rfl

theorem decode_reverseByte (h : opField w = 0xB#4) : decode w = .reverseByte (byteOperand (aField w)) := by
  rw [decode, h]; rfl

theorem decode_reservedC (h : opField w = 0xC#4) : decode w = .reservedC := by rw [decode, h]; rfl

theorem decode_reservedD (h : opField w = 0xD#4) : decode w = .reservedD := by rw [decode, h]; rfl

theorem decode_reservedE (h : opField w = 0xE#4) : decode w = .reservedE := by rw [decode, h]; rfl

theorem decode_reservedF (h : opField w = 0xF#4) : decode w = .reservedF := by rw [decode, h]; rfl

end

/-- The command a word decodes to has the word's opcode. -/
theorem opcode_decode (w : CmdWord) : (decode w).opcode = opField w := by
  cases h : opField w using opcode_cases <;> rw [decode, h] <;> rfl

/-- The mask `0xF << 68` keeps `op` and makes the bits below it 0. -/
theorem and_opMask (w : CmdWord) : w &&& 0xF0_0000_0000_0000_0000#72 = opField w ++ 0#68 := by
  have hw : opField w ++ w.extractLsb' 0 68 = w := BitVec.extractLsb'_append_extractLsb' (w := 4) (len := 68)
  calc w &&& 0xF0_0000_0000_0000_0000#72
      = (opField w ++ w.extractLsb' 0 68) &&& (BitVec.allOnes 4 ++ 0#68) := congrArg (· &&& _) hw.symm
    _ = (opField w &&& BitVec.allOnes 4) ++ (w.extractLsb' 0 68 &&& 0#68) := BitVec.and_append
    _ = opField w ++ 0#68 := by rw [BitVec.and_allOnes, BitVec.and_zero]

/-- An opcode moved up to bits 71:68. -/
theorem setWidth_shiftLeft_op (n : BitVec 4) : n.setWidth 72 <<< 68 = n ++ 0#68 := by
  revert n; decide

theorem opField_eq_iff_masked (w : CmdWord) (n : BitVec 4) :
    opField w = n ↔ w &&& 0xF0_0000_0000_0000_0000#72 = n.setWidth 72 <<< 68 := by
  rw [and_opMask, setWidth_shiftLeft_op, BitVec.append_left_inj]

/-- Settles O2: the decoder's equation for each opcode, then the mask. -/
theorem opcodeAloneSelectsCommand : Obligations.OpcodeAloneSelectsCommand := fun w =>
  ⟨decode_nop, fun h => ⟨_, _, _, decode_setPixel h⟩, fun h => ⟨_, _, decode_getPixel h⟩,
    fun h => ⟨_, _, _, _, _, decode_drawLine h⟩, fun h => ⟨_, _, _, _, decode_drawFastVline h⟩,
    fun h => ⟨_, _, _, _, decode_drawFastHline h⟩, fun h => ⟨_, _, _, _, _, decode_fillRect h⟩,
    fun h => ⟨_, decode_fillScreen h⟩, fun h => ⟨_, decode_setRotation h⟩, decode_clear, decode_refresh,
    fun h => ⟨_, decode_reverseByte h⟩, decode_reservedC, decode_reservedD, decode_reservedE, decode_reservedF,
    opField_eq_iff_masked w⟩

/-! ### The fields a command reads (30_encoding.md R82, R85) -/

/-- A mask with 1 in every bit of a field leaves the field as it is. -/
theorem extractLsb'_and_of_allOnes {k : Nat} {w m : BitVec k} {start len : Nat}
    (h : m.extractLsb' start len = BitVec.allOnes len) :
    (w &&& m).extractLsb' start len = w.extractLsb' start len := by
  rw [BitVec.extractLsb'_and, h, BitVec.and_allOnes]

section
variable {w m : CmdWord}

theorem opField_and (h : opField m = BitVec.allOnes 4) : opField (w &&& m) = opField w := extractLsb'_and_of_allOnes h

theorem colField_and (h : colField m = true) : colField (w &&& m) = colField w := by
  rw [colField, BitVec.getLsbD_and]
  exact (congrArg _ h).trans (Bool.and_true _)

theorem aField_and (h : aField m = BitVec.allOnes 16) : aField (w &&& m) = aField w := extractLsb'_and_of_allOnes h

theorem bField_and (h : bField m = BitVec.allOnes 16) : bField (w &&& m) = bField w := extractLsb'_and_of_allOnes h

theorem cField_and (h : cField m = BitVec.allOnes 16) : cField (w &&& m) = cField w := extractLsb'_and_of_allOnes h

theorem dField_and (h : dField m = BitVec.allOnes 16) : dField (w &&& m) = dField w := extractLsb'_and_of_allOnes h

theorem rotOperand_and (h : rotOperand (aField m) = BitVec.allOnes 2) :
    rotOperand (aField (w &&& m)) = rotOperand (aField w) := by
  rw [aField, BitVec.extractLsb'_and]
  exact extractLsb'_and_of_allOnes h

theorem byteOperand_and (h : byteOperand (aField m) = BitVec.allOnes 8) :
    byteOperand (aField (w &&& m)) = byteOperand (aField w) := by
  rw [aField, BitVec.extractLsb'_and]
  exact extractLsb'_and_of_allOnes h

end

/-- Every command reads its opcode. -/
theorem opField_fieldsRead (op : BitVec 4) : opField (fieldsRead op) = BitVec.allOnes 4 := by
  revert op; decide

/-- The decoder takes the same command from a word whose unread bits are made 0. -/
theorem decode_and_fieldsRead (w : CmdWord) : decode (w &&& fieldsRead (opField w)) = decode w := by
  have hop := opField_and (w := w) (opField_fieldsRead (opField w))
  cases h : opField w using opcode_cases <;> rw [h] at hop
  case nop => rw [decode_nop h, decode_nop hop]
  case setPixel =>
    rw [decode_setPixel h, decode_setPixel hop, aField_and (by decide), bField_and (by decide),
      colField_and (by decide)]
  case getPixel => rw [decode_getPixel h, decode_getPixel hop, aField_and (by decide), bField_and (by decide)]
  case drawLine =>
    rw [decode_drawLine h, decode_drawLine hop, aField_and (by decide), bField_and (by decide), cField_and (by decide),
      dField_and (by decide), colField_and (by decide)]
  case drawFastVline =>
    rw [decode_drawFastVline h, decode_drawFastVline hop, aField_and (by decide), bField_and (by decide),
      cField_and (by decide), colField_and (by decide)]
  case drawFastHline =>
    rw [decode_drawFastHline h, decode_drawFastHline hop, aField_and (by decide), bField_and (by decide),
      cField_and (by decide), colField_and (by decide)]
  case fillRect =>
    rw [decode_fillRect h, decode_fillRect hop, aField_and (by decide), bField_and (by decide), cField_and (by decide),
      dField_and (by decide), colField_and (by decide)]
  case fillScreen => rw [decode_fillScreen h, decode_fillScreen hop, colField_and (by decide)]
  case setRotation => rw [decode_setRotation h, decode_setRotation hop, rotOperand_and (by decide)]
  case clear => rw [decode_clear h, decode_clear hop]
  case refresh => rw [decode_refresh h, decode_refresh hop]
  case reverseByte => rw [decode_reverseByte h, decode_reverseByte hop, byteOperand_and (by decide)]
  case reservedC => rw [decode_reservedC h, decode_reservedC hop]
  case reservedD => rw [decode_reservedD h, decode_reservedD hop]
  case reservedE => rw [decode_reservedE h, decode_reservedE hop]
  case reservedF => rw [decode_reservedF h, decode_reservedF hop]

/-- A word with nothing but an opcode keeps it: every command reads `op`. -/
theorem packWord_op_and_fieldsRead (op : BitVec 4) :
    packWord op false 0 0 0 0 &&& fieldsRead op = packWord op false 0 0 0 0 := by
  revert op; decide

/-! The masks of the commands with operands, field by field (30_encoding.md R82). -/

theorem fieldsRead_setPixel : fieldsRead 0x1#4 = packWord (.allOnes 4) true (.allOnes 16) (.allOnes 16) 0 0 := by decide

theorem fieldsRead_getPixel : fieldsRead 0x2#4 = packWord (.allOnes 4) false (.allOnes 16) (.allOnes 16) 0 0 := by
  decide

theorem fieldsRead_drawLine : fieldsRead 0x3#4 =
    packWord (.allOnes 4) true (.allOnes 16) (.allOnes 16) (.allOnes 16) (.allOnes 16) := by decide

theorem fieldsRead_drawFastVline : fieldsRead 0x4#4 =
    packWord (.allOnes 4) true (.allOnes 16) (.allOnes 16) (.allOnes 16) 0 := by decide

theorem fieldsRead_drawFastHline : fieldsRead 0x5#4 =
    packWord (.allOnes 4) true (.allOnes 16) (.allOnes 16) (.allOnes 16) 0 := by decide

theorem fieldsRead_fillRect : fieldsRead 0x6#4 =
    packWord (.allOnes 4) true (.allOnes 16) (.allOnes 16) (.allOnes 16) (.allOnes 16) := by decide

theorem fieldsRead_fillScreen : fieldsRead 0x7#4 = packWord (.allOnes 4) true 0 0 0 0 := by decide

theorem fieldsRead_setRotation : fieldsRead 0x8#4 =
    packWord (.allOnes 4) false ((BitVec.allOnes 2).setWidth 16) 0 0 0 := by decide

theorem fieldsRead_reverseByte : fieldsRead 0xB#4 =
    packWord (.allOnes 4) false ((BitVec.allOnes 8).setWidth 16) 0 0 0 := by decide

/-- The bits two packed words share are those their fields share. -/
theorem packWord_and_packWord (op op' : BitVec 4) (col col' : Bool) (a a' b b' c c' d d' : BitVec 16) :
    packWord op col a b c d &&& packWord op' col' a' b' c' d' =
      packWord (op &&& op') (col && col') (a &&& a') (b &&& b') (c &&& c') (d &&& d') := by
  have hword : (op ++ BitVec.ofBool col ++ 0#3 ++ a ++ b ++ c ++ d) &&&
      (op' ++ BitVec.ofBool col' ++ 0#3 ++ a' ++ b' ++ c' ++ d') =
        (op &&& op') ++ BitVec.ofBool (col && col') ++ 0#3 ++ (a &&& a') ++ (b &&& b') ++ (c &&& c') ++ (d &&& d') := by
    simp only [BitVec.and_append, BitVec.and_self, BitVec.ofBool_and_ofBool]
  exact hword

/-- An operand narrower than its field leaves the field's upper bits 0 (30_encoding.md R85). -/
theorem setWidth_and_setWidth_allOnes {n : Nat} (v : BitVec n) (k : Nat) :
    v.setWidth k &&& (BitVec.allOnes n).setWidth k = v.setWidth k := by
  rw [← BitVec.setWidth_and, BitVec.and_allOnes]

/-- A mask that keeps each field of a packed word, being 1 where the field is not 0, keeps the word. -/
theorem packWord_and_row {m : CmdWord} {op : BitVec 4} {col col' : Bool} {a a' b b' c c' d d' : BitVec 16}
    (hm : m = packWord (.allOnes 4) col' a' b' c' d') (hcol : (col && col') = col) (ha : a &&& a' = a)
    (hb : b &&& b' = b) (hc : c &&& c' = c) (hd : d &&& d' = d) :
    packWord op col a b c d &&& m = packWord op col a b c d := by
  rw [hm, packWord_and_packWord, BitVec.and_allOnes, hcol, ha, hb, hc, hd]

/-- The encoder writes 0 in the bits the command does not read: each field is a whole operand, or 0. -/
theorem encode_and_fieldsRead (i : Instr) : encode i &&& fieldsRead i.opcode = encode i := by
  cases i with
  | nop => exact packWord_op_and_fieldsRead _
  | setPixel x y col =>
    exact packWord_and_row fieldsRead_setPixel (Bool.and_true _) BitVec.and_allOnes BitVec.and_allOnes rfl rfl
  | getPixel x y => exact packWord_and_row fieldsRead_getPixel rfl BitVec.and_allOnes BitVec.and_allOnes rfl rfl
  | drawLine x0 y0 x1 y1 col =>
    exact packWord_and_row fieldsRead_drawLine (Bool.and_true _) BitVec.and_allOnes BitVec.and_allOnes
      BitVec.and_allOnes BitVec.and_allOnes
  | drawFastVline x y h col =>
    exact packWord_and_row fieldsRead_drawFastVline (Bool.and_true _) BitVec.and_allOnes BitVec.and_allOnes
      BitVec.and_allOnes rfl
  | drawFastHline x y w col =>
    exact packWord_and_row fieldsRead_drawFastHline (Bool.and_true _) BitVec.and_allOnes BitVec.and_allOnes
      BitVec.and_allOnes rfl
  | fillRect x y w h col =>
    exact packWord_and_row fieldsRead_fillRect (Bool.and_true _) BitVec.and_allOnes BitVec.and_allOnes
      BitVec.and_allOnes BitVec.and_allOnes
  | fillScreen col => exact packWord_and_row fieldsRead_fillScreen (Bool.and_true _) rfl rfl rfl rfl
  | setRotation r => exact packWord_and_row fieldsRead_setRotation rfl (setWidth_and_setWidth_allOnes r 16) rfl rfl rfl
  | clear => exact packWord_op_and_fieldsRead _
  | refresh => exact packWord_op_and_fieldsRead _
  | reverseByte v => exact packWord_and_row fieldsRead_reverseByte rfl (setWidth_and_setWidth_allOnes v 16) rfl rfl rfl
  | reservedC => exact packWord_op_and_fieldsRead _
  | reservedD => exact packWord_op_and_fieldsRead _
  | reservedE => exact packWord_op_and_fieldsRead _
  | reservedF => exact packWord_op_and_fieldsRead _

/-- Settles O3, by cases on the opcode for the decoder and on the command for the encoder. -/
theorem unreadFieldsAreIgnored : Obligations.UnreadFieldsAreIgnored :=
  ⟨decode_and_fieldsRead, encode_and_fieldsRead⟩

/-! ### The reserved opcodes (30_encoding.md R86) -/

/-- A reserved command has one effect, that of `IllegalCommand` (60_exceptions.md R201). -/
theorem exec_of_reserved {i : Instr} (hi : i = .reservedC ∨ i = .reservedD ∨ i = .reservedE ∨ i = .reservedF)
    {s : State} (hl : s.cfg.legal = true) :
    exec i s = .next { s with busy := true, illS := true, rsp := some { status := .illegalCommand, data := 0 } } := by
  obtain ⟨t, ht⟩ := exec_answers_of_legal hl i
  obtain ⟨-, ha⟩ := exec_answers ht
  rcases hi with rfl | rfl | rfl | rfl <;> rw [ht, ha]

/-- The opcodes from 0xC on carry the reserved commands. -/
theorem decode_mem_reserved {w : CmdWord} (h : 0xC#4 ≤ opField w) :
    decode w ∈ [.reservedC, .reservedD, .reservedE, .reservedF] := by
  have hop : ∀ op : BitVec 4, 0xC#4 ≤ op → op = 0xC#4 ∨ op = 0xD#4 ∨ op = 0xE#4 ∨ op = 0xF#4 := by decide
  rcases hop _ h with h | h | h | h
  · simp [decode_reservedC h]
  · simp [decode_reservedD h]
  · simp [decode_reservedE h]
  · simp [decode_reservedF h]

/-- From `s` to `t` no `IllegalCommand` is raised: `ILL_S` is as before, and a new response has another status. -/
def RaisesNoIllegalCommand (s t : State) : Prop :=
  t.illS = s.illS ∧ ∀ r, s.rsp = none → t.rsp = some r → r.status ≠ .illegalCommand

theorem raisesNoIllegalCommand_of_responds {s t : State} {st : Status} {data : BitVec 32} (hill : t.illS = s.illS)
    (hrsp : t.rsp = some { status := st, data := data }) (hst : st ≠ .illegalCommand) : RaisesNoIllegalCommand s t := by
  refine ⟨hill, fun r _ hr => ?_⟩
  rw [hrsp] at hr
  cases hr
  exact hst

theorem Draws.raisesNoIllegalCommand {col : Bool} {pts : List Point} {s t : State} (h : Draws col pts s t) :
    RaisesNoIllegalCommand s t := by
  obtain ⟨m, rfl, -⟩ := h
  refine raisesNoIllegalCommand_of_responds rfl rfl ?_
  split <;> decide

theorem carryOn_raisesNoIllegalCommand (x : Tx) (s : State) : RaisesNoIllegalCommand s (carryOn x s) := by
  rcases carryOn_cases x s _ rfl with ⟨-, h⟩ | ⟨-, -, h⟩ <;> rw [h]
  · refine ⟨rfl, fun r hs hr => ?_⟩
    dsimp only at hr
    split at hr
    · rw [hs] at hr; cases hr
    · cases hr; dsimp only; split <;> decide
  · refine ⟨rfl, fun r hs hr => ?_⟩
    rw [hs] at hr
    cases hr

/-- The commands with an opcode below 0xC raise no `IllegalCommand`. -/
theorem Answers.raisesNoIllegalCommand {i : Instr} {s t : State} (h : Answers i s t) (hop : i.opcode < 0xC#4) :
    RaisesNoIllegalCommand s t := by
  cases i with
  | setPixel x y col => exact Draws.raisesNoIllegalCommand h
  | drawLine x0 y0 x1 y1 col => exact Draws.raisesNoIllegalCommand h
  | drawFastVline x y h' col => exact Draws.raisesNoIllegalCommand h
  | drawFastHline x y w col => exact Draws.raisesNoIllegalCommand h
  | fillRect x y w h' col => exact Draws.raisesNoIllegalCommand h
  | fillScreen col => exact Draws.raisesNoIllegalCommand h
  | clear => subst h; exact carryOn_raisesNoIllegalCommand _ _
  | refresh => subst h; exact carryOn_raisesNoIllegalCommand _ _
  | nop => subst h; exact raisesNoIllegalCommand_of_responds rfl rfl (by decide)
  | getPixel x y => subst h; exact raisesNoIllegalCommand_of_responds rfl rfl (by split <;> decide)
  | setRotation r => subst h; exact raisesNoIllegalCommand_of_responds rfl rfl (by decide)
  | reverseByte v => subst h; exact raisesNoIllegalCommand_of_responds rfl rfl (by decide)
  | reservedC => exact absurd hop (by decide)
  | reservedD => exact absurd hop (by decide)
  | reservedE => exact absurd hop (by decide)
  | reservedF => exact absurd hop (by decide)

/-- Settles O55: a word has the opcode of the command it decodes to, and `exec`'s inversion says what that command
leaves. -/
theorem reservedOpcodesRaiseIllegalCommand : Obligations.ReservedOpcodesRaiseIllegalCommand := by
  refine ⟨fun i s hi hl => exec_of_reserved hi hl, fun w h => decode_mem_reserved h, fun w s t hop ht => ?_⟩
  have hop : (decode w).opcode < 0xC#4 := (opcode_decode w).symm ▸ hop
  exact (exec_answers ht).2.raisesNoIllegalCommand hop

end Sys2Proof.Machine
end

section
/-!
PROOFS. The pixel commands (40_pixel.md): where a point can be out of buffer (20_memory.md R62), what SET_PIXEL writes
(R100) and what GET_PIXEL answers (R105).
-/

namespace Sys2Proof.Machine

/-! ### The logical extent and the out-of-buffer band (20_memory.md R59, R61, R62) -/

section
variable {c : Config} {r : BitVec 2}

theorem extent_of_straight (h : swapsAxes r = false) : extent c r = ((c.w : Int), (c.h : Int)) := by simp [extent, h]

theorem extent_of_unswapped (h : c.boundsMode = .unswapped) : extent c r = ((c.w : Int), (c.h : Int)) := by
  simp [extent, h]

theorem extent_of_swapped (h : c.boundsMode = .swapped) (hr : swapsAxes r = true) :
    extent c r = ((c.h : Int), (c.w : Int)) := by simp [extent, h, hr]

theorem Located.isOob_iff {l : Located} : l.isOob = true ↔ ∃ x' y', l = .oob x' y' := by
  cases l <;> simp

/-- A point is out of buffer when it is in range and its physical coordinate is not. -/
theorem isOob_locate_iff {x y : Int} :
    (locate c r x y).isOob = true ↔
      inRange c r x y = true ∧ inBox (xform c x y r).1 (xform c x y r).2 c.w c.h = false := by
  rcases locate_cases c r x y with ⟨hr, h⟩ | ⟨hr, hb, h⟩ | ⟨hr, x', y', hx, hy, hxy, h⟩
  · simp [h, hr]
  · simp [h, hr, hb]
  · simp [h, hr, hxy, inBox, hx, hy]

/-- Rotations 0 and 2 map the logical extent into the panel. -/
theorem inBox_xform_of_straight {x y : Int} (hr : r = 0 ∨ r = 2) (h : inRange c r x y = true) :
    inBox (xform c x y r).1 (xform c x y r).2 c.w c.h = true := by
  have hs : swapsAxes r = false := by rcases hr with rfl | rfl <;> rfl
  rw [inRange, extent_of_straight hs, inBox_iff] at h
  rw [inBox_iff]
  rcases hr with rfl | rfl
  · exact h
  · simp only [BitVec.ofNat_eq_ofNat, xform_two]
    omega

/-- Rotations 1 and 3 map an extent with exchanged axes into the panel. -/
theorem inBox_xform_of_exchanged {x y : Int} (hr : r = 1 ∨ r = 3) (he : extent c r = ((c.h : Int), (c.w : Int)))
    (h : inRange c r x y = true) : inBox (xform c x y r).1 (xform c x y r).2 c.w c.h = true := by
  rw [inRange, he, inBox_iff] at h
  rw [inBox_iff]
  rcases hr with rfl | rfl
  · simp only [BitVec.ofNat_eq_ofNat, xform_one]
    omega
  · simp only [BitVec.ofNat_eq_ofNat, xform_three]
    omega

/-- Under rotation 1 or 3 the axes of the extent are exchanged, unless the panel has a band. -/
theorem extent_of_not_hasBand (hr : r = 1 ∨ r = 3) (hno : ¬ hasBand c r) :
    extent c r = ((c.h : Int), (c.w : Int)) := by
  have hs : swapsAxes r = true := by rcases hr with rfl | rfl <;> rfl
  cases hb : c.boundsMode with
  | swapped => exact extent_of_swapped hb hs
  | unswapped =>
    have hsquare : c.w = c.h := by
      by_contra hne
      exact hno ⟨hb, hr, hne⟩
    rw [extent_of_unswapped hb, hsquare]

/-- Without a band every point in range has its place in the panel (20_memory.md R62). -/
theorem inBox_xform_of_not_hasBand {x y : Int} (hno : ¬ hasBand c r) (h : inRange c r x y = true) :
    inBox (xform c x y r).1 (xform c x y r).2 c.w c.h = true := by
  rcases rotation_cases r with hr | hr | hr | hr
  · exact inBox_xform_of_straight (.inl hr) h
  · exact inBox_xform_of_exchanged (.inl hr) (extent_of_not_hasBand (.inl hr) hno) h
  · exact inBox_xform_of_straight (.inr hr) h
  · exact inBox_xform_of_exchanged (.inr hr) (extent_of_not_hasBand (.inr hr) hno) h

end

/-- Only a panel with a band has out-of-buffer points (20_memory.md R62; 40_pixel.md R100). -/
theorem State.hasBand_of_oobAt {s : State} {pt : Point} (h : s.oobAt pt) : hasBand s.cfg s.rot := by
  obtain ⟨hin, hout⟩ := isOob_locate_iff.mp h
  by_contra hno
  rw [inBox_xform_of_not_hasBand hno hin] at hout
  cases hout

/-! ### SET_PIXEL (40_pixel.md R100) -/

/-- Settles O27: SET_PIXEL is a drawing command over its one point. -/
theorem setPixelWritesItsPixel : Obligations.SetPixelWritesItsPixel := by
  refine ⟨fun w h => decode_setPixel h, fun s x y col hl hw => ⟨?_, State.hasBand_of_oobAt⟩⟩
  exact command_draw_paintsExactly hl hw col fun pt => List.mem_singleton

/-! ### GET_PIXEL (40_pixel.md R105) -/

/-- The data of GET_PIXEL is 0 or 1 (10_state.md R34). -/
theorem pixelData_eq_ite (v : Bool) : pixelData v = if v then 1 else 0 := by cases v <;> rfl

/-- GetPixel's bit of a framebuffer byte (20_memory.md R65) is the bit the statements name. -/
theorem pixelBit_read (s : State) (i p : Nat) : pixelBit (s.fb.read i) p = s.fbBit i p := pixelBit_eq _ _

/-- With legal parameters a command goes to `t` when its rule leaves no other state. -/
theorem exec_eq_next_of_answers_unique {i : Instr} {s t : State} (hl : s.cfg.legal = true)
    (h : ∀ u, Answers i s u → u = t) : exec i s = .next t := by
  obtain ⟨u, hu⟩ := exec_answers_of_legal hl i
  rw [hu, h u (exec_answers hu).2]

section
variable {s : State} {x y : Int}

theorem exec_getPixel_of_clip (hl : s.cfg.legal = true) (h : locate s.cfg s.rot x y = .clip) :
    exec (.getPixel x y) s = .next { s with busy := true, rsp := some { status := .ok, data := 0 } } :=
  exec_eq_next_of_answers_unique hl fun u hu => by
    simpa [Answers, h, pixelData_eq_ite] using hu

theorem exec_getPixel_of_oob (hl : s.cfg.legal = true) {x' y' : Int} (h : locate s.cfg s.rot x y = .oob x' y') :
    exec (.getPixel x y) s =
      .next { s with busy := true, oobS := true, rsp := some { status := .outOfBuffer, data := 0 } } :=
  exec_eq_next_of_answers_unique hl fun u hu => by
    simpa [Answers, h, pixelData_eq_ite] using hu

theorem exec_getPixel_of_cell (hl : s.cfg.legal = true) {i p : Nat} (h : locate s.cfg s.rot x y = .cell i p) :
    exec (.getPixel x y) s =
      .next { s with busy := true, rsp := some { status := .ok, data := if s.fbBit i p then 1 else 0 } } :=
  exec_eq_next_of_answers_unique hl fun u hu => by
    simpa [Answers, h, pixelBit_read, pixelData_eq_ite] using hu

end

/-- Settles O28, by the three answers of `Locate`. -/
theorem getPixelReadsItsPixel : Obligations.GetPixelReadsItsPixel := by
  refine ⟨fun w h => decode_getPixel h, fun s x y hl =>
    ⟨exec_getPixel_of_clip hl, fun ho => ?_, fun i p => exec_getPixel_of_cell hl, State.hasBand_of_oobAt⟩⟩
  obtain ⟨x', y', hloc⟩ := Located.isOob_iff.mp ho
  exact exec_getPixel_of_oob hl hloc

end Sys2Proof.Machine
end

section
/-!
PROOFS. The line commands (41_line.md): which points the fast paths and DRAW_LINE visit (R125, R128, R130), and that the
commands paint exactly those.
-/

namespace Sys2Proof.Machine

/-! ### The points of the fast paths (41_line.md R128, R130) -/

/-- Between a coordinate and the far endpoint of a length: upwards from it for a length of at least 1, else downwards. -/
theorem between_farEnd_iff (z len k : Int) :
    (min z (farEnd z len) ≤ k ∧ k ≤ max z (farEnd z len)) ↔
      if 1 ≤ len then z ≤ k ∧ k ≤ z + len - 1 else z + len - 1 ≤ k ∧ k ≤ z := by
  unfold farEnd
  by_cases hlen : 1 ≤ len
  · rw [if_pos hlen, min_eq_left (by omega), max_eq_right (by omega)]
  · rw [if_neg hlen, min_eq_right (by omega), max_eq_left (by omega)]

theorem mem_vPath (x y h : Int) (pt : Point) :
    pt ∈ vPath x y h ↔
      pt.1 = x ∧ (if 1 ≤ h then y ≤ pt.2 ∧ pt.2 ≤ y + h - 1 else y + h - 1 ≤ pt.2 ∧ pt.2 ≤ y) := by
  rw [vPath, mem_bres_vertical, between_farEnd_iff]

theorem mem_hPath (x y w : Int) (pt : Point) :
    pt ∈ hPath x y w ↔
      pt.2 = y ∧ (if 1 ≤ w then x ≤ pt.1 ∧ pt.1 ≤ x + w - 1 else x + w - 1 ≤ pt.1 ∧ pt.1 ≤ x) := by
  rw [hPath, mem_bres_horizontal, between_farEnd_iff]

/-! ### The points of DRAW_LINE (41_line.md R125) -/

/-- The smaller coordinate and the inclusive length reach the larger coordinate (41_line.md R126). -/
theorem farEnd_min_length (z0 z1 : Int) : farEnd (min z0 z1) (|z1 - z0| + 1) = max z0 z1 := by
  unfold farEnd
  rcases le_total z0 z1 with hle | hle
  · rw [min_eq_left hle, max_eq_right hle, abs_of_nonneg (by omega)]; omega
  · rw [min_eq_right hle, max_eq_left hle, abs_of_nonpos (by omega)]; omega

/-- The vertical path of DRAW_LINE joins its two endpoints. -/
theorem mem_vPath_endpoints (x y0 y1 : Int) (pt : Point) :
    pt ∈ vPath x (min y0 y1) (|y1 - y0| + 1) ↔ pt.1 = x ∧ min y0 y1 ≤ pt.2 ∧ pt.2 ≤ max y0 y1 := by
  rw [vPath, farEnd_min_length, mem_bres_vertical, min_eq_left min_le_max, max_eq_right min_le_max]

/-- The horizontal path of DRAW_LINE joins its two endpoints. -/
theorem mem_hPath_endpoints (x0 x1 y : Int) (pt : Point) :
    pt ∈ hPath (min x0 x1) y (|x1 - x0| + 1) ↔ pt.2 = y ∧ min x0 x1 ≤ pt.1 ∧ pt.1 ≤ max x0 x1 := by
  rw [hPath, farEnd_min_length, mem_bres_horizontal, min_eq_left min_le_max, max_eq_right min_le_max]

theorem mem_linePoints (x0 y0 x1 y1 : Int) (pt : Point) :
    pt ∈ linePoints x0 y0 x1 y1 ↔
      if x0 = x1 then pt.1 = x0 ∧ min y0 y1 ≤ pt.2 ∧ pt.2 ≤ max y0 y1
      else if y0 = y1 then pt.2 = y0 ∧ min x0 x1 ≤ pt.1 ∧ pt.1 ≤ max x0 x1
      else pt ∈ bres x0 y0 x1 y1 := by
  unfold linePoints
  by_cases hx : x0 = x1
  · rw [if_pos hx, if_pos hx, mem_vPath_endpoints]
  · rw [if_neg hx, if_neg hx]
    by_cases hy : y0 = y1
    · rw [if_pos hy, if_pos hy, mem_hPath_endpoints]
    · rw [if_neg hy, if_neg hy]

/-! ### The obligations -/

/-- Settles O30: DRAW_LINE is a drawing command over the points of its dispatch. -/
theorem drawLinePaintsItsPoints : Obligations.DrawLinePaintsItsPoints :=
  ⟨fun _ h => decode_drawLine h, fun _ x0 y0 x1 y1 col hl hw =>
    command_draw_paintsExactly hl hw col (mem_linePoints x0 y0 x1 y1)⟩

/-- Settles O31: DRAW_FAST_VLINE is a drawing command over the vertical path. -/
theorem fastVlinePaintsItsColumn : Obligations.FastVlinePaintsItsColumn :=
  ⟨fun _ h => decode_drawFastVline h, fun _ x y h col hl hw =>
    command_draw_paintsExactly hl hw col (mem_vPath x y h)⟩

/-- Settles O32: DRAW_FAST_HLINE is a drawing command over the horizontal path. -/
theorem fastHlinePaintsItsRow : Obligations.FastHlinePaintsItsRow :=
  ⟨fun _ h => decode_drawFastHline h, fun _ x y v col hl hw =>
    command_draw_paintsExactly hl hw col (mem_hPath x y v)⟩

end Sys2Proof.Machine
end

section
/-!
PROOFS. The fill commands (42_fill.md): the points of FILL_RECT (R140, R141, R143), that those of FILL_SCREEN are the
logical extent (R144), and when one of them is out of buffer (20_memory.md R62).
-/

namespace Sys2Proof.Machine

/-! ### FILL_RECT (42_fill.md R141) -/

/-- A rectangle has one vertical path per column; a height below 1 goes upwards (42_fill.md R140, R143). -/
theorem mem_rectPath_iff (x y w h : Int) (pt : Point) :
    pt ∈ rectPath x y w h ↔
      x ≤ pt.1 ∧ pt.1 < x + w ∧
        (if 1 ≤ h then y ≤ pt.2 ∧ pt.2 ≤ y + h - 1 else y + h - 1 ≤ pt.2 ∧ pt.2 ≤ y) := by
  rw [mem_rectPath, between_farEnd_iff]

/-- Settles O37: FILL_RECT is a drawing command over its rectangle. -/
theorem fillRectPaintsItsRectangle : Obligations.FillRectPaintsItsRectangle :=
  ⟨fun _ h => decode_fillRect h, fun _ x y v h col hl hw =>
    command_draw_paintsExactly hl hw col (mem_rectPath_iff x y v h)⟩

/-! ### FILL_SCREEN (42_fill.md R144) -/

section
variable {c : Config} {r : BitVec 2}

theorem swapsAxes_iff : swapsAxes r = true ↔ r = 1 ∨ r = 3 := by simp [swapsAxes]

/-- The logical extent, written out (20_memory.md R59, R60). -/
theorem inRange_iff (x y : Int) :
    inRange c r x y = true ↔
      if c.boundsMode = .swapped ∧ (r = 1 ∨ r = 3) then 0 ≤ x ∧ x < c.h ∧ 0 ≤ y ∧ y < c.w
      else 0 ≤ x ∧ x < c.w ∧ 0 ≤ y ∧ y < c.h := by
  rw [inRange, inBox_iff]
  by_cases hswap : c.boundsMode = .swapped ∧ (r = 1 ∨ r = 3)
  · have ⟨hmode, hr⟩ := hswap
    rw [if_pos hswap, extent_of_swapped hmode (swapsAxes_iff.mpr hr)]
  · have hext : extent c r = ((c.w : Int), (c.h : Int)) := by
      simpa [extent, swapsAxes_iff] using fun hb hr => absurd ⟨hb, hr⟩ hswap
    rw [if_neg hswap, hext]

/-- Both sides of the extent of a legal panel are at least 1 (00_scope.md R6). -/
theorem one_le_extent (hl : c.legal = true) : 1 ≤ (extent c r).1 ∧ 1 ≤ (extent c r).2 := by
  obtain ⟨-, hw, -, hh, -⟩ := (legal_iff c).mp hl
  unfold extent
  split <;> constructor <;> simp only <;> omega

/-- The points of FILL_SCREEN are those that pass the clip test (42_fill.md R144). -/
theorem mem_rectPath_extent_iff (hl : c.legal = true) (pt : Point) :
    pt ∈ rectPath 0 0 (extent c r).1 (extent c r).2 ↔ inRange c r pt.1 pt.2 = true := by
  rw [mem_rectPath_iff, if_pos (one_le_extent hl).2, inRange, inBox_iff]
  omega

/-- On a panel with a band, the band is the part of the extent beyond the square both axes share (20_memory.md R62). -/
theorem isOob_locate_iff_of_hasBand (hb : hasBand c r) (x y : Int) :
    (locate c r x y).isOob = true ↔
      (0 ≤ x ∧ x < c.w ∧ 0 ≤ y ∧ y < c.h) ∧ ((c.h : Int) ≤ x ∨ (c.w : Int) ≤ y) := by
  obtain ⟨hmode, hr, -⟩ := hb
  rw [isOob_locate_iff, inRange, extent_of_unswapped hmode, ← Bool.not_eq_true, inBox_iff, inBox_iff]
  rcases hr with rfl | rfl
  · simp only [BitVec.ofNat_eq_ofNat, xform_one]
    omega
  · simp only [BitVec.ofNat_eq_ofNat, xform_three]
    omega

/-- A band holds at least one point: the first beyond the shorter side. -/
theorem exists_isOob_locate_of_hasBand (hl : c.legal = true) (hb : hasBand c r) :
    ∃ pt : Point, (locate c r pt.1 pt.2).isOob = true := by
  obtain ⟨-, hw, -, hh, -⟩ := (legal_iff c).mp hl
  have ⟨_, _, hne⟩ := hb
  rcases lt_or_gt_of_ne hne with hlt | hgt
  · refine ⟨(0, c.w), (isOob_locate_iff_of_hasBand hb _ _).mpr ?_⟩
    simp only
    omega
  · refine ⟨(c.h, 0), (isOob_locate_iff_of_hasBand hb _ _).mpr ?_⟩
    simp only
    omega

end

/-- The extent has an out-of-buffer point exactly on a panel with a band (20_memory.md R62; 42_fill.md R145). -/
theorem State.exists_inRange_oobAt_iff {s : State} (hl : s.cfg.legal = true) :
    (∃ pt : Point, inRange s.cfg s.rot pt.1 pt.2 = true ∧ s.oobAt pt) ↔ hasBand s.cfg s.rot := by
  constructor
  · rintro ⟨pt, -, hoob⟩
    exact State.hasBand_of_oobAt hoob
  · intro hb
    obtain ⟨pt, hoob⟩ := exists_isOob_locate_of_hasBand hl hb
    exact ⟨pt, (isOob_locate_iff.mp hoob).1, hoob⟩

/-- The response of a painting command tells whether a point of its set was out of buffer (40_pixel.md R101). -/
theorem PaintsExactly.rsp_outOfBuffer_iff {S : Point → Prop} {col : Bool} {s t : State}
    (h : PaintsExactly S col s t) :
    t.rsp = some { status := .outOfBuffer, data := 0 } ↔ ∃ pt, S pt ∧ s.oobAt pt := by
  obtain ⟨-, -, -, hoob, hok⟩ := h
  by_cases hex : ∃ pt, S pt ∧ s.oobAt pt
  · rw [hoob hex]
    simp [hex]
  · rw [hok fun pt hS ho => hex ⟨pt, hS, ho⟩]
    simp [hex]

/-- Settles O39: FILL_SCREEN is a drawing command over the logical extent, and its response tells whether the extent
reaches into a band. -/
theorem fillScreenPaintsTheExtent : Obligations.FillScreenPaintsTheExtent := by
  refine ⟨fun _ h => decode_fillScreen h, fun s col hl hw => ?_⟩
  obtain ⟨t, hexec, hpaint⟩ := command_draw_paintsExactly hl hw col fun pt =>
    (mem_rectPath_extent_iff hl pt).trans (inRange_iff pt.1 pt.2)
  refine ⟨t, hexec, hpaint, hpaint.rsp_outOfBuffer_iff.trans ?_⟩
  simp only [← inRange_iff]
  exact State.exists_inRange_oobAt_iff hl

end Sys2Proof.Machine
end

section
/-!
PROOFS. The bit-reversal codec (43_codec.md): both builds reverse the bits of a byte (R150), and REVERSE_BYTE responds
with the reversed byte (R152).
-/

namespace Sys2Proof.Machine

/-! ### The reversal (43_codec.md R150) -/

/-- The choice of `CODEC_IMPL` cannot be observed: the table's entry is the crossed wires. -/
@[simp] theorem codec_eq_rev8 (impl : CodecImpl) (b : Byte) : codec impl b = rev8 b := by
  cases impl with
  | lut => exact revTable_getD b
  | combinational => rfl

/-- Each wire of the crossing: bit `7 - i` of the byte is appended at position `i`. -/
theorem getLsbD_rev8 (b : Byte) {i : Nat} (hi : i < 8) : (rev8 b).getLsbD i = b.getLsbD (7 - i) := by
  simp only [rev8, BitVec.getLsbD_append]
  interval_cases i <;> simp

/-- Settles O41: each build is the wire crossing, whose bits are known one by one. -/
theorem codecReversesBits : Obligations.CodecReversesBits := fun impl b =>
  ⟨codec_eq_rev8 impl b, fun _ hi => by rw [codec_eq_rev8, getLsbD_rev8 b hi]⟩

/-! ### REVERSE_BYTE (43_codec.md R152) -/

/-- The codec's operand `a[7:0]` is bits 55:48 of the command word (30_encoding.md R80, R83). -/
theorem byteOperand_aField (w : CmdWord) : byteOperand (aField w) = w.extractLsb' 48 8 := by
  ext i hi
  have hfield : i < 16 := by omega
  simp [byteOperand, aField, hfield]

/-- REVERSE_BYTE leaves the one state its rule gives, whichever codec was built. -/
theorem exec_reverseByte {s : State} (hl : s.cfg.legal = true) (v : Byte) :
    exec (.reverseByte v) s =
      .next { s with busy := true, rsp := some { status := .ok, data := (rev8 v).setWidth 32 } } :=
  exec_eq_next_of_answers_unique hl fun _ hu => by
    simpa [Answers, byteData] using hu

/-- Settles O43: the decoder's equation for opcode 0xB, then the command's one next state. -/
theorem reverseByteResponds : Obligations.ReverseByteResponds :=
  ⟨fun w hop => (decode_reverseByte hop).trans (congrArg _ (byteOperand_aField w)),
    fun _ v hl => exec_reverseByte hl v⟩

end Sys2Proof.Machine
end

section
/-!
PROOFS. The commands that talk to the display (44_wire.md): what a transaction leaves for each answer of the transport
(R161, R164, R165), and with it CLEAR (R172) and REFRESH (R182).
-/

namespace Sys2Proof.Machine

/-! ### What is left of a transaction, by the transport's answer (44_wire.md R161, R164, R165) -/

section
variable {x : Tx} {s : State} {k : Nat} {c : Byte} {rest : List TxPins}

theorem carryOn_of_accepts (h : TransportAccepts s x.pending.length rest) :
    carryOn x s =
      { s with
        vcom := if x.op = .refresh then s.vcom else !s.vcom
        busy := if x.op = .resetClear then false else s.busy
        cs := false, seq := .idle, txScript := rest
        rsp := if x.op = .resetClear then s.rsp
          else some { status := .ok, data := transactionData 0 (x.accepted + x.pending.length) }
        wire := s.wire ++ acceptedEvents x.pending ++ [.sel false] } := by
  rw [carryOn_eq x s _ (offerBytes_of_accepts x.accepted h), if_pos (by simp), endTransaction_eq]
  simp

theorem carryOn_of_rejects (h : TransportRejects s x.pending.length k c rest) :
    carryOn x s =
      { s with
        vcom := if x.op = .refresh then s.vcom else !s.vcom
        busy := if x.op = .resetClear then false else s.busy
        txeS := true, cs := false, seq := .idle, txScript := rest
        rsp := if x.op = .resetClear then s.rsp
          else some { status := .transportError, data := transactionData c (x.accepted + k) }
        wire := s.wire ++ rejectedEvents x.pending k c ++ [.sel false] } := by
  rw [carryOn_eq x s _ (offerBytes_of_rejects x.accepted h), if_pos (by simp), endTransaction_eq]
  simp

theorem carryOn_of_waits (h : TransportWaits s x.pending.length k) :
    carryOn x s =
      { s with
        txScript := []
        seq := .transaction { op := x.op, pending := x.pending.drop k, accepted := x.accepted + k }
        wire := s.wire ++ acceptedEvents (x.pending.take k) } := by
  have hpending : x.pending.drop k ≠ [] := by simpa using h.1
  rw [carryOn_eq x s _ (offerBytes_of_waits x.accepted h), if_neg (by simpa using hpending)]

end

section
variable {op : TxOp} {bytes : List Byte} {s : State} {k : Nat} {c : Byte} {rest : List TxPins}

theorem transact_of_accepts (h : TransportAccepts s bytes.length rest) :
    transact op bytes s =
      { s with
        vcom := if op = .refresh then s.vcom else !s.vcom
        busy := if op = .resetClear then false else s.busy
        cs := false, seq := .idle, txScript := rest
        rsp := if op = .resetClear then s.rsp
          else some { status := .ok, data := transactionData 0 bytes.length }
        wire := s.wire ++ .sel true :: acceptedEvents bytes ++ [.sel false] } := by
  rw [transact, carryOn_of_accepts (x := ⟨op, bytes, 0⟩) (s := select true s) h]
  simp [select]

theorem transact_of_rejects (h : TransportRejects s bytes.length k c rest) :
    transact op bytes s =
      { s with
        vcom := if op = .refresh then s.vcom else !s.vcom
        busy := if op = .resetClear then false else s.busy
        txeS := true, cs := false, seq := .idle, txScript := rest
        rsp := if op = .resetClear then s.rsp
          else some { status := .transportError, data := transactionData c k }
        wire := s.wire ++ .sel true :: rejectedEvents bytes k c ++ [.sel false] } := by
  rw [transact, carryOn_of_rejects (x := ⟨op, bytes, 0⟩) (s := select true s) h]
  simp [select]

theorem transact_of_waits (h : TransportWaits s bytes.length k) :
    transact op bytes s =
      { s with
        cs := true, txScript := []
        seq := .transaction { op := op, pending := bytes.drop k, accepted := k }
        wire := s.wire ++ .sel true :: acceptedEvents (bytes.take k) } := by
  rw [transact, carryOn_of_waits (x := ⟨op, bytes, 0⟩) (s := select true s) h]
  simp [select]

end

/-! ### The data word (10_state.md R34) -/

/-- A count that fits its 24 bits fills the data word of a transaction without an error (10_state.md R34). -/
theorem transactionData_zero {n : Nat} (hn : n < 2 ^ 24) : transactionData 0 n = BitVec.ofNat 32 n := by
  apply BitVec.eq_of_toNat_eq
  simp only [transactionData, BitVec.toNat_append, BitVec.ofNat_eq_ofNat, BitVec.toNat_ofNat, Nat.zero_mod,
    Nat.zero_shiftLeft, Nat.zero_or]
  omega

/-! ### CLEAR (44_wire.md R172) -/

/-- The bytes of a Clear, written out (44_wire.md R173). -/
theorem clearFormat_eq (vcom : Bool) : clearFormat vcom = [if vcom then 0x60#8 else 0x20#8, 0x00#8] := by
  cases vcom <;> decide

/-- The frame a CLEAR fills, and its transaction. -/
theorem exec_clear {s : State} (hl : s.cfg.legal = true) :
    exec .clear s =
      .next (transact .clear [if s.vcom then 0x60#8 else 0x20#8, 0x00#8]
        { s with busy := true, fb := s.fb.blank s.cfg.nb }) :=
  exec_eq_next_of_answers_unique hl fun u hu => by
    simp only [Answers] at hu
    rw [hu, clearOp, clearBytes_eq, clearFormat_eq]

/-- The fill reaches every byte of the frame and no other (44_wire.md R170). -/
theorem read_blank_nb (s : State) :
    (∀ a, a < s.cfg.nb → (s.fb.blank s.cfg.nb).read a = 0xFF#8) ∧
      ∀ a, s.cfg.nb ≤ a → (s.fb.blank s.cfg.nb).read a = s.fb.read a :=
  ⟨fun a ha => (Memory.read_blank _ _ a).trans (if_pos ha),
    fun a ha => (Memory.read_blank _ _ a).trans (if_neg (Nat.not_lt.mpr ha))⟩

/-- Settles O45: the fill, then the transaction of two bytes, by the transport's answer. -/
theorem clearFillsAndTransacts : Obligations.ClearFillsAndTransacts := by
  refine ⟨fun _ => decode_clear, fun s hl =>
    ⟨fun rest haccepts => ?_, fun k c rest hrejects => ?_, fun k hwaits => ?_⟩⟩ <;>
    refine ⟨_, exec_clear hl, ?_⟩
  · rw [transact_of_accepts (by exact haccepts), transactionData_zero (by simp)]
    exact ⟨rfl, read_blank_nb s⟩
  · rw [transact_of_rejects (by exact hrejects)]
    exact ⟨rfl, read_blank_nb s⟩
  · rw [transact_of_waits (by exact hwaits)]
    exact ⟨rfl, read_blank_nb s⟩

/-! ### REFRESH (44_wire.md R182) -/

/-- The command byte, the scanlines and the trailing byte (44_wire.md R183). -/
theorem length_refreshFormat (vcom : Bool) (cfg : Config) (fb : Memory) :
    (refreshFormat vcom cfg fb).length = 2 + cfg.h * (cfg.bpl + 2) := by
  have hlines : ((List.range cfg.h).flatMap (lineFormat cfg fb)).length = cfg.h * (cfg.bpl + 2) := by
    simp [List.length_flatMap]
  simp only [refreshFormat, List.cons_append, List.length_cons, List.length_append, List.length_nil, hlines]
  omega

/-- The largest legal panel has 255 scanlines of 4095 bytes (00_scope.md R6; 44_wire.md R164). -/
theorem length_refreshFormat_le {cfg : Config} (hl : cfg.legal = true) (vcom : Bool) (fb : Memory) :
    (refreshFormat vcom cfg fb).length ≤ 1044737 := by
  obtain ⟨-, -, hw, -, hh⟩ := (legal_iff cfg).mp hl
  have hbpl : cfg.bpl ≤ 4095 := by unfold Config.bpl; omega
  have hlines : cfg.h * (cfg.bpl + 2) ≤ 255 * (4095 + 2) := Nat.mul_le_mul hh (by omega)
  rw [length_refreshFormat]
  omega

/-- The transaction of a REFRESH starts with the polarity inverted, and sends the one before (44_wire.md R180, R184). -/
theorem exec_refresh {s : State} (hl : s.cfg.legal = true) :
    exec .refresh s =
      .next (transact .refresh (refreshFormat s.vcom s.cfg s.fb) { s with busy := true, vcom := !s.vcom }) :=
  exec_eq_next_of_answers_unique hl fun _ hu => hu

/-- Settles O46: the transaction of the frame's bytes, by the transport's answer. -/
theorem refreshSendsTheFrame : Obligations.RefreshSendsTheFrame := by
  refine ⟨fun _ => decode_refresh, fun s hl bytes hbytes => ?_⟩
  have hlen : bytes.length < 2 ^ 24 := by
    have hle := length_refreshFormat_le hl s.vcom s.fb
    rw [hbytes]
    omega
  rw [exec_refresh hl, ← hbytes]
  refine ⟨fun rest haccepts => ?_, fun k c rest hrejects => ?_, fun k hwaits => ?_⟩
  · rw [transact_of_accepts (by exact haccepts), transactionData_zero hlen]
    rfl
  · rw [transact_of_rejects (by exact hrejects)]
    rfl
  · rw [transact_of_waits (by exact hwaits)]

end Sys2Proof.Machine
end

section
/-!
PROOFS. The control commands (45_control.md): NOP (R190) and SET_ROTATION (R192).
-/

namespace Sys2Proof.Machine

/-! ### NOP (45_control.md R190) -/

/-- NOP leaves the core busy with its response, and nothing else changed. -/
theorem exec_nop {s : State} (hl : s.cfg.legal = true) :
    exec .nop s = .next { s with busy := true, rsp := some { status := .ok, data := 0 } } :=
  exec_eq_next_of_answers_unique hl fun _ hu => hu

/-- Settles O53: the decoder's equation for opcode 0, then the command's one next state. -/
theorem nopResponds : Obligations.NopResponds :=
  ⟨fun _ hop => decode_nop hop, fun _ hl => exec_nop hl⟩

/-! ### SET_ROTATION (45_control.md R192) -/

/-- The rotation operand `a[1:0]` is bits 49:48 of the command word (30_encoding.md R80, R83). -/
theorem rotOperand_aField (w : CmdWord) : rotOperand (aField w) = w.extractLsb' 48 2 := by
  ext i hi
  have hfield : i < 16 := by omega
  simp [rotOperand, aField, hfield]

/-- SET_ROTATION's effect beside its response is the load of `ROT`. -/
theorem exec_setRotation {s : State} (hl : s.cfg.legal = true) (r : BitVec 2) :
    exec (.setRotation r) s = .next { s with busy := true, rot := r, rsp := some { status := .ok, data := 0 } } :=
  exec_eq_next_of_answers_unique hl fun _ hu => hu

/-- Settles O54: the decoder's equation for opcode 8, with the operand's place in the word, then the command's one next
state. -/
theorem setRotationLoadsRotation : Obligations.SetRotationLoadsRotation :=
  ⟨fun w hop => (decode_setRotation hop).trans (congrArg _ (rotOperand_aField w)),
    fun _ r hl => exec_setRotation hl r⟩

end Sys2Proof.Machine
end

section
/-!
PROOFS. Reset and the response hold (70_reset_and_hazards.md): what an edge in reset loads and abandons (R230), the
reset-time Clear (R232), and a response that waits for its host (R249).
-/

namespace Sys2Proof.Machine

/-! ### The response hold (70_reset_and_hazards.md R249) -/

/-- A machine whose step leaves a state as it is stays there. -/
theorem run_of_step_fixed {M : Host.Core} {s : M.State} (h : M.step s = .next s) (k : Nat) : M.run k s = .next s := by
  induction k with
  | zero => rfl
  | succ k ih => simp [Host.Core.run, h, ih]

/-- A response on offer takes the whole edge of an idle core: no command is looked at (10_state.md R33). -/
theorem step_of_rsp {s : State} (hl : s.cfg.legal = true) (hr : s.pins.rst = false) (hseq : s.seq = .idle)
    (hrsp : s.rsp.isSome = true) : step s = .next (responseEdge s) := by
  simp [step, coreEdge, runningEdge, hl, hr, hseq, hrsp]

theorem responseEdge_of_held {s : State} (h : s.pins.rspReady = false) : responseEdge s = s := by
  simp [responseEdge, h]

theorem responseEdge_of_taken {s : State} (h : s.pins.rspReady = true) :
    responseEdge s = { s with rsp := none, busy := false } := by
  rw [responseEdge, if_pos h]
  rfl

/-- Settles O8: the edge with a held response changes nothing, so neither does any number of them. -/
theorem responseIsHeldUntilTaken : Obligations.ResponseIsHeldUntilTaken := by
  intro s hl hr hseq hrsp
  have hstep := step_of_rsp hl hr hseq hrsp
  refine ⟨fun hheld => ?_, fun htaken => ?_⟩
  · rw [responseEdge_of_held hheld] at hstep
    exact run_of_step_fixed (M := core) hstep
  · rw [hstep, responseEdge_of_taken htaken]

/-! ### The edge in reset (70_reset_and_hazards.md R230) -/

/-- Settles O19, from the fields `resetEdge` writes. -/
theorem resetEdgeLoadsAndAbandons : Obligations.ResetEdgeLoadsAndAbandons := fun s hl hr =>
  ⟨resetEdge s, step_of_rst hl hr, rfl, rfl, rfl, rfl, rfl⟩

/-! ### The reset-time Clear (70_reset_and_hazards.md R232) -/

/-- The frame the reset-time Clear fills, and its transaction from polarity 0. -/
theorem step_of_resetClear_polarity_zero {s : State} (hl : s.cfg.legal = true) (hr : s.pins.rst = false)
    (hseq : s.seq = .resetClear) (hvcom : s.vcom = false) :
    step s = .next (transact .resetClear [0x20#8, 0x00#8] { s with fb := s.fb.blank s.cfg.nb }) := by
  rw [step_of_resetClear hl hr hseq, clearOp, clearBytes_eq, clearFormat_eq, hvcom]
  rfl

/-- Settles O21: the fill, then the transaction of two bytes without a response, by the transport's answer. -/
theorem resetTimeClearRunsOnce : Obligations.ResetTimeClearRunsOnce := by
  intro s hl hr hseq hvcom
  refine ⟨fun rest haccepts => ?_, fun k c rest hrejects => ?_, fun k hwaits => ?_⟩ <;>
    refine ⟨_, step_of_resetClear_polarity_zero hl hr hseq hvcom, ?_⟩
  · rw [transact_of_accepts (by exact haccepts)]
    exact ⟨by simp [hvcom], read_blank_nb s⟩
  · rw [transact_of_rejects (by exact hrejects)]
    exact ⟨by simp [hvcom], read_blank_nb s⟩
  · rw [transact_of_waits (by exact hwaits)]
    exact ⟨rfl, read_blank_nb s⟩

end Sys2Proof.Machine
end

section
/-!
PROOFS. The command word, continued (30_encoding.md): the fields of a packed word, that the decoder takes back what the
encoder wrote (R80 to R83), and that decoded operands fit their fields (R83).
-/

namespace Sys2Proof.Machine

/-! ### The fields of a packed word (30_encoding.md R80) -/

section
variable (op : BitVec 4) (col : Bool) (a b c d : BitVec 16)

@[simp] theorem opField_packWord : opField (packWord op col a b c d) = op :=
  (Sys2Proof.Laws.packWord_op_rsv op col a b c d).1

@[simp] theorem colField_packWord : colField (packWord op col a b c d) = col := by
  change (op ++ BitVec.ofBool col ++ 0#3 ++ a ++ b ++ c ++ d).getLsbD 67 = col
  rw [BitVec.getLsbD_append, BitVec.getLsbD_append, BitVec.getLsbD_append, BitVec.getLsbD_append,
    BitVec.getLsbD_append, BitVec.getLsbD_append]
  simp

@[simp] theorem aField_packWord : aField (packWord op col a b c d) = a := by
  change (op ++ BitVec.ofBool col ++ 0#3 ++ a ++ b ++ c ++ d).extractLsb' 48 16 = a
  rw [BitVec.extractLsb'_append_eq_of_le (by decide), BitVec.extractLsb'_append_eq_of_le (by decide),
    BitVec.extractLsb'_append_eq_of_le (by decide), BitVec.extractLsb'_append_eq_right]

@[simp] theorem bField_packWord : bField (packWord op col a b c d) = b := by
  change (op ++ BitVec.ofBool col ++ 0#3 ++ a ++ b ++ c ++ d).extractLsb' 32 16 = b
  rw [BitVec.extractLsb'_append_eq_of_le (by decide), BitVec.extractLsb'_append_eq_of_le (by decide),
    BitVec.extractLsb'_append_eq_right]

@[simp] theorem cField_packWord : cField (packWord op col a b c d) = c := by
  change (op ++ BitVec.ofBool col ++ 0#3 ++ a ++ b ++ c ++ d).extractLsb' 16 16 = c
  rw [BitVec.extractLsb'_append_eq_of_le (by decide), BitVec.extractLsb'_append_eq_right]

@[simp] theorem dField_packWord : dField (packWord op col a b c d) = d := by
  change (op ++ BitVec.ofBool col ++ 0#3 ++ a ++ b ++ c ++ d).extractLsb' 0 16 = d
  rw [BitVec.extractLsb'_append_eq_right]

end

/-! ### The operands (30_encoding.md R83) -/

theorem inField16_iff (v : Int) : inField16 v = true ↔ -32768 ≤ v ∧ v ≤ 32767 := by simp [inField16]

/-- A field holds each value of its range. -/
theorem sext16_field16 {v : Int} (h : inField16 v = true) : sext16 (field16 v) = v := by
  obtain ⟨hlo, hhi⟩ := (inField16_iff v).mp h
  exact BitVec.toInt_ofInt_eq_self (by decide) (by norm_num; omega) (by norm_num; omega)

/-- A field holds no value outside its range. -/
theorem inField16_sext16 (a : BitVec 16) : inField16 (sext16 a) = true := by
  have hlo := BitVec.le_toInt a
  have hhi := BitVec.toInt_lt (x := a)
  rw [inField16_iff, sext16]
  norm_num at hlo hhi
  omega

theorem rotOperand_setWidth (r : BitVec 2) : rotOperand (r.setWidth 16) = r := by
  rw [rotOperand, BitVec.extractLsb'_setWidth_of_le (by decide), BitVec.extractLsb'_eq_self]

theorem byteOperand_setWidth (v : Byte) : byteOperand (v.setWidth 16) = v := by
  rw [byteOperand, BitVec.extractLsb'_setWidth_of_le (by decide), BitVec.extractLsb'_eq_self]

/-! ### The obligations -/

/-- The opcode the encoder writes is the one the decoder looks at. -/
theorem opField_encode (i : Instr) : opField (encode i) = i.opcode := by
  cases i <;> exact opField_packWord _ _ _ _ _ _

/-- Settles O1: the decoder's equation for the command's opcode, then each operand read back from its field. -/
theorem decodeOfEncode : Obligations.DecodeOfEncode := by
  intro i hwf
  have hop := opField_encode i
  cases i <;> simp only [Instr.wellFormed, Bool.and_eq_true] at hwf
  case nop => exact decode_nop hop
  case setPixel x y col =>
    obtain ⟨hx, hy⟩ := hwf
    rw [decode_setPixel hop]
    simp [encode, sext16_field16 hx, sext16_field16 hy]
  case getPixel x y =>
    obtain ⟨hx, hy⟩ := hwf
    rw [decode_getPixel hop]
    simp [encode, sext16_field16 hx, sext16_field16 hy]
  case drawLine x0 y0 x1 y1 col =>
    obtain ⟨⟨⟨hx0, hy0⟩, hx1⟩, hy1⟩ := hwf
    rw [decode_drawLine hop]
    simp [encode, sext16_field16 hx0, sext16_field16 hy0, sext16_field16 hx1, sext16_field16 hy1]
  case drawFastVline x y h col =>
    obtain ⟨⟨hx, hy⟩, hh⟩ := hwf
    rw [decode_drawFastVline hop]
    simp [encode, sext16_field16 hx, sext16_field16 hy, sext16_field16 hh]
  case drawFastHline x y w col =>
    obtain ⟨⟨hx, hy⟩, hw⟩ := hwf
    rw [decode_drawFastHline hop]
    simp [encode, sext16_field16 hx, sext16_field16 hy, sext16_field16 hw]
  case fillRect x y w h col =>
    obtain ⟨⟨⟨hx, hy⟩, hw⟩, hh⟩ := hwf
    rw [decode_fillRect hop]
    simp [encode, sext16_field16 hx, sext16_field16 hy, sext16_field16 hw, sext16_field16 hh]
  case fillScreen col => rw [decode_fillScreen hop]; simp [encode]
  case setRotation r => rw [decode_setRotation hop]; simp [encode, rotOperand_setWidth]
  case clear => exact decode_clear hop
  case refresh => exact decode_refresh hop
  case reverseByte v => rw [decode_reverseByte hop]; simp [encode, byteOperand_setWidth]
  case reservedC => exact decode_reservedC hop
  case reservedD => exact decode_reservedD hop
  case reservedE => exact decode_reservedE hop
  case reservedF => exact decode_reservedF hop

/-- Settles O4, by cases on the opcode: every coordinate and length is a sign-extended field. -/
theorem decodedOperandsFitFields : Obligations.DecodedOperandsFitFields := by
  intro w
  cases h : opField w using opcode_cases
  case nop => rw [decode_nop h]; rfl
  case setPixel => rw [decode_setPixel h]; simp [Instr.wellFormed, inField16_sext16]
  case getPixel => rw [decode_getPixel h]; simp [Instr.wellFormed, inField16_sext16]
  case drawLine => rw [decode_drawLine h]; simp [Instr.wellFormed, inField16_sext16]
  case drawFastVline => rw [decode_drawFastVline h]; simp [Instr.wellFormed, inField16_sext16]
  case drawFastHline => rw [decode_drawFastHline h]; simp [Instr.wellFormed, inField16_sext16]
  case fillRect => rw [decode_fillRect h]; simp [Instr.wellFormed, inField16_sext16]
  case fillScreen => rw [decode_fillScreen h]; rfl
  case setRotation => rw [decode_setRotation h]; rfl
  case clear => rw [decode_clear h]; rfl
  case refresh => rw [decode_refresh h]; rfl
  case reverseByte => rw [decode_reverseByte h]; rfl
  case reservedC => rw [decode_reservedC h]; rfl
  case reservedD => rw [decode_reservedD h]; rfl
  case reservedE => rw [decode_reservedE h]; rfl
  case reservedF => rw [decode_reservedF h]; rfl

/-- Settles O5: the twelve words are literals, so the decoder is evaluated on each. -/
theorem exampleWordsDecode : Obligations.ExampleWordsDecode := by
  unfold Obligations.ExampleWordsDecode
  decide

end Sys2Proof.Machine
end

section
/-!
PROOFS. The core's invariant (10_state.md R26, R27, R33; 20_memory.md R50; 44_wire.md R161 to R165): the state after
reset satisfies it, and every step keeps it.
-/

namespace Sys2Proof.Machine

/-! ### What stays of the storage -/

/-- The invariant's clauses about the parameters and the memory. -/
structure StorageInvariant (cfg : Config) (fb : Memory) : Prop where
  legal : cfg.legal = true
  canonical : fb.wf = true
  inside : fb.within cfg.nb = true

theorem CoreInvariant.storage {s : State} (h : CoreInvariant s) : StorageInvariant s.cfg s.fb :=
  ⟨h.legalParameters, h.memoryCanonical, h.memoryInside⟩

/-- The fill keeps the form of the memory and its bound. -/
theorem StorageInvariant.blank {cfg : Config} {fb : Memory} (h : StorageInvariant cfg fb) :
    StorageInvariant cfg (fb.blank cfg.nb) :=
  ⟨h.legal, Memory.wf_blank _ h.canonical, Memory.within_blank _ h.inside⟩

/-! ### A core outside a transaction -/

/-- The invariant of a core that runs no transaction, clause by clause. -/
theorem coreInvariant_of_not_selected {s : State} (hst : StorageInvariant s.cfg s.fb) (hcs : s.cs = false)
    (hseq : ∀ x, s.seq ≠ .transaction x) (hbusy : s.busy = true ↔ (s.seq ≠ .idle ∨ s.rsp.isSome = true))
    (hrsp : s.rsp.isSome = true → s.seq = .idle) (hwire : wireMode s.wire = some .unselected) : CoreInvariant s where
  legalParameters := hst.legal
  memoryCanonical := hst.canonical
  memoryInside := hst.inside
  selectedInTransaction := by simp [hcs, hseq]
  busyInCommand := hbusy
  responseAfterCommand := hrsp
  transactionBytes := fun x hx => absurd hx (hseq x)
  wireShape := by simp [hcs, hwire]

section
variable {s : State} (h : CoreInvariant s)
include h

theorem CoreInvariant.cs_of_not_transaction (hseq : ∀ x, s.seq ≠ .transaction x) : s.cs = false := by
  rw [← Bool.not_eq_true, h.selectedInTransaction]
  simpa using hseq

theorem CoreInvariant.wire_of_not_selected (hcs : s.cs = false) : wireMode s.wire = some .unselected := by
  have := h.wireShape
  rwa [hcs] at this

theorem CoreInvariant.wire_of_selected (hcs : s.cs = true) : wireMode s.wire = some .selected := by
  have := h.wireShape
  rwa [hcs] at this

theorem CoreInvariant.rsp_of_not_idle (hseq : s.seq ≠ .idle) : s.rsp = none := by
  by_contra hne
  exact hseq (h.responseAfterCommand (Option.isSome_iff_ne_none.mpr hne))

end

/-! ### Transactions (44_wire.md R161, R162, R165) -/

/-- A stretch of offered bytes and the fall of chip-select leave the transport unselected again (44_wire.md R163). -/
theorem wireMode_ended {wire : List Event} (hwire : wireMode wire = some .selected) (level : TxPins)
    (script : List TxPins) (bytes : List Byte) (n : Nat) :
    wireMode (wire ++ (offerBytes level script bytes n).events ++ [.sel false]) = some .unselected := by
  obtain ⟨-, -, hfold⟩ := offerBytes_fits level script bytes n
  rw [wireMode_append, wireMode_append, hwire, hfold]
  split <;> rfl

/-- A transaction that goes on leaves the invariant: chip-select is 1 and the events seen are a whole number of
transactions and a part of this one, whatever the sequencer says. -/
theorem carryOn_invariant {x : Tx} {s : State} (hst : StorageInvariant s.cfg s.fb) (hcs : s.cs = true)
    (hbusy : s.busy = true) (hrsp : s.rsp = none) (hwire : wireMode s.wire = some .selected)
    (hbytes : x.accepted + x.pending.length = transactionLength s.cfg x.op) : CoreInvariant (carryOn x s) := by
  obtain ⟨hsum, -, hfold⟩ := offerBytes_fits s.pins.tx s.txScript x.pending x.accepted
  rcases carryOn_cases x s _ rfl with ⟨-, e⟩ | ⟨hnone, hpending, e⟩ <;> rw [e]
  · refine coreInvariant_of_not_selected hst rfl (fun _ => Sequencer.noConfusion) ?_ (fun _ => rfl)
      (wireMode_ended hwire _ _ _ _)
    by_cases hop : x.op = .resetClear <;> simp [hop, hbusy, hrsp]
  · exact {
      legalParameters := hst.legal
      memoryCanonical := hst.canonical
      memoryInside := hst.inside
      selectedInTransaction := ⟨fun _ => ⟨_, rfl⟩, fun _ => hcs⟩
      busyInCommand := ⟨fun _ => Or.inl Sequencer.noConfusion, fun _ => hbusy⟩
      responseAfterCommand := fun hsome => by simp [hrsp] at hsome
      transactionBytes := by
        rintro y hy
        cases hy
        exact ⟨hpending, hsum.trans hbytes⟩
      wireShape := by simp [wireMode_append, hwire, hfold, hnone, hcs] }

/-- A transaction that starts from a released chip-select leaves the invariant. -/
theorem transact_invariant {op : TxOp} {bytes : List Byte} {s : State} (hst : StorageInvariant s.cfg s.fb)
    (hbusy : s.busy = true) (hrsp : s.rsp = none) (hwire : wireMode s.wire = some .unselected)
    (hbytes : bytes.length = transactionLength s.cfg op) : CoreInvariant (transact op bytes s) := by
  refine carryOn_invariant (s := select true s) hst rfl hbusy hrsp ?_ (by simpa using hbytes)
  rw [select_wire, wireMode_append, hwire]
  rfl

theorem clearOp_invariant {op : TxOp} {s : State} (hop : op = .clear ∨ op = .resetClear)
    (hst : StorageInvariant s.cfg s.fb) (hbusy : s.busy = true) (hrsp : s.rsp = none)
    (hwire : wireMode s.wire = some .unselected) : CoreInvariant (clearOp op s) := by
  refine transact_invariant (s := { s with fb := s.fb.blank s.cfg.nb })
    hst.blank hbusy hrsp hwire ?_
  rcases hop with rfl | rfl <;> rfl

/-! ### Commands (10_state.md R33) -/

section
variable {s t : State} (h : CoreInvariant s) (hseq : s.seq = .idle)
include h hseq

theorem CoreInvariant.cs_of_idle : s.cs = false :=
  h.cs_of_not_transaction fun x hx => by rw [hseq] at hx; cases hx

theorem CoreInvariant.wire_of_idle : wireMode s.wire = some .unselected :=
  h.wire_of_not_selected (h.cs_of_idle hseq)

/-- A command that responds without a transaction keeps the invariant of an idle core. -/
theorem coreInvariant_of_responds (hst : StorageInvariant t.cfg t.fb) (hcs : t.cs = s.cs) (hseq' : t.seq = s.seq)
    (hwire : t.wire = s.wire) (hbusy : t.busy = true) (hrsp : t.rsp.isSome = true) : CoreInvariant t := by
  have hidle : t.seq = .idle := hseq'.trans hseq
  refine coreInvariant_of_not_selected hst (hcs.trans (h.cs_of_idle hseq)) ?_ (by simp [hbusy, hrsp]) (fun _ => hidle)
    (hwire.symm ▸ h.wire_of_idle hseq)
  rw [hidle]
  exact fun _ => Sequencer.noConfusion

theorem Draws.invariant {col : Bool} {pts : List Point} (hd : Draws col pts s t) : CoreInvariant t := by
  obtain ⟨m, rfl, hin, hwf⟩ := hd
  exact coreInvariant_of_responds h hseq
    ⟨h.legalParameters, (hwf h.memoryCanonical).1, hin h.memoryInside⟩ rfl rfl rfl rfl rfl

/-- Every command accepted by an idle core with no response pending keeps the invariant. -/
theorem Answers.invariant {i : Instr} (hrsp : s.rsp = none) (ha : Answers i s t) : CoreInvariant t := by
  have hst := h.storage
  have hwire := h.wire_of_idle hseq
  cases i with
  | setPixel x y col => exact Draws.invariant h hseq ha
  | drawLine x0 y0 x1 y1 col => exact Draws.invariant h hseq ha
  | drawFastVline x y h' col => exact Draws.invariant h hseq ha
  | drawFastHline x y w col => exact Draws.invariant h hseq ha
  | fillRect x y w h' col => exact Draws.invariant h hseq ha
  | fillScreen col => exact Draws.invariant h hseq ha
  | clear => subst ha; exact clearOp_invariant (s := { s with busy := true }) (.inl rfl) hst rfl hrsp hwire
  | refresh =>
    subst ha
    exact transact_invariant (s := flipVcom { s with busy := true }) hst rfl hrsp hwire (length_refreshFormat _ _ _)
  | nop => subst ha; exact coreInvariant_of_responds h hseq hst rfl rfl rfl rfl rfl
  | getPixel x y => subst ha; exact coreInvariant_of_responds h hseq hst rfl rfl rfl rfl rfl
  | setRotation r => subst ha; exact coreInvariant_of_responds h hseq hst rfl rfl rfl rfl rfl
  | reverseByte v => subst ha; exact coreInvariant_of_responds h hseq hst rfl rfl rfl rfl rfl
  | reservedC => subst ha; exact coreInvariant_of_responds h hseq hst rfl rfl rfl rfl rfl
  | reservedD => subst ha; exact coreInvariant_of_responds h hseq hst rfl rfl rfl rfl rfl
  | reservedE => subst ha; exact coreInvariant_of_responds h hseq hst rfl rfl rfl rfl rfl
  | reservedF => subst ha; exact coreInvariant_of_responds h hseq hst rfl rfl rfl rfl rfl

end

/-! ### Steps -/

section
variable {s : State} (h : CoreInvariant s)
include h

theorem CoreInvariant.resetEdge : CoreInvariant (resetEdge s) := by
  refine coreInvariant_of_not_selected h.storage rfl (fun _ => Sequencer.noConfusion) (by simp)
    (fun hsome => by simp at hsome) ?_
  rw [resetEdge_wire]
  cases hcs : s.cs with
  | false => exact h.wire_of_not_selected hcs
  | true => rw [if_pos rfl, wireMode_append, h.wire_of_selected hcs]; rfl

theorem CoreInvariant.responseEdge (hseq : s.seq = .idle) : CoreInvariant (responseEdge s) := by
  unfold Machine.responseEdge
  split
  · refine coreInvariant_of_not_selected h.storage (h.cs_of_idle hseq) ?_ (by simp [hseq]) (fun _ => hseq)
      (h.wire_of_idle hseq)
    rw [takeResponse_seq, hseq]
    exact fun _ => Sequencer.noConfusion
  · exact h

/-- The command port is no part of the invariant. -/
theorem CoreInvariant.popCommand : CoreInvariant s.popCommand :=
  { h with }

end

/-- Settles O12, by what a step can do: reset and a taken response clear the sequencer's work, and the reset-time Clear,
a transaction that goes on and a command each start from the clauses the invariant gives for their sequencer state. -/
theorem stepKeepsCoreInvariant : Obligations.StepKeepsCoreInvariant := by
  intro s t hinv hstep
  obtain ⟨-, hcases⟩ := step_cases hstep
  rcases hcases with ⟨-, rfl⟩ | ⟨-, hseq, rfl⟩ | ⟨-, x, hseq, rfl⟩ | ⟨-, hseq, -, rfl⟩ |
    ⟨-, hseq, hrsp, -, w, rest, -, hexec⟩ | ⟨-, -, -, -, rfl⟩
  · exact hinv.resetEdge
  · have hbusy := hinv.busyInCommand.mpr (Or.inl (by simp [hseq]))
    have hcs := hinv.cs_of_not_transaction (by simp [hseq])
    exact clearOp_invariant (.inr rfl) hinv.storage hbusy
      (hinv.rsp_of_not_idle (by simp [hseq])) (hinv.wire_of_not_selected hcs)
  · have hbusy := hinv.busyInCommand.mpr (Or.inl (by simp [hseq]))
    have hcs := hinv.selectedInTransaction.mpr ⟨x, hseq⟩
    exact carryOn_invariant hinv.storage hcs hbusy
      (hinv.rsp_of_not_idle (by simp [hseq])) (hinv.wire_of_selected hcs)
      (hinv.transactionBytes x hseq).2
  · exact hinv.responseEdge hseq
  · exact Answers.invariant hinv.popCommand hseq hrsp (exec_answers hexec).2
  · exact hinv

/-- Settles O11: right after reset no transaction runs, and the reset-time Clear makes the core busy. -/
theorem resetStateIsInvariant : Obligations.ResetStateIsInvariant :=
  coreInvariant_of_not_selected ⟨by decide, rfl, rfl⟩ rfl (fun _ => Sequencer.noConfusion) (by decide)
    (fun h => absurd h (by decide)) rfl

/-- Only a waiting transaction offers a byte (44_wire.md R161). -/
theorem State.seq_of_txValid {s : State} (h : s.txValid = true) : ∃ x, s.seq = .transaction x := by
  cases hseq : s.seq with
  | transaction x => exact ⟨x, rfl⟩
  | idle => simp [State.txValid, State.txData, hseq] at h
  | resetClear => simp [State.txValid, State.txData, hseq] at h

/-- Settles O13: a byte on offer is a waiting transaction's, and chip-select is asserted in one. -/
theorem byteOfferedOnlyWhenSelected : Obligations.ByteOfferedOnlyWhenSelected := fun _ hinv hvalid =>
  hinv.selectedInTransaction.mpr (State.seq_of_txValid hvalid)

end Sys2Proof.Machine
end

section
/-!
PROOFS. What a step and a command do to the rest of the state (10_state.md): a ready core runs the offered command
(R33), an idle one keeps its state, sticky bits stay set (R30), who writes the framebuffer (R22) and the wire (R24;
44_wire.md R163), which exceptions each family of commands raises (60_exceptions.md R205), and what the output ports
show (R27, R28, R32).
-/

namespace Sys2Proof.Machine

/-! ### Steps of an idle core (10_state.md R33) -/

/-- Settles O6: out of reset, an idle ready core with no response on offer looks at its command port. -/
theorem stepRunsOfferedCommand : Obligations.StepRunsOfferedCommand := by
  intro s w rest hl hr hseq hrsp hbusy hcmds
  have hpop : s.popCommand = { s with hostCmds := rest } := by simp [State.popCommand, hcmds]
  have hready : s.cmdReady = true := by simp [State.cmdReady, hbusy, hr]
  have hword : s.cmdWord = some w := by simp [State.cmdWord, hcmds]
  simp [step, coreEdge, runningEdge, commandEdge, hl, hr, hseq, hrsp, hready, hword, hpop]

theorem step_of_no_command {s : State} (hl : s.cfg.legal = true) (hr : s.pins.rst = false) (hseq : s.seq = .idle)
    (hrsp : s.rsp = none) (hcmds : s.hostCmds = []) : step s = .next s := by
  have hword : s.cmdWord = none := by simp [State.cmdWord, hcmds]
  simp [step, coreEdge, runningEdge, commandEdge, hl, hr, hseq, hrsp, hword]

/-- Settles O7: one idle edge changes nothing, so neither does any number of them. -/
theorem idleCoreKeepsItsState : Obligations.IdleCoreKeepsItsState := fun _ hl hr hseq hrsp hcmds =>
  run_of_step_fixed (M := core) (step_of_no_command hl hr hseq hrsp hcmds)

/-- Settles O20: the one event a reset edge can add is the fall of an asserted chip-select. -/
theorem resetCutsTransactionShort : Obligations.ResetCutsTransactionShort := fun s hl hr =>
  ⟨resetEdge s, step_of_rst hl hr, resetEdge_wire s⟩

/-! ### Sticky bits (10_state.md R30) -/

/-- The sticky bits set in `s` are set in `t`. -/
def KeepsSticky (s t : State) : Prop :=
  (s.oobS = true → t.oobS = true) ∧ (s.illS = true → t.illS = true) ∧ (s.txeS = true → t.txeS = true)

theorem KeepsSticky.of_eq {s t : State} (ho : t.oobS = s.oobS) (hi : t.illS = s.illS) (hx : t.txeS = s.txeS) :
    KeepsSticky s t :=
  ⟨fun h => ho.trans h, fun h => hi.trans h, fun h => hx.trans h⟩

theorem Draws.keepsSticky {col : Bool} {pts : List Point} {s t : State} (h : Draws col pts s t) : KeepsSticky s t := by
  obtain ⟨m, rfl, -⟩ := h
  exact ⟨fun ho => by simp [ho], id, id⟩

theorem carryOn_keepsSticky (x : Tx) (s : State) : KeepsSticky s (carryOn x s) := by
  rcases carryOn_cases x s _ rfl with ⟨-, h⟩ | ⟨-, -, h⟩ <;> rw [h]
  · exact ⟨id, id, fun hx => by simp [hx]⟩
  · exact .of_eq rfl rfl rfl

theorem transact_keepsSticky (op : TxOp) (bytes : List Byte) (s : State) : KeepsSticky s (transact op bytes s) :=
  carryOn_keepsSticky { op := op, pending := bytes, accepted := 0 } (select true s)

theorem clearOp_keepsSticky (op : TxOp) (s : State) : KeepsSticky s (clearOp op s) :=
  transact_keepsSticky op (clearBytes s) { s with fb := s.fb.blank s.cfg.nb }

theorem Answers.keepsSticky {i : Instr} {s t : State} (h : Answers i s t) : KeepsSticky s t := by
  cases i with
  | setPixel x y col => exact Draws.keepsSticky h
  | drawLine x0 y0 x1 y1 col => exact Draws.keepsSticky h
  | drawFastVline x y h' col => exact Draws.keepsSticky h
  | drawFastHline x y w col => exact Draws.keepsSticky h
  | fillRect x y w h' col => exact Draws.keepsSticky h
  | fillScreen col => exact Draws.keepsSticky h
  | clear => subst h; exact clearOp_keepsSticky .clear { s with busy := true }
  | refresh => subst h; exact transact_keepsSticky .refresh _ (flipVcom { s with busy := true })
  | getPixel x y => subst h; exact ⟨fun ho => by simp [ho], id, id⟩
  | nop => subst h; exact .of_eq rfl rfl rfl
  | setRotation r => subst h; exact .of_eq rfl rfl rfl
  | reverseByte v => subst h; exact .of_eq rfl rfl rfl
  | reservedC => subst h; exact ⟨id, fun _ => rfl, id⟩
  | reservedD => subst h; exact ⟨id, fun _ => rfl, id⟩
  | reservedE => subst h; exact ⟨id, fun _ => rfl, id⟩
  | reservedF => subst h; exact ⟨id, fun _ => rfl, id⟩

theorem exec_keepsSticky {i : Instr} {s t : State} (h : exec i s = .next t) : KeepsSticky s t :=
  (exec_answers h).2.keepsSticky

theorem responseEdge_keepsSticky (s : State) : KeepsSticky s (responseEdge s) := by
  unfold responseEdge; split <;> exact .of_eq rfl rfl rfl

theorem step_keepsSticky {s t : State} (hr : s.pins.rst = false) (h : step s = .next t) : KeepsSticky s t := by
  obtain ⟨-, h⟩ := step_cases h
  rcases h with ⟨hr', -⟩ | ⟨-, -, rfl⟩ | ⟨-, x, -, rfl⟩ | ⟨-, -, -, rfl⟩ | ⟨-, -, -, -, w, rest, -, h⟩ |
    ⟨-, -, -, -, rfl⟩
  · rw [hr] at hr'; cases hr'
  · exact clearOp_keepsSticky .resetClear s
  · exact carryOn_keepsSticky x s
  · exact responseEdge_keepsSticky s
  · exact exec_keepsSticky (s := s.popCommand) h
  · exact .of_eq rfl rfl rfl

/-- Settles O14, from what a command and a step can do; the reset edge clears the three bits. -/
theorem stickyBitsStaySet : Obligations.StickyBitsStaySet := by
  refine ⟨fun _ _ _ h => exec_keepsSticky h, fun _ _ hr h => step_keepsSticky hr h, fun s t hr h => ?_⟩
  rw [step_of_rst (step_cases h).1 hr] at h
  cases h
  exact ⟨rfl, rfl, rfl⟩

/-! ### Who writes the framebuffer and the wire (10_state.md R22, R24; 44_wire.md R163) -/

/-- The transport's answers do not reach the framebuffer. -/
theorem carryOn_fb (x : Tx) (s : State) : (carryOn x s).fb = s.fb := by
  rcases carryOn_cases x s _ rfl with ⟨-, h⟩ | ⟨-, -, h⟩ <;> rw [h]

/-- Settles O16, by cases on the command: each one left over responds, or is REFRESH's transaction. -/
theorem onlyDrawingAndClearWriteFramebuffer : Obligations.OnlyDrawingAndClearWriteFramebuffer := by
  intro i s t h hset hline hvline hhline hrect hscreen hclear
  have ha := (exec_answers h).2
  cases i with
  | setPixel x y col => exact absurd rfl (hset x y col)
  | drawLine x0 y0 x1 y1 col => exact absurd rfl (hline x0 y0 x1 y1 col)
  | drawFastVline x y h' col => exact absurd rfl (hvline x y h' col)
  | drawFastHline x y w col => exact absurd rfl (hhline x y w col)
  | fillRect x y w h' col => exact absurd rfl (hrect x y w h' col)
  | fillScreen col => exact absurd rfl (hscreen col)
  | clear => exact absurd rfl hclear
  | refresh => subst ha; exact carryOn_fb _ _
  | nop => subst ha; rfl
  | getPixel x y => subst ha; rfl
  | setRotation r => subst ha; rfl
  | reverseByte v => subst ha; rfl
  | reservedC => subst ha; rfl
  | reservedD => subst ha; rfl
  | reservedE => subst ha; rfl
  | reservedF => subst ha; rfl

/-- From `s` to `t` the transport sees nothing, and no transaction starts, ends or goes on. -/
def KeepsOffTheWire (s t : State) : Prop :=
  t.wire = s.wire ∧ t.vcom = s.vcom ∧ t.cs = s.cs ∧ t.seq = s.seq ∧ t.txScript = s.txScript

theorem Draws.keepsOffTheWire {col : Bool} {pts : List Point} {s t : State} (h : Draws col pts s t) :
    KeepsOffTheWire s t := by
  obtain ⟨m, rfl, -⟩ := h
  exact ⟨rfl, rfl, rfl, rfl, rfl⟩

/-- Settles O17, by cases on the command: the drawing commands, and those that only respond. -/
theorem onlyTransactionsReachTheWire : Obligations.OnlyTransactionsReachTheWire := by
  intro i s t h hclear hrefresh
  have ha := (exec_answers h).2
  cases i with
  | clear => exact absurd rfl hclear
  | refresh => exact absurd rfl hrefresh
  | setPixel x y col => exact Draws.keepsOffTheWire ha
  | drawLine x0 y0 x1 y1 col => exact Draws.keepsOffTheWire ha
  | drawFastVline x y h' col => exact Draws.keepsOffTheWire ha
  | drawFastHline x y w col => exact Draws.keepsOffTheWire ha
  | fillRect x y w h' col => exact Draws.keepsOffTheWire ha
  | fillScreen col => exact Draws.keepsOffTheWire ha
  | nop => subst ha; exact ⟨rfl, rfl, rfl, rfl, rfl⟩
  | getPixel x y => subst ha; exact ⟨rfl, rfl, rfl, rfl, rfl⟩
  | setRotation r => subst ha; exact ⟨rfl, rfl, rfl, rfl, rfl⟩
  | reverseByte v => subst ha; exact ⟨rfl, rfl, rfl, rfl, rfl⟩
  | reservedC => subst ha; exact ⟨rfl, rfl, rfl, rfl, rfl⟩
  | reservedD => subst ha; exact ⟨rfl, rfl, rfl, rfl, rfl⟩
  | reservedE => subst ha; exact ⟨rfl, rfl, rfl, rfl, rfl⟩
  | reservedF => subst ha; exact ⟨rfl, rfl, rfl, rfl, rfl⟩

/-! ### The status a command reports (60_exceptions.md R200, R205) -/

/-- A status that reports an exception has its sticky bit set. -/
def StickyShows (st : Status) (t : State) : Prop :=
  (st = .outOfBuffer → t.oobS = true) ∧ (st = .illegalCommand → t.illS = true) ∧
    (st = .transportError → t.txeS = true)

theorem stickyShows_ok (t : State) : StickyShows .ok t := ⟨nofun, nofun, nofun⟩

/-- A response new in `t` has a status of the family `P`, whose sticky bit is set. -/
def Reports (P : Status → Prop) (s t : State) : Prop :=
  ∀ r, s.rsp = none → t.rsp = some r → P r.status ∧ StickyShows r.status t

/-- A command whose response is known reports that response's status. -/
theorem reports_of_rsp {P : Status → Prop} {s t : State} {st : Status} {data : BitVec 32}
    (hrsp : t.rsp = some { status := st, data := data }) (hP : P st) (hst : StickyShows st t) : Reports P s t := by
  intro r _ hr
  rw [hrsp] at hr
  cases hr
  exact ⟨hP, hst⟩

/-- The family of the commands that address pixels. -/
def OkOrOutOfBuffer (st : Status) : Prop := st = .ok ∨ st = .outOfBuffer

/-- The family of the commands that run a transaction. -/
def OkOrTransportError (st : Status) : Prop := st = .ok ∨ st = .transportError

theorem reports_okOrOutOfBuffer {s t : State} {oob : Bool} {data : BitVec 32}
    (hrsp : t.rsp = some { status := if oob then .outOfBuffer else .ok, data := data })
      (hoob : oob = true → t.oobS = true) :
    Reports OkOrOutOfBuffer s t := by
  cases oob with
  | false => exact reports_of_rsp hrsp (.inl rfl) (stickyShows_ok t)
  | true => exact reports_of_rsp hrsp (.inr rfl) ⟨fun _ => hoob rfl, nofun, nofun⟩

theorem Draws.reports {col : Bool} {pts : List Point} {s t : State} (h : Draws col pts s t) :
    Reports OkOrOutOfBuffer s t := by
  obtain ⟨m, rfl, -⟩ := h
  exact reports_okOrOutOfBuffer rfl fun hoob => by simp [hoob]

/-- The rest of a transaction leaves the response as it is, or offers one of its family. -/
theorem carryOn_rsp (x : Tx) (s : State) :
    (carryOn x s).rsp = s.rsp ∨
    ∃ st data, (carryOn x s).rsp = some { status := st, data := data } ∧ OkOrTransportError st ∧
      StickyShows st (carryOn x s) := by
  rcases carryOn_cases x s _ rfl with ⟨-, h⟩ | ⟨-, -, h⟩ <;> rw [h]
  · by_cases hop : x.op = .resetClear
    · exact .inl (if_pos hop)
    · refine .inr ⟨_, _, if_neg hop, ?_⟩
      cases hrej : (offerBytes s.pins.tx s.txScript x.pending x.accepted).rejected with
      | none => exact ⟨.inl rfl, stickyShows_ok _⟩
      | some c => exact ⟨.inr rfl, nofun, nofun, fun _ => Bool.or_true _⟩
  · exact .inl rfl

theorem carryOn_reports (x : Tx) (s : State) : Reports OkOrTransportError s (carryOn x s) := by
  rcases carryOn_rsp x s with h | ⟨st, data, hrsp, hst, hshows⟩
  · intro r hs hr
    rw [h, hs] at hr
    cases hr
  · exact reports_of_rsp hrsp hst hshows

theorem reports_illegalCommand {s t : State} {data : BitVec 32}
    (hrsp : t.rsp = some { status := .illegalCommand, data := data })
    (hill : t.illS = true) : Reports (· = .illegalCommand) s t :=
  reports_of_rsp hrsp rfl ⟨nofun, fun _ => hill, nofun⟩

/-- Settles O18, by cases on the command: each family's status and its sticky bit. -/
theorem familiesRaiseTheirOwnExceptions : Obligations.FamiliesRaiseTheirOwnExceptions := by
  intro i s t r h hs hr
  have ha := (exec_answers h).2
  cases i with
  | setPixel x y col => exact Draws.reports ha r hs hr
  | drawLine x0 y0 x1 y1 col => exact Draws.reports ha r hs hr
  | drawFastVline x y h' col => exact Draws.reports ha r hs hr
  | drawFastHline x y w col => exact Draws.reports ha r hs hr
  | fillRect x y w h' col => exact Draws.reports ha r hs hr
  | fillScreen col => exact Draws.reports ha r hs hr
  | getPixel x y =>
    subst ha
    exact reports_okOrOutOfBuffer (s := s) rfl (fun hoob => by simp [hoob]) r hs hr
  | clear => subst ha; exact carryOn_reports _ _ r hs hr
  | refresh => subst ha; exact carryOn_reports _ _ r hs hr
  | nop => subst ha; exact reports_of_rsp (P := (· = .ok)) rfl rfl (stickyShows_ok _) r hs hr
  | setRotation r' => subst ha; exact reports_of_rsp (P := (· = .ok)) rfl rfl (stickyShows_ok _) r hs hr
  | reverseByte v => subst ha; exact reports_of_rsp (P := (· = .ok)) rfl rfl (stickyShows_ok _) r hs hr
  | reservedC => subst ha; exact reports_illegalCommand rfl rfl r hs hr
  | reservedD => subst ha; exact reports_illegalCommand rfl rfl r hs hr
  | reservedE => subst ha; exact reports_illegalCommand rfl rfl r hs hr
  | reservedF => subst ha; exact reports_illegalCommand rfl rfl r hs hr

/-! ### No fault (20_memory.md R50, R52) -/

theorem exec_ne_fault (i : Instr) (s : State) (f : Fault) : exec i s ≠ .fault f := by
  cases hl : s.cfg.legal with
  | false => rw [exec_of_illegal hl]; exact nofun
  | true =>
    obtain ⟨t, ht⟩ := exec_answers_of_legal hl i
    rw [ht]; exact nofun

theorem step_ne_fault (s : State) (f : Fault) : step s ≠ .fault f := by
  cases hl : s.cfg.legal with
  | false => rw [step_of_illegal hl]; exact nofun
  | true =>
    obtain ⟨t, ht⟩ := step_answers_of_legal hl
    rw [ht]; exact nofun

/-- Settles O25: what `Locate` answers lies in the framebuffer, so legal parameters always lead to a next state. -/
theorem noAccessOutsideFramebuffer : Obligations.NoAccessOutsideFramebuffer :=
  ⟨fun _ hl _ _ _ _ _ h => locate_cell_lt hl h, exec_ne_fault, step_ne_fault⟩

/-! ### The output ports (10_state.md R27, R28, R32) -/

/-- The layout of `STATUS` (10_state.md R28), whatever its fields hold. -/
theorem statusReg_fields (s : State) :
    s.statusReg.getLsbD 0 = s.busy ∧ s.statusReg.extractLsb' 1 2 = s.rot ∧ s.statusReg.getLsbD 3 = s.vcom ∧
      s.statusReg.getLsbD 4 = s.oobS ∧ s.statusReg.getLsbD 5 = s.illS ∧ s.statusReg.getLsbD 6 = s.txeS ∧
      s.statusReg.getLsbD 7 = s.cs ∧ s.statusReg.extractLsb' 8 8 = 0#8 := by
  have hreg : s.statusReg = 0#8 ++ BitVec.ofBool s.cs ++ BitVec.ofBool s.txeS ++ BitVec.ofBool s.illS ++
      BitVec.ofBool s.oobS ++ BitVec.ofBool s.vcom ++ s.rot ++ BitVec.ofBool s.busy := rfl
  rw [hreg]
  refine ⟨?_, ?_, ?_, ?_, ?_, ?_, ?_, ?_⟩
  case refine_2 => rw [BitVec.extractLsb'_append_eq_of_le (by decide), BitVec.extractLsb'_append_eq_right]
  case refine_8 =>
    simp only [BitVec.extractLsb'_append_eq_of_le, Nat.reduceLeDiff, Nat.reduceSub, BitVec.extractLsb'_eq_self]
  all_goals
    simp only [BitVec.getLsbD_append]
    simp

/-- Settles O56: the layout of `STATUS`, and each port by its definition. -/
theorem statusRegisterFields : Obligations.StatusRegisterFields := by
  intro s
  refine ⟨statusReg_fields s, fun h => by simp [State.rspValid, h], fun r h => ?_, fun h => by simp [State.cmdReady, h],
    fun h => by simp [State.cmdReady, h], rfl⟩
  refine ⟨by simp [State.rspValid, h], by simp [State.rspData, h], ?_⟩
  cases hst : r.status <;> simp [State.rspStatus, h, hst, Status.code]

end Sys2Proof.Machine
end

section
/-!
PROOFS. The rasterizer and the rectangle (41_line.md, 42_fill.md): where each point of a line lies (R120, R121), that a
line is its reverse (R122) and the fast paths are the rasterizer (R126, R132), and the order of the fill (R142).
-/

namespace Sys2Proof.Machine

/-! ### One ordered run of the loop (41_line.md R120) -/

/-- The point with the given major and minor coordinates. -/
def majorMinor (steep : Bool) (major minor : Int) : Point := if steep then (minor, major) else (major, minor)

/-- The coordinate along the major axis, and the one along the minor axis. -/
def major (steep : Bool) (p : Point) : Int := if steep then p.2 else p.1

def minor (steep : Bool) (p : Point) : Int := if steep then p.1 else p.2

@[simp] theorem major_majorMinor (steep : Bool) (u v : Int) : major steep (majorMinor steep u v) = u := by
  cases steep <;> rfl

@[simp] theorem minor_majorMinor (steep : Bool) (u v : Int) : minor steep (majorMinor steep u v) = v := by
  cases steep <;> rfl

/-- The direction of the minor axis from `b` to `d`. -/
def minorStep (b d : Int) : Int := if b < d then 1 else -1

section
variable (steep : Bool) (a b c d : Int)

/-- The minor coordinate after `k` iterations from ordered endpoints. -/
def minorAt (k : Nat) : Int := (Raster.advance^[k] (rasterOrdered steep a b c d)).y

theorem minorAt_zero : minorAt steep a b c d 0 = b := rfl

theorem plot_ordered_iterate (k : Nat) :
    (Raster.advance^[k] (rasterOrdered steep a b c d)).plot =
      majorMinor steep (a + k) (minorAt steep a b c d k) := by
  obtain ⟨hx, -, -, -, hsteep, -⟩ := iterate_advance_fixed (rasterOrdered steep a b c d) k
  rw [Raster.plot, hx, hsteep]
  rfl

theorem orderedPoints_eq_map :
    orderedPoints steep a b c d =
      (List.range (c - a + 1).toNat).map fun k : Nat => majorMinor steep (a + k) (minorAt steep a b c d k) :=
  List.map_congr_left fun k _ => plot_ordered_iterate steep a b c d k

/-- One iteration moves the minor coordinate by at most one. -/
theorem abs_minorAt_succ_sub (k : Nat) :
    |minorAt steep a b c d (k + 1) - minorAt steep a b c d k| ≤ 1 := by
  have hstep : (Raster.advance^[k] (rasterOrdered steep a b c d)).ystep = minorStep b d :=
    (iterate_advance_fixed (rasterOrdered steep a b c d) k).2.2.2.2.2
  have hunit : |minorStep b d| = 1 := by unfold minorStep; split <;> rfl
  rw [minorAt, minorAt, Function.iterate_succ', Function.comp_apply]
  rcases advance_y_err (Raster.advance^[k] (rasterOrdered steep a b c d)) with ⟨-, hy, -⟩ | ⟨-, hy, -⟩
  · rw [hy, hstep, add_sub_cancel_left, hunit]
  · rw [hy, sub_self, abs_zero]; exact zero_le_one

theorem nodup_orderedPoints : (orderedPoints steep a b c d).Nodup := by
  rw [orderedPoints_eq_map]
  refine List.Nodup.map (fun k j hkj => ?_) List.nodup_range
  have := congrArg (major steep) hkj
  simp only [major_majorMinor] at this
  omega

theorem getElem?_orderedPoints_eq_some {k : Nat} {p : Point} (h : (orderedPoints steep a b c d)[k]? = some p) :
    p = majorMinor steep (a + k) (minorAt steep a b c d k) := by
  rw [orderedPoints_eq_map, List.getElem?_map, Option.map_eq_some_iff] at h
  obtain ⟨j, hj, rfl⟩ := h
  obtain ⟨hlt, hj⟩ := List.getElem?_eq_some_iff.mp hj
  rw [List.getElem_range] at hj
  rw [hj]

end

section
variable {steep : Bool} {a b c d : Int}

theorem length_orderedPoints (hac : a ≤ c) : ((orderedPoints steep a b c d).length : Int) = c - a + 1 := by
  rw [orderedPoints_eq_map, List.length_map, List.length_range, Int.toNat_of_nonneg (by omega)]

/-- After the last iteration's start the minor coordinate has reached the far endpoint: the accumulator's range leaves
room for one number of minor steps only (41_line.md R121). -/
theorem minorAt_last (hdy : |d - b| ≤ c - a) : minorAt steep a b c d (c - a).toNat = d := by
  have hac : 0 ≤ c - a := (abs_nonneg _).trans hdy
  rcases hac.eq_or_lt with heq | hpos
  · have hflat : d - b = 0 := abs_nonpos_iff.mp (heq ▸ hdy)
    rw [← heq, Int.toNat_zero, minorAt_zero]
    omega
  · obtain ⟨m, hy, herr, hnonneg, -, hlt⟩ :=
      ordered_iterate (x0 := a) (y0 := b) (x1 := c) (y1 := d) steep hdy (c - a).toNat
    have hlt := hlt (by omega)
    rw [herr, Int.toNat_of_nonneg hac] at hnonneg hlt
    have hdist : (c - a) / 2 - (c - a) * |d - b| + m * (c - a) = (c - a) / 2 + (c - a) * (m - |d - b|) := by ring
    rw [hdist] at hnonneg hlt
    have hle : m - |d - b| < 1 := by
      refine lt_of_mul_lt_mul_left (a := c - a) ?_ hac
      omega
    have hge : -1 < m - |d - b| := by
      refine lt_of_mul_lt_mul_left (a := c - a) ?_ hac
      omega
    have hm : (m : Int) = |d - b| := by omega
    rw [minorAt, hy, hm]
    split
    · rw [abs_of_pos (by omega)]; omega
    · rw [abs_of_nonpos (by omega)]; omega

theorem head?_orderedPoints (hac : a ≤ c) : (orderedPoints steep a b c d).head? = some (majorMinor steep a b) := by
  obtain ⟨n, hn⟩ : ∃ n, (c - a + 1).toNat = n + 1 := ⟨(c - a).toNat, by omega⟩
  rw [orderedPoints_eq_map, hn, List.range_succ_eq_map]
  simp [minorAt_zero]

theorem getLast?_orderedPoints (hdy : |d - b| ≤ c - a) :
    (orderedPoints steep a b c d).getLast? = some (majorMinor steep c d) := by
  have hac : 0 ≤ c - a := (abs_nonneg _).trans hdy
  have hn : (c - a + 1).toNat = (c - a).toNat + 1 := by omega
  rw [orderedPoints_eq_map, hn, List.range_succ, List.map_append, List.getLast?_append, List.map_singleton,
    List.getLast?_singleton, minorAt_last hdy, Int.toNat_of_nonneg hac]
  simp

/-- The points `pts` go from `(a, b)` to `(c, d)`, given by major and minor coordinate: each once, one step of the major
axis after the other, with at most one of the minor axis between neighbours (41_line.md R121). -/
structure Joins (steep : Bool) (a b c d : Int) (pts : List Point) : Prop where
  length : (pts.length : Int) = c - a + 1
  nodup : pts.Nodup
  first : pts.head? = some (majorMinor steep a b)
  last : pts.getLast? = some (majorMinor steep c d)
  next : ∀ k p q, pts[k]? = some p → pts[k + 1]? = some q →
    major steep q = major steep p + 1 ∧ |minor steep q - minor steep p| ≤ 1

theorem orderedPoints_joins (hdy : |d - b| ≤ c - a) : Joins steep a b c d (orderedPoints steep a b c d) := by
  have hac : a ≤ c := sub_nonneg.mp ((abs_nonneg _).trans hdy)
  refine ⟨length_orderedPoints hac, nodup_orderedPoints steep a b c d, head?_orderedPoints hac,
    getLast?_orderedPoints hdy, fun k p q hp hq => ?_⟩
  rw [getElem?_orderedPoints_eq_some steep a b c d hp, getElem?_orderedPoints_eq_some steep a b c d hq]
  simp only [major_majorMinor, minor_majorMinor]
  exact ⟨by push_cast; ring, abs_minorAt_succ_sub steep a b c d k⟩

/-- The point after `k` iterations, with the number of minor steps and the range that fixes it (41_line.md R120, R121). -/
theorem orderedPoints_at (hdy : |d - b| ≤ c - a) {k : Nat} {p : Point}
    (h : (orderedPoints steep a b c d)[k]? = some p) :
    ∃ m : Nat, p = majorMinor steep (a + k) (b + minorStep b d * m) ∧
      0 ≤ (c - a) / 2 - k * |d - b| + m * (c - a) ∧
      (a < c → (c - a) / 2 - k * |d - b| + m * (c - a) < c - a) := by
  obtain ⟨m, hy, herr, hnonneg, -, hlt⟩ := ordered_iterate (x0 := a) (y0 := b) (x1 := c) (y1 := d) steep hdy k
  rw [herr] at hnonneg hlt
  refine ⟨m, ?_, hnonneg, hlt⟩
  rw [getElem?_orderedPoints_eq_some steep a b c d h, minorAt, hy]
  rfl

end

/-! ### The rasterizer (41_line.md R120 to R122) -/

/-- The four ways the endpoints can lie, each with the ordered run it starts: the major axis, which endpoint comes first,
and that the minor delta is at most the major one (41_line.md R120). -/
theorem rasterStart_ordered_cases (x0 y0 x1 y1 : Int) :
    (|x1 - x0| < |y1 - y0| ∧ y1 < y0 ∧ |y1 - y0| = y0 - y1 ∧ |x0 - x1| ≤ y0 - y1 ∧
      rasterStart x0 y0 x1 y1 = rasterOrdered true y1 x1 y0 x0) ∨
    (|x1 - x0| < |y1 - y0| ∧ y0 < y1 ∧ |y1 - y0| = y1 - y0 ∧ |x1 - x0| ≤ y1 - y0 ∧
      rasterStart x0 y0 x1 y1 = rasterOrdered true y0 x0 y1 x1) ∨
    (|y1 - y0| ≤ |x1 - x0| ∧ x1 < x0 ∧ |x1 - x0| = x0 - x1 ∧ |y0 - y1| ≤ x0 - x1 ∧
      rasterStart x0 y0 x1 y1 = rasterOrdered false x1 y1 x0 y0) ∨
    (|y1 - y0| ≤ |x1 - x0| ∧ x0 ≤ x1 ∧ |x1 - x0| = x1 - x0 ∧ |y1 - y0| ≤ x1 - x0 ∧
      rasterStart x0 y0 x1 y1 = rasterOrdered false x0 y0 x1 y1) := by
  rcases rasterStart_cases x0 y0 x1 y1 with ⟨h, h', e⟩ | ⟨h, h', e⟩ | ⟨h, h', e⟩ | ⟨h, h', e⟩
  · have habs : |y1 - y0| = y0 - y1 := by rw [abs_of_neg (by omega), neg_sub]
    exact .inl ⟨h, h', habs, by rw [abs_sub_comm]; omega, e⟩
  · have habs : |y1 - y0| = y1 - y0 := abs_of_pos (by omega)
    exact .inr (.inl ⟨h, h', habs, by omega, e⟩)
  · have habs : |x1 - x0| = x0 - x1 := by rw [abs_of_neg (by omega), neg_sub]
    exact .inr (.inr (.inl ⟨h, h', habs, by rw [abs_sub_comm]; omega, e⟩))
  · have habs : |x1 - x0| = x1 - x0 := abs_of_nonneg (by omega)
    exact .inr (.inr (.inr ⟨h, h', habs, by omega, e⟩))

/-- The line of a loop that starts from ordered endpoints. -/
theorem bres_eq_orderedPoints {x0 y0 x1 y1 a b c d : Int} {steep : Bool}
    (e : rasterStart x0 y0 x1 y1 = rasterOrdered steep a b c d) (hdy : |d - b| ≤ c - a) :
    bres x0 y0 x1 y1 = orderedPoints steep a b c d :=
  bres_of_start e (sub_nonneg.mp ((abs_nonneg _).trans hdy))

/-- Settles O33: each way the endpoints lie is one ordered run, whose points join them. -/
theorem rasterizerJoinsItsEndpoints : Obligations.RasterizerJoinsItsEndpoints := by
  intro x0 y0 x1 y1
  rcases rasterStart_ordered_cases x0 y0 x1 y1 with ⟨h, h', habs, hdy, e⟩ | ⟨h, h', habs, hdy, e⟩ |
    ⟨h, h', habs, hdy, e⟩ | ⟨h, h', habs, hdy, e⟩ <;>
    rw [bres_eq_orderedPoints e hdy] <;>
    obtain ⟨hlen, hnodup, hfirst, hlast, hnext⟩ := orderedPoints_joins hdy
  · refine ⟨by rw [hlen, max_eq_right h.le, habs], hnodup, fun hn => absurd h hn, fun _ => ⟨?_, ?_, hnext⟩⟩
    · rw [if_pos h']; exact hfirst
    · rw [if_pos h']; exact hlast
  · refine ⟨by rw [hlen, max_eq_right h.le, habs], hnodup, fun hn => absurd h hn, fun _ => ⟨?_, ?_, hnext⟩⟩
    · rw [if_neg h'.not_gt]; exact hfirst
    · rw [if_neg h'.not_gt]; exact hlast
  · refine ⟨by rw [hlen, max_eq_left h, habs], hnodup, fun _ => ⟨?_, ?_, hnext⟩, fun hn => absurd hn h.not_gt⟩
    · rw [if_pos h']; exact hfirst
    · rw [if_pos h']; exact hlast
  · refine ⟨by rw [hlen, max_eq_left h, habs], hnodup, fun _ => ⟨?_, ?_, hnext⟩, fun hn => absurd hn h.not_gt⟩
    · rw [if_neg h'.not_gt]; exact hfirst
    · rw [if_neg h'.not_gt]; exact hlast

/-- Whatever the endpoints, the loop starts from ordered ones. -/
theorem exists_rasterStart_eq_ordered (x0 y0 x1 y1 : Int) :
    ∃ steep a b c d, rasterStart x0 y0 x1 y1 = rasterOrdered steep a b c d ∧ |d - b| ≤ c - a := by
  rcases rasterStart_ordered_cases x0 y0 x1 y1 with ⟨-, -, -, hdy, e⟩ | ⟨-, -, -, hdy, e⟩ | ⟨-, -, -, hdy, e⟩ |
    ⟨-, -, -, hdy, e⟩ <;> exact ⟨_, _, _, _, _, e, hdy⟩

/-- The accumulator after `k` iterations from any endpoints (41_line.md R120, R121). -/
theorem rasterStart_iterate (x0 y0 x1 y1 : Int) (k : Nat) :
    let q := rasterStart x0 y0 x1 y1
    let r := Raster.advance^[k] q
    0 ≤ r.err ∧ r.err ≤ r.dx ∧ -r.dx ≤ r.err - r.dy ∧ (0 < r.dx → r.err < r.dx) ∧ r.x = q.x + k ∧
      ∃ m : Nat, r.y = q.y + q.ystep * m ∧ r.err = q.dx / 2 - k * q.dy + m * q.dx := by
  intro q r
  obtain ⟨steep, a, b, c, d, e, hdy⟩ := exists_rasterStart_eq_ordered x0 y0 x1 y1
  have hq : q = rasterOrdered steep a b c d := e
  obtain ⟨hx, -, hdx', hdy', -, -⟩ := iterate_advance_fixed q k
  obtain ⟨m, hy, herr, hnonneg, hle, hlt⟩ := ordered_iterate (x0 := a) (y0 := b) (x1 := c) (y1 := d) steep hdy k
  rw [← hq] at hy herr hnonneg hle hlt
  have hqdx : q.dx = c - a := congrArg Raster.dx hq
  have hqdy : q.dy = |d - b| := congrArg Raster.dy hq
  have hqy : q.y = b := congrArg Raster.y hq
  have hqstep : q.ystep = if b < d then 1 else -1 := congrArg Raster.ystep hq
  rw [hdx', hdy', hqdx, hqdy, hqy, hqstep]
  have hnonneg' : 0 ≤ r.err := hnonneg
  exact ⟨hnonneg, hle, by omega, fun hpos => hlt (by omega), hx, m, hy, herr⟩

/-- Settles O34: the accumulator from the iterates of an ordered run, and each point from the run of its endpoints. -/
theorem accumulatorStaysInRange : Obligations.AccumulatorStaysInRange := by
  intro x0 y0 x1 y1 k
  refine ⟨rasterStart_iterate x0 y0 x1 y1 k, fun p hp => ?_⟩
  rcases rasterStart_ordered_cases x0 y0 x1 y1 with ⟨h, h', habs, hdy, e⟩ | ⟨h, h', habs, hdy, e⟩ |
    ⟨h, h', habs, hdy, e⟩ | ⟨h, h', habs, hdy, e⟩ <;>
    rw [bres_eq_orderedPoints e hdy] at hp <;>
    obtain ⟨m, hpm, hnonneg, hlt⟩ := orderedPoints_at hdy hp
  · refine ⟨fun hn => absurd h hn, fun _ => ⟨m, ?_, ?_, ?_⟩⟩
    · rw [if_pos h']; exact hpm
    · rw [habs, abs_sub_comm x1]; exact hnonneg
    · rw [habs, abs_sub_comm x1]; exact hlt h'
  · refine ⟨fun hn => absurd h hn, fun _ => ⟨m, ?_, ?_, ?_⟩⟩
    · rw [if_neg (by omega)]; exact hpm
    · rw [habs]; exact hnonneg
    · rw [habs]; exact hlt h'
  · refine ⟨fun _ => ⟨m, ?_, ?_, fun _ => ?_⟩, fun hn => absurd hn h.not_gt⟩
    · rw [if_pos h']; exact hpm
    · rw [habs, abs_sub_comm y1]; exact hnonneg
    · rw [habs, abs_sub_comm y1]; exact hlt h'
  · refine ⟨fun _ => ⟨m, ?_, ?_, fun hne => ?_⟩, fun hn => absurd hn h.not_gt⟩
    · rw [if_neg (by omega)]; exact hpm
    · rw [habs]; exact hnonneg
    · rw [habs]; exact hlt (by omega)

/-! ### The fast paths (41_line.md R126, R132) and the reversed line (R122) -/

theorem linePoints_eq_bres (x0 y0 x1 y1 : Int) : linePoints x0 y0 x1 y1 = bres x0 y0 x1 y1 := by
  unfold linePoints
  by_cases hx : x0 = x1
  · subst hx
    rw [if_pos rfl, vPath, farEnd_min_length, bres_vertical, bres_vertical, min_eq_left min_le_max,
      max_sub_min_eq_abs, abs_abs]
  · rw [if_neg hx]
    by_cases hy : y0 = y1
    · subst hy
      rw [if_pos rfl, hPath, farEnd_min_length, bres_horizontal, bres_horizontal, min_eq_left min_le_max,
        max_sub_min_eq_abs, abs_abs]
    · rw [if_neg hy]

/-- A line command with the points of another is that command. -/
theorem exec_drawLine_of_points {x0 y0 x1 y1 : Int} {pts : List Point} (h : linePoints x0 y0 x1 y1 = pts) (col : Bool)
    (s : State) : exec (.drawLine x0 y0 x1 y1 col) s = command s (draw col pts) := by
  rw [← h]; rfl

/-- Settles O36: the dispatch of DRAW_LINE leaves the rasterizer's points, and the fast paths are such lines. -/
theorem fastPathsEqualRasterizer : Obligations.FastPathsEqualRasterizer :=
  ⟨linePoints_eq_bres, fun _ _ _ col s => (exec_drawLine_of_points (linePoints_eq_bres _ _ _ _) col s).symm,
    fun _ _ _ col s => (exec_drawLine_of_points (linePoints_eq_bres _ _ _ _) col s).symm⟩

/-- The endpoint swap orders the major coordinates, whichever endpoint comes first. -/
theorem rasterMajor_reverse (steep : Bool) {a b c d : Int} (h : a = c → b = d) :
    rasterMajor steep a b c d = rasterMajor steep c d a b := by
  unfold rasterMajor
  rcases lt_trichotomy a c with hlt | heq | hgt
  · rw [if_neg hlt.not_gt, if_pos hlt]
  · rw [heq, h heq]
  · rw [if_pos hgt, if_neg hgt.not_gt]

/-- The loop of a line and that of its reverse start alike (41_line.md R122). -/
theorem rasterStart_reverse (x0 y0 x1 y1 : Int) : rasterStart x0 y0 x1 y1 = rasterStart x1 y1 x0 y0 := by
  have hrev : isSteep x1 y1 x0 y0 = isSteep x0 y0 x1 y1 := by simp only [isSteep, abs_sub_comm]
  have hdx := abs_nonneg (x1 - x0)
  unfold rasterStart
  rw [hrev]
  by_cases hs : |x1 - x0| < |y1 - y0|
  · rw [show isSteep x0 y0 x1 y1 = true from decide_eq_true hs, if_pos rfl, if_pos rfl]
    refine rasterMajor_reverse true fun hy => ?_
    rw [hy, sub_self, abs_zero] at hs
    omega
  · rw [show isSteep x0 y0 x1 y1 = false from decide_eq_false hs, if_neg nofun, if_neg nofun]
    refine rasterMajor_reverse false fun hx => ?_
    rw [hx, sub_self, abs_zero, not_lt, abs_nonpos_iff] at hs
    omega

theorem bres_reverse (x0 y0 x1 y1 : Int) : bres x0 y0 x1 y1 = bres x1 y1 x0 y0 := by
  rw [bres, bres, rasterStart_reverse]

/-- Settles O35: a line and its reverse are one loop. -/
theorem lineIsSymmetric : Obligations.LineIsSymmetric := fun x0 y0 x1 y1 =>
  ⟨bres_reverse x0 y0 x1 y1, fun col s => by
    rw [exec_drawLine_of_points (linePoints_eq_bres x0 y0 x1 y1), exec_drawLine_of_points (linePoints_eq_bres x1 y1 x0 y0),
      bres_reverse]⟩

/-! ### The order of the fill (42_fill.md R142) -/

/-- By column, then by row. -/
def ColumnThenRow (p q : Point) : Prop := p.1 < q.1 ∨ (p.1 = q.1 ∧ p.2 < q.2)

theorem pairwise_vPath (x y h : Int) : (vPath x y h).Pairwise ColumnThenRow := by
  rw [vPath, bres_vertical, List.pairwise_map]
  exact List.pairwise_lt_range.imp fun hlt => .inr ⟨rfl, by simp only; omega⟩

theorem pairwise_columns (y h : Int) (n : Nat) (i : Int) : (columns y h n i).Pairwise ColumnThenRow := by
  induction n generalizing i with
  | zero => exact List.Pairwise.nil
  | succ n ih =>
    refine List.pairwise_append.mpr ⟨pairwise_vPath i y h, ih (i + 1), fun p hp q hq => .inl ?_⟩
    have hcol : p.1 = i := ((mem_vPath i y h p).mp hp).1
    have hright : i + 1 ≤ q.1 := ((mem_columns y h n (i + 1) q).mp hq).1
    omega

/-- Settles O38: columns left to right, each top to bottom, and each point of the rectangle in its column. -/
theorem rectangleVisitsEachPointOnce : Obligations.RectangleVisitsEachPointOnce := by
  intro x y v h _ hh
  refine ⟨pairwise_columns y h v.toNat x, fun pt => ?_⟩
  rw [mem_rectPath_iff, if_pos hh]
  omega

end Sys2Proof.Machine
end

section
/-!
PROOFS. Where points are stored, and reads after writes (20_memory.md R59 to R62; 40_pixel.md R106; 42_fill.md R145): the
transform's inverse tells which point a physical pixel belongs to.
-/

namespace Sys2Proof.Machine

/-! ### The inverse of the transform (20_memory.md R56, R62) -/

/-- The logical point whose physical coordinate is `(x', y')` under rotation `r`. -/
def unxform (c : Config) (x' y' : Int) (r : BitVec 2) : Point :=
  if r = 0 then (x', y')
  else if r = 1 then (y', (c.w : Int) - 1 - x')
  else if r = 2 then ((c.w : Int) - 1 - x', (c.h : Int) - 1 - y')
  else ((c.h : Int) - 1 - y', x')

section
variable (c : Config) (x' y' : Int)

@[simp] theorem unxform_zero : unxform c x' y' 0#2 = (x', y') := rfl

@[simp] theorem unxform_one : unxform c x' y' 1#2 = (y', (c.w : Int) - 1 - x') := rfl

@[simp] theorem unxform_two : unxform c x' y' 2#2 = ((c.w : Int) - 1 - x', (c.h : Int) - 1 - y') := rfl

@[simp] theorem unxform_three : unxform c x' y' 3#2 = ((c.h : Int) - 1 - y', x') := rfl

end

section
variable {c : Config} {r : BitVec 2}

/-- The transform of each rotation is one-to-one. -/
theorem xform_eq_iff {x y x' y' : Int} : xform c x y r = (x', y') ↔ (x, y) = unxform c x' y' r := by
  rcases rotation_cases r with rfl | rfl | rfl | rfl <;>
    simp only [BitVec.ofNat_eq_ofNat, xform_zero, xform_one, xform_two, xform_three, unxform_zero, unxform_one,
      unxform_two, unxform_three, Prod.mk.injEq] <;>
    omega

/-! ### What `Locate` answers (20_memory.md R61) -/

theorem locate_eq_clip_iff {x y : Int} : locate c r x y = .clip ↔ ¬ inRange c r x y = true := by
  rcases locate_cases c r x y with ⟨hr, h⟩ | ⟨hr, -, h⟩ | ⟨hr, x', y', -, -, -, h⟩ <;> simp [hr, h]

/-- A point neither clipped nor out of buffer is stored at its physical coordinate. -/
theorem locate_eq_cell {x y : Int} (hclip : locate c r x y ≠ .clip) (hoob : (locate c r x y).isOob = false) :
    locate c r x y = .cell (byteIndex c (xform c x y r).1 (xform c x y r).2) (bitIndex (xform c x y r).1) := by
  rcases locate_cases c r x y with ⟨-, h⟩ | ⟨-, -, h⟩ | ⟨-, x', y', -, -, hxy, h⟩
  · exact absurd h hclip
  · simp [h] at hoob
  · rw [h, hxy]

/-- The points stored where physical pixel `(x', y')` is: those in range with that physical coordinate. -/
theorem locate_eq_pixel_iff (hl : c.legal = true) {x y : Int} {x' y' : Nat} (hx : x' < c.w) (hy : y' < c.h) :
    locate c r x y = .cell (y' * c.bpl + x' / 8) (x' % 8) ↔
      inRange c r x y = true ∧ (x, y) = unxform c x' y' r := by
  rw [← xform_eq_iff]
  rcases locate_cases c r x y with ⟨hr, h⟩ | ⟨hr, hbox, h⟩ | ⟨hr, a, b, ha, hb, hxy, h⟩
  · simp [h, hr]
  · rw [h]
    refine ⟨nofun, fun ⟨_, hxy⟩ => ?_⟩
    have hin : inBox (x' : Int) (y' : Int) c.w c.h = true := (inBox_iff _ _ _ _).mpr (by omega)
    rw [hxy, hin] at hbox
    cases hbox
  · rw [h, hxy, byteIndex_eq hl, bitIndex_eq]
    simp only [Located.cell.injEq, hr, true_and, Prod.mk.injEq, Nat.cast_inj]
    constructor
    · rintro ⟨hbyte, hbit⟩
      obtain ⟨hrow, hcol⟩ := layout_injective hl hx ha hbyte
      omega
    · rintro ⟨rfl, rfl⟩
      exact ⟨rfl, rfl⟩

/-- Without a band every physical pixel belongs to a point in range (20_memory.md R62). -/
theorem inRange_unxform_of_not_hasBand (hno : ¬ hasBand c r) {x' y' : Nat} (hx : x' < c.w) (hy : y' < c.h) :
    inRange c r (unxform c x' y' r).1 (unxform c x' y' r).2 = true := by
  rw [inRange, inBox_iff]
  rcases rotation_cases r with rfl | rfl | rfl | rfl
  · rw [extent_of_straight rfl]
    simp only [BitVec.ofNat_eq_ofNat, unxform_zero]
    omega
  · rw [extent_of_not_hasBand (.inl rfl) hno]
    simp only [BitVec.ofNat_eq_ofNat, unxform_one]
    omega
  · rw [extent_of_straight rfl]
    simp only [BitVec.ofNat_eq_ofNat, unxform_two]
    omega
  · rw [extent_of_not_hasBand (.inr rfl) hno]
    simp only [BitVec.ofNat_eq_ofNat, unxform_three]
    omega

/-- On a panel with a band, the physical pixels that belong to a point in range: the table of 42_fill.md R145. -/
theorem inRange_unxform_iff_of_hasBand (hb : hasBand c r) {x' y' : Nat} (hx : x' < c.w) (hy : y' < c.h) :
    inRange c r (unxform c x' y' r).1 (unxform c x' y' r).2 = true ↔
      if c.h < c.w then (if r = 1 then c.w - c.h ≤ x' else x' < c.h)
      else (if r = 1 then y' < c.w else c.h - c.w ≤ y') := by
  obtain ⟨hmode, hr, hne⟩ := hb
  rw [inRange, inBox_iff, extent_of_unswapped hmode]
  rcases hr with rfl | rfl
  · simp only [BitVec.ofNat_eq_ofNat, unxform_one, if_true]
    split <;> omega
  · simp only [BitVec.ofNat_eq_ofNat, unxform_three, show ¬ (3#2 = 1#2) by decide, if_false]
    split <;> omega

theorem isOob_locate_of_not_hasBand (hno : ¬ hasBand c r) (x y : Int) : (locate c r x y).isOob = false := by
  rw [← Bool.not_eq_true, isOob_locate_iff]
  rintro ⟨hin, hout⟩
  rw [inBox_xform_of_not_hasBand hno hin] at hout
  cases hout

/-- Without a band a physical pixel is where exactly one point in range is stored (20_memory.md R62). -/
theorem existsUnique_stored_of_not_hasBand (hl : c.legal = true) (hno : ¬ hasBand c r) {x' y' : Nat} (hx : x' < c.w)
    (hy : y' < c.h) :
    ∃! pt : Point, inRange c r pt.1 pt.2 = true ∧ locate c r pt.1 pt.2 = .cell (y' * c.bpl + x' / 8) (x' % 8) := by
  have hin := inRange_unxform_of_not_hasBand hno hx hy
  refine ⟨unxform c x' y' r, ⟨hin, (locate_eq_pixel_iff hl hx hy).mpr ⟨hin, rfl⟩⟩, fun pt ⟨_, hloc⟩ => ?_⟩
  exact ((locate_eq_pixel_iff hl hx hy).mp hloc).2

/-- The panels R62 names as having no out-of-buffer point. -/
theorem not_hasBand_of_full (h : r = 0 ∨ r = 2 ∨ c.w = c.h ∨ c.boundsMode = .swapped) : ¬ hasBand c r := by
  rintro ⟨hmode, hr, hne⟩
  rcases h with rfl | rfl | hsquare | hswap
  · exact absurd hr (by decide)
  · exact absurd hr (by decide)
  · exact hne hsquare
  · rw [hmode] at hswap; cases hswap

end

/-- Settles O26: the clip test by the written-out extent, the band by its points, and without a band the inverse of the
transform. -/
theorem outOfBufferExactlyInBand : Obligations.OutOfBufferExactlyInBand := fun _ hl _ =>
  ⟨fun x y => locate_eq_clip_iff.trans (not_congr (inRange_iff x y)), fun _ _ => locate_eq_cell,
    isOob_locate_iff_of_hasBand,
    fun hno => ⟨isOob_locate_of_not_hasBand hno, fun _ _ => existsUnique_stored_of_not_hasBand hl hno⟩⟩

/-! ### A read after a write (40_pixel.md R106) -/

/-- A point in range is stored, unless it is out of buffer. -/
theorem State.storedAt_of_inRange {s : State} {x y : Int} (hin : inRange s.cfg s.rot x y = true)
    (hoob : ¬ s.oobAt (x, y)) : ∃ i p, s.storedAt (x, y) i p :=
  ⟨_, _, locate_eq_cell (fun h => locate_eq_clip_iff.mp h hin) (Bool.eq_false_of_not_eq_true hoob)⟩

/-- A read of a point whose bit has the colour, in a state that locates points as `s` does. -/
theorem exec_getPixel_of_painted {s u : State} {x y : Int} {i p : Nat} {col : Bool} (hl : s.cfg.legal = true)
    (hcfg : u.cfg = s.cfg) (hrot : u.rot = s.rot) (hst : s.storedAt (x, y) i p) (hbit : u.fbBit i p = col) :
    exec (.getPixel x y) u = .next { u with busy := true, rsp := some { status := .ok, data := if col then 1 else 0 } } := by
  have hloc : locate u.cfg u.rot x y = .cell i p := by rw [hcfg, hrot]; exact hst
  rw [exec_getPixel_of_cell (hcfg ▸ hl) hloc, hbit]

section
variable {s t u : State} {x y : Int} {col : Bool}

/-- What SET_PIXEL leaves (40_pixel.md R100). -/
theorem setPixel_paintsExactly (hw : s.fb.wf = true) (h : exec (.setPixel x y col) s = .next t) :
    PaintsExactly (fun pt => pt = (x, y)) col s t := by
  obtain ⟨t', ht', hpaint⟩ := (setPixelWritesItsPixel.2 s x y col (exec_answers h).1 hw).1
  rw [h] at ht'
  cases ht'
  exact hpaint

/-- GET_PIXEL of a stored point returns what SET_PIXEL wrote there, as long as `FB`, `ROT` and the parameters stay. -/
theorem getPixel_after_setPixel (hw : s.fb.wf = true) (h : exec (.setPixel x y col) s = .next t) (hcfg : u.cfg = t.cfg)
    (hfb : u.fb = t.fb) (hrot : u.rot = t.rot) {i p : Nat} (hst : s.storedAt (x, y) i p) :
    exec (.getPixel x y) u = .next { u with busy := true, rsp := some { status := .ok, data := if col then 1 else 0 } } := by
  have hbit : t.fbBit i p = col := (setPixel_paintsExactly hw h).1 _ i p rfl hst
  refine exec_getPixel_of_painted (exec_answers h).1 (hcfg.trans (exec_cfg h)) (hrot.trans (exec_rot h nofun)) hst ?_
  rw [← hbit, State.fbBit, State.fbBit, hfb]

theorem getPixel_oob_after_setPixel (h : exec (.setPixel x y col) s = .next t) (hcfg : u.cfg = t.cfg)
    (hrot : u.rot = t.rot) (hoob : s.oobAt (x, y)) :
    exec (.getPixel x y) u =
      .next { u with busy := true, oobS := true, rsp := some { status := .outOfBuffer, data := 0 } } := by
  have hcfg' : u.cfg = s.cfg := hcfg.trans (exec_cfg h)
  have hrot' : u.rot = s.rot := hrot.trans (exec_rot h nofun)
  obtain ⟨x', y', hloc⟩ := Located.isOob_iff.mp hoob
  rw [← hcfg', ← hrot'] at hloc
  exact exec_getPixel_of_oob (hcfg' ▸ (exec_answers h).1) hloc

end

/-- Settles O29: the write paints its point's bit, and the read locates the same bit. -/
theorem writtenPixelReadsBack : Obligations.WrittenPixelReadsBack := by
  intro s x y col hl hw hin
  refine ⟨fun hfull => State.storedAt_of_inRange hin fun ho => not_hasBand_of_full hfull (State.hasBand_of_oobAt ho), ?_⟩
  obtain ⟨t, ht⟩ := exec_answers_of_legal hl (.setPixel x y col)
  refine ⟨t, ht, fun u hcfg hfb hrot => ?_⟩
  obtain ⟨v, hv⟩ := exec_answers_of_legal (hcfg ▸ exec_cfg ht ▸ hl) (.getPixel x y)
  refine ⟨v, hv, fun i p hst => ?_, fun hoob => ⟨?_, ?_⟩⟩
  · rw [getPixel_after_setPixel hw ht hcfg hfb hrot hst] at hv
    cases hv; rfl
  · exact (setPixel_paintsExactly hw ht).rsp_outOfBuffer_iff.mpr ⟨_, rfl, hoob⟩
  · rw [getPixel_oob_after_setPixel ht hcfg hrot hoob] at hv
    cases hv; rfl

/-! ### What FILL_SCREEN reaches (42_fill.md R145) -/

section
variable {s t : State} {col : Bool}

/-- What FILL_SCREEN leaves: the points in range, painted (42_fill.md R144). -/
theorem fillScreen_paintsExactly (hw : s.fb.wf = true) (h : exec (.fillScreen col) s = .next t) :
    PaintsExactly (fun pt => inRange s.cfg s.rot pt.1 pt.2 = true) col s t := by
  have hl := (exec_answers h).1
  obtain ⟨t', ht', hpaint⟩ := command_draw_paintsExactly hl hw col (mem_rectPath_extent_iff (r := s.rot) hl)
  have : t' = t := by
    have h' : command s (draw col (rectPath 0 0 (extent s.cfg s.rot).1 (extent s.cfg s.rot).2)) = .next t := h
    rw [ht'] at h'
    cases h'; rfl
  exact this ▸ hpaint

/-- A physical pixel has the colour after FILL_SCREEN when the point it belongs to is in range, and else stays. -/
theorem fillScreen_pixel (hw : s.fb.wf = true) (h : exec (.fillScreen col) s = .next t) {x' y' : Nat}
    (hx : x' < s.cfg.w) (hy : y' < s.cfg.h) :
    t.pixel x' y' =
      if inRange s.cfg s.rot (unxform s.cfg x' y' s.rot).1 (unxform s.cfg x' y' s.rot).2 = true then col
      else s.pixel x' y' := by
  have hl := (exec_answers h).1
  obtain ⟨hpainted, hother, -⟩ := fillScreen_paintsExactly hw h
  rw [State.pixel, State.pixel, exec_cfg h]
  split
  · next hin => exact hpainted _ _ _ hin ((locate_eq_pixel_iff hl hx hy).mpr ⟨hin, rfl⟩)
  · next hout =>
    refine hother _ _ fun pt hin hst => hout ?_
    rw [← ((locate_eq_pixel_iff hl hx hy).mp hst).2]
    exact hin

/-- Without a band every pixel is painted. -/
theorem fillScreen_pixel_of_not_hasBand (hw : s.fb.wf = true) (h : exec (.fillScreen col) s = .next t)
    (hno : ¬ hasBand s.cfg s.rot) {x' y' : Nat} (hx : x' < s.cfg.w) (hy : y' < s.cfg.h) : t.pixel x' y' = col := by
  rw [fillScreen_pixel hw h hx hy, if_pos (inRange_unxform_of_not_hasBand hno hx hy)]

/-- Without a band every in-range read after FILL_SCREEN returns its colour. -/
theorem getPixel_after_fillScreen (hw : s.fb.wf = true) (h : exec (.fillScreen col) s = .next t)
    (hno : ¬ hasBand s.cfg s.rot) {x y : Int} (hin : inRange s.cfg s.rot x y = true) :
    exec (.getPixel x y) t = .next { t with busy := true, rsp := some { status := .ok, data := if col then 1 else 0 } } := by
  obtain ⟨i, p, hst⟩ := State.storedAt_of_inRange hin fun ho => hno (State.hasBand_of_oobAt ho)
  exact exec_getPixel_of_painted (exec_answers h).1 (exec_cfg h) (exec_rot h nofun) hst
    ((fillScreen_paintsExactly hw h).1 (x, y) i p hin hst)

end

/-- Settles O40: the pixels that belong to a point in range, which are all of them, or those of R145's table. -/
theorem fillScreenReachesItsPart : Obligations.FillScreenReachesItsPart := by
  intro s col hl hw
  obtain ⟨t, ht⟩ := exec_answers_of_legal hl (.fillScreen col)
  obtain ⟨-, -, -, hoob, hok⟩ := fillScreen_paintsExactly hw ht
  refine ⟨t, ht, fun hfull => ?_, fun hb => ?_⟩
  · have hno := not_hasBand_of_full hfull
    have heq := hok fun pt _ ho => hno (State.hasBand_of_oobAt ho)
    refine ⟨by rw [heq], by rw [heq], fun x' y' hx hy => fillScreen_pixel_of_not_hasBand hw ht hno hx hy,
      fun x y hin => ⟨_, getPixel_after_fillScreen hw ht hno hin, rfl⟩⟩
  · have heq := hoob ((State.exists_inRange_oobAt_iff hl).mpr hb)
    refine ⟨by rw [heq], by rw [heq], fun x' y' hx hy => ?_⟩
    rw [fillScreen_pixel hw ht hx hy]
    simp only [inRange_unxform_iff_of_hasBand hb hx hy]

end Sys2Proof.Machine
end

section
/-!
PROOFS. The codec's laws (43_codec.md R153) and the transport (44_wire.md): its three ways to answer (R161), the length of a
Refresh and where a pixel goes out (R181 to R184), a transaction that waits (R161, R164, R165), and the polarity (R186).
-/

namespace Sys2Proof.Machine

/-! ### The codec (43_codec.md R153) -/

/-- A byte is the reversal of another when its bits are. -/
theorem rev8_eq_iff {a b : Byte} : rev8 a = b ↔ ∀ i, i < 8 → a.getLsbD (7 - i) = b.getLsbD i := by
  constructor
  · rintro rfl i hi
    exact (getLsbD_rev8 a hi).symm
  · intro h
    exact BitVec.eq_of_getLsbD_eq fun i hi => (getLsbD_rev8 a hi).trans (h i hi)

theorem rev8_rev8 (b : Byte) : rev8 (rev8 b) = b := by
  refine rev8_eq_iff.mpr fun i hi => ?_
  rw [getLsbD_rev8 b (by omega), Nat.sub_sub_self (by omega)]

theorem rev8_or (a b : Byte) : rev8 (a ||| b) = rev8 a ||| rev8 b :=
  rev8_eq_iff.mpr fun i hi => by rw [BitVec.getLsbD_or, BitVec.getLsbD_or, getLsbD_rev8 a hi, getLsbD_rev8 b hi]

theorem rev8_and (a b : Byte) : rev8 (a &&& b) = rev8 a &&& rev8 b :=
  rev8_eq_iff.mpr fun i hi => by rw [BitVec.getLsbD_and, BitVec.getLsbD_and, getLsbD_rev8 a hi, getLsbD_rev8 b hi]

theorem rev8_not (b : Byte) : rev8 (~~~b) = ~~~rev8 b :=
  rev8_eq_iff.mpr fun i hi => by
    rw [BitVec.getLsbD_not, BitVec.getLsbD_not, getLsbD_rev8 b hi]
    simp [hi, show 7 - i < 8 by omega]

/-- The lower half of the bits decides whether a byte reads the same both ways. -/
theorem rev8_eq_self_iff (b : Byte) : rev8 b = b ↔ ∀ i, i < 4 → b.getLsbD i = b.getLsbD (7 - i) := by
  rw [rev8_eq_iff]
  refine ⟨fun h i hi => (h i (by omega)).symm, fun h i hi => ?_⟩
  by_cases hlow : i < 4
  · exact (h i hlow).symm
  · rw [h (7 - i) (by omega), Nat.sub_sub_self (by omega)]

/-- Settles O42, from the bits of the reversal. -/
theorem codecLaws : Obligations.CodecLaws := fun a b =>
  ⟨rev8_rev8 b, by decide, by decide, fun h => by rw [← rev8_rev8 a, h, rev8_rev8], rev8_or a b, rev8_and a b,
    rev8_not b, rev8_eq_self_iff b⟩

/-! ### The transport's answers (44_wire.md R161) -/

/-- The transport answers the next `n` bytes in one of its three ways. -/
def TransportAnswers (s : State) (n : Nat) : Prop :=
  (∃ rest, TransportAccepts s n rest) ∨ (∃ k c rest, TransportRejects s n k c rest) ∨ ∃ k, TransportWaits s n k

/-- With no sample left, the level of the pins answers. -/
theorem transportAnswers_of_no_samples {s : State} (hs : s.txScript = []) {n : Nat} (hn : 0 < n) :
    TransportAnswers s n := by
  have hv : verdicts s.txScript = List.replicate 0 .accepted := by rw [hs]; rfl
  cases hlevel : s.pins.tx.verdict with
  | none => exact .inr (.inr ⟨0, hn, hv, hlevel⟩)
  | some v =>
    cases v with
    | accepted => exact .inl ⟨[], .inr ⟨0, hn, hv, hlevel, rfl⟩⟩
    | rejected c => exact .inr (.inl ⟨0, c, [], hn, .inr ⟨hv, hlevel, rfl⟩⟩)

/-- A sample that accepts `j` bytes (one or none) before the answer to the rest of them. -/
theorem TransportAnswers.cons {s : State} {p : TxPins} {ps : List TxPins} {j m : Nat} (hs : s.txScript = p :: ps)
    (hp : verdicts [p] = List.replicate j .accepted) (hm : 0 < m) (h : TransportAnswers { s with txScript := ps } m) :
    TransportAnswers s (j + m) := by
  have hcons : ∀ {qs k}, verdicts qs = List.replicate k .accepted →
      verdicts (p :: qs) = List.replicate (j + k) .accepted := by
    intro qs k hqs
    rw [List.replicate_add, ← hp, ← hqs]
    exact List.filterMap_append (l := [p])
  rcases h with ⟨rest, ⟨pre, hpre, hv, hlast⟩ | ⟨k, hk, hv, hlevel, hrest⟩⟩ |
    ⟨k, c, rest, hk, ⟨pre, q, hpre, hv, hq⟩ | ⟨hv, hlevel, hrest⟩⟩ | ⟨k, hk, hv, hlevel⟩
  · refine .inl ⟨rest, .inl ⟨p :: pre, hs.trans (congrArg (p :: ·) hpre), hcons hv, ?_⟩⟩
    cases pre with
    | nil =>
      have := congrArg List.length hv
      simp at this
      omega
    | cons q qs => exact hlast
  · exact .inl ⟨rest, .inr ⟨j + k, by omega, hs ▸ hcons hv, hlevel, hrest⟩⟩
  · exact .inr (.inl ⟨j + k, c, rest, by omega,
      .inl ⟨p :: pre, q, hs.trans (congrArg (p :: ·) hpre), hcons hv, hq⟩⟩)
  · exact .inr (.inl ⟨j + k, c, rest, by omega, .inr ⟨hs ▸ hcons hv, hlevel, hrest⟩⟩)
  · exact .inr (.inr ⟨j + k, by omega, hs ▸ hcons hv, hlevel⟩)

theorem transportAnswers (s : State) {n : Nat} (hn : 0 < n) : TransportAnswers s n := by
  induction hs : s.txScript generalizing s n with
  | nil => exact transportAnswers_of_no_samples hs hn
  | cons p ps ih =>
    cases hv : p.verdict with
    | none =>
      have := TransportAnswers.cons (j := 0) hs (by simp [verdicts, hv]) hn (ih { s with txScript := ps } hn rfl)
      rwa [Nat.zero_add] at this
    | some v =>
      cases v with
      | rejected c => exact .inr (.inl ⟨0, c, ps, hn, .inl ⟨[], p, hs, rfl, hv⟩⟩)
      | accepted =>
        have hp : verdicts [p] = List.replicate 1 .accepted := by simp [verdicts, hv]
        obtain ⟨m, rfl⟩ : ∃ m, n = 1 + m := ⟨n - 1, by omega⟩
        rcases Nat.eq_zero_or_pos m with rfl | hm
        · refine .inl ⟨ps, .inl ⟨[p], hs, hp, fun q hq => ?_⟩⟩
          cases hq
          exact hv
        · exact TransportAnswers.cons hs hp hm (ih { s with txScript := ps } hm rfl)

/-- Settles O44: the pins' meaning by their verdict, the three ways by the samples one after the other. -/
theorem transportAnswersInOneOfThreeWays : Obligations.TransportAnswersInOneOfThreeWays := by
  refine ⟨fun p => ⟨fun herr => ?_, fun herr hready => ?_, fun herr hready => ?_⟩, fun s _ hn => transportAnswers s hn⟩
  · rw [TxPins.verdict, if_pos herr]
  · simp [TxPins.verdict, herr, hready]
  · simp [TxPins.verdict, herr, hready]

/-! ### The bytes of a Refresh (44_wire.md R181 to R184) -/

/-- Settles O47, with the largest legal panel. -/
theorem refreshLength : Obligations.RefreshLength := fun vcom cfg fb =>
  ⟨length_refreshFormat vcom cfg fb, fun hl => length_refreshFormat_le hl vcom fb⟩

/-- A place in a row of blocks of one length. -/
theorem getElem?_flatMap_range {α : Type} {f : Nat → List α} {len : Nat} (hf : ∀ i, (f i).length = len) {n i j : Nat}
    (hi : i < n) (hj : j < len) : ((List.range n).flatMap f)[i * len + j]? = (f i)[j]? := by
  induction n with
  | zero => omega
  | succ n ih =>
    have hlen : ((List.range n).flatMap f).length = n * len := by simp [List.length_flatMap, hf]
    rw [List.range_succ, List.flatMap_append, List.flatMap_singleton]
    rcases Nat.lt_succ_iff_lt_or_eq.mp hi with hlt | rfl
    · have hle : (i + 1) * len ≤ n * len := Nat.mul_le_mul_right len hlt
      rw [List.getElem?_append_left (by rw [hlen]; linarith), ih hlt]
    · rw [List.getElem?_append_right (by omega), hlen, Nat.add_sub_cancel_left]

section
variable (vcom : Bool) (cfg : Config) (fb : Memory) {l j : Nat}

/-- A byte of scanline `l + 1` in the stream. -/
theorem getElem?_refreshFormat (hl : l < cfg.h) (hj : j < cfg.bpl + 2) :
    (refreshFormat vcom cfg fb)[1 + l * (cfg.bpl + 2) + j]? = (lineFormat cfg fb l)[j]? := by
  have hline := getElem?_flatMap_range (length_lineFormat cfg fb) hl hj
  have hin : j < (lineFormat cfg fb l).length := by rwa [length_lineFormat]
  rw [List.getElem?_eq_getElem hin] at hline ⊢
  rw [refreshFormat, List.cons_append, Nat.add_assoc, Nat.add_comm 1, List.getElem?_cons_succ,
    List.getElem?_append_left (List.getElem?_eq_some_iff.mp hline).1, hline]

theorem getElem?_lineFormat_address : (lineFormat cfg fb l)[0]? = some (rev8 (BitVec.ofNat 8 (l + 1))) := rfl

theorem getElem?_lineFormat_data (hj : j < cfg.bpl) :
    (lineFormat cfg fb l)[1 + j]? = some (rev8 (fb.read (l * cfg.bpl + j))) := by
  rw [lineFormat, List.cons_append, Nat.add_comm 1, List.getElem?_cons_succ,
    List.getElem?_append_left (by simpa using hj), List.getElem?_map, List.getElem?_range hj]
  rfl

end

/-- Settles O48: the address byte and the data bytes of a scanline, and the reversal of a data byte's bits. -/
theorem refreshCarriesEachPixel : Obligations.RefreshCarriesEachPixel := by
  intro vcom cfg fb x' y' hl hx hy
  have hbyte : x' / 8 < cfg.bpl := by
    have := bpl_mul_eight hl
    omega
  refine ⟨(getElem?_refreshFormat vcom cfg fb (j := 0) hy (by omega)).trans (getElem?_lineFormat_address cfg fb),
    rev8 (fb.read (y' * cfg.bpl + x' / 8)), ?_, ?_⟩
  · rw [Nat.add_assoc _ 1, getElem?_refreshFormat vcom cfg fb hy (by omega), getElem?_lineFormat_data cfg fb hbyte]
  · rw [getLsbD_rev8 _ (by omega), Nat.sub_sub_self (by omega)]

/-! ### A transaction that waits (44_wire.md R161, R164, R165) -/

theorem step_of_transaction {s : State} {x : Tx} (hl : s.cfg.legal = true) (hr : s.pins.rst = false)
    (hseq : s.seq = .transaction x) : step s = .next (carryOn x s) := by
  simp [step, coreEdge, runningEdge, hl, hr, hseq]

/-- Settles O49: the step is the rest of the transaction, by the transport's answer. -/
theorem waitingTransactionGoesOn : Obligations.WaitingTransactionGoesOn := by
  intro s x hl hr hseq _
  rw [step_of_transaction hl hr hseq]
  exact ⟨fun rest h => congrArg _ (carryOn_of_accepts h), fun k c rest h => congrArg _ (carryOn_of_rejects h),
    fun k h => congrArg _ (carryOn_of_waits h)⟩

/-- Samples that come in two lots: the first ends the transaction, and the second is left over, or it leaves a byte on
offer, and the transaction goes on from there with the second. -/
theorem carryOn_append_script {s u : State} {x : Tx} {xs ys : List TxPins} (hlevel : s.pins.tx.verdict = none)
    (hu : carryOn x { s with txScript := xs } = u) :
    (u.seq = .idle ∧ carryOn x { s with txScript := xs ++ ys } = { u with txScript := u.txScript ++ ys }) ∨
    (u.cfg = s.cfg ∧ u.pins = s.pins ∧ ∃ x', u.seq = .transaction x' ∧
      carryOn x { s with txScript := xs ++ ys } = carryOn x' { u with txScript := ys }) := by
  obtain ⟨hended, hwaiting⟩ := offerBytes_append_script s.pins.tx hlevel xs ys x.pending x.accepted
  rw [carryOn_eq x { s with txScript := xs } _ rfl] at hu
  cases hend : (offerBytes s.pins.tx xs x.pending x.accepted).rejected.isSome ||
      (offerBytes s.pins.tx xs x.pending x.accepted).pending.isEmpty with
  | true =>
    refine .inl ?_
    rw [if_pos hend, endTransaction_eq] at hu
    rw [carryOn_eq x { s with txScript := xs ++ ys } _ (hended hend), if_pos hend, endTransaction_eq, ← hu]
    exact ⟨rfl, rfl⟩
  | false =>
    refine .inr ?_
    rw [if_neg (by simpa using hend)] at hu
    rw [carryOn_eq x { s with txScript := xs ++ ys } _ (hwaiting hend).2, ← hu]
    refine ⟨rfl, rfl, _, rfl, ?_⟩
    rw [carryOn_eq _ _ _ rfl]
    simp only [Stretch.precededBy, endTransaction_eq, List.append_assoc]

/-- Settles O50: each step carries the transaction on, so that the two lots of samples add up. -/
theorem waitingIsUnobservable : Obligations.WaitingIsUnobservable := by
  intro s x xs ys hl hr hseq hlevel
  refine ⟨_, step_of_transaction (s := { s with txScript := xs }) hl hr hseq, ?_⟩
  rw [step_of_transaction (s := { s with txScript := xs ++ ys }) hl hr hseq]
  generalize hu : carryOn x { s with txScript := xs } = u
  rcases carryOn_append_script (ys := ys) hlevel hu with ⟨hidle, e⟩ | ⟨hcfg, hpins, x', htrans, e⟩
  · rw [e]
    split
    · next h => rw [hidle] at h; cases h
    · rfl
    · rfl
  · rw [e]
    split
    · next h =>
      rw [htrans] at h
      cases h
      exact (step_of_transaction (s := { u with txScript := ys }) (hcfg ▸ hl) (hpins ▸ hr) htrans).symm
    · next h => rw [htrans] at h; cases h
    · next h => rw [htrans] at h; cases h

/-! ### A transport that answers (70_reset_and_hazards.md R252) -/

/-- With pins that rest at an answer a transaction ends at once. -/
theorem carryOn_of_answering {s : State} (h : s.pins.tx.verdict ≠ none) (x : Tx) :
    (carryOn x s).seq = .idle ∧ (carryOn x s).cs = false ∧ (x.op ≠ .resetClear → (carryOn x s).rsp.isSome = true) := by
  obtain ⟨-, hpending, -⟩ := offerBytes_fits s.pins.tx s.txScript x.pending x.accepted
  rcases carryOn_cases x s _ rfl with ⟨-, e⟩ | ⟨hnone, hne, -⟩
  · rw [e]
    exact ⟨rfl, rfl, fun hop => by simp [hop]⟩
  · exact absurd (hpending h hnone) hne

/-- Settles O51: CLEAR, REFRESH and a step each carry a transaction on. -/
theorem answeringTransportEndsTransactions : Obligations.AnsweringTransportEndsTransactions := by
  intro s hl hv
  refine ⟨⟨_, exec_clear hl, ?_⟩, ⟨_, exec_refresh hl, ?_⟩, fun x hr hseq => ?_⟩
  · obtain ⟨hseq, hcs, hrsp⟩ := carryOn_of_answering
      (s := select true { s with busy := true, fb := s.fb.blank s.cfg.nb }) hv ⟨.clear, _, 0⟩
    exact ⟨hseq, hrsp nofun, hcs⟩
  · obtain ⟨hseq, hcs, hrsp⟩ := carryOn_of_answering
      (s := select true { s with busy := true, vcom := !s.vcom }) hv ⟨.refresh, _, 0⟩
    exact ⟨hseq, hrsp nofun, hcs⟩
  · obtain ⟨hseq', hcs, -⟩ := carryOn_of_answering hv x
    exact ⟨_, step_of_transaction hl hr hseq, hseq', hcs⟩

/-! ### The polarity (44_wire.md R186) -/

/-- A Clear inverts the polarity when it ends, a Refresh has done so before (44_wire.md R171, R180). -/
theorem carryOn_vcom (x : Tx) (s : State) :
    (carryOn x s).vcom = if x.op ≠ .refresh ∧ (carryOn x s).seq = .idle then !s.vcom else s.vcom := by
  rcases carryOn_cases x s _ rfl with ⟨-, e⟩ | ⟨-, -, e⟩ <;> rw [e]
  · by_cases hop : x.op = .refresh <;> simp [hop]
  · simp

theorem transact_vcom (op : TxOp) (bytes : List Byte) (s : State) :
    (transact op bytes s).vcom = if op ≠ .refresh ∧ (transact op bytes s).seq = .idle then !s.vcom else s.vcom :=
  carryOn_vcom ⟨op, bytes, 0⟩ (select true s)

theorem clearOp_vcom (op : TxOp) (hop : op ≠ .refresh) (s : State) :
    (clearOp op s).vcom = if (clearOp op s).seq = .idle then !s.vcom else s.vcom := by
  have h := transact_vcom op (clearBytes s) { s with fb := s.fb.blank s.cfg.nb }
  simp only [hop, ne_eq, not_false_eq_true, true_and] at h
  exact h

/-- Settles O52: each command and step that runs a part of a transaction, by where that transaction inverts. -/
theorem polarityAlternates : Obligations.PolarityAlternates := by
  refine ⟨fun s t h => ?_, fun s t h => ?_, fun s t x hr hseq h => ?_, fun s t hr hseq h => ?_⟩
  · have ha := (exec_answers h).2
    subst ha
    exact (transact_vcom .refresh _ _).trans (if_neg fun hop => hop.1 rfl)
  · have ha := (exec_answers h).2
    subst ha
    exact clearOp_vcom .clear nofun { s with busy := true }
  · rw [step_of_transaction (step_cases h).1 hr hseq] at h
    cases h
    exact carryOn_vcom x s
  · rw [step_of_resetClear (step_cases h).1 hr hseq] at h
    cases h
    exact clearOp_vcom .resetClear nofun s

end Sys2Proof.Machine
end

section
/-!
PROOFS. R30's claims (10_state.md; 93_implementation_defined.md 1 and 10): which commands leave no sticky bit set, that a
run which ends with none set raised nothing, and what every command did that leaves none set.
-/

namespace Sys2Proof.Machine

/-! ### States with no sticky bit set -/

theorem State.faulted_eq_false_iff {s : State} :
    s.faulted = false ↔ s.oobS = false ∧ s.illS = false ∧ s.txeS = false := by
  simp [State.faulted, and_assoc]

/-- If every sticky bit of `s` is still set in `t`, and `t` has none set, `s` had none set. -/
theorem KeepsSticky.unfaulted {s t : State} (h : KeepsSticky s t) (ht : t.faulted = false) : s.faulted = false := by
  obtain ⟨ho, hi, hx⟩ := h
  obtain ⟨hto, hti, htx⟩ := State.faulted_eq_false_iff.mp ht
  refine State.faulted_eq_false_iff.mpr ⟨?_, ?_, ?_⟩
  · exact Bool.eq_false_of_not_eq_true fun hs => by rw [ho hs] at hto; cases hto
  · exact Bool.eq_false_of_not_eq_true fun hs => by rw [hi hs] at hti; cases hti
  · exact Bool.eq_false_of_not_eq_true fun hs => by rw [hx hs] at htx; cases htx

/-- With no sticky bit set only `OK` can be reported (60_exceptions.md R200). -/
theorem StickyShows.ok_of_unfaulted {st : Status} {t : State} (h : StickyShows st t) (ht : t.faulted = false) :
    st = .ok := by
  obtain ⟨hoob, hill, htx⟩ := h
  obtain ⟨hto, hti, htx'⟩ := State.faulted_eq_false_iff.mp ht
  cases st with
  | ok => rfl
  | outOfBuffer => rw [hoob rfl] at hto; cases hto
  | illegalCommand => rw [hill rfl] at hti; cases hti
  | transportError => rw [htx rfl] at htx'; cases htx'

/-- A command that leaves no sticky bit set reports `OK`. -/
theorem exec_ok_of_unfaulted {i : Instr} {s t : State} (h : exec i s = .next t) (ht : t.faulted = false) {r : Response}
    (hs : s.rsp = none) (hr : t.rsp = some r) : r.status = .ok :=
  StickyShows.ok_of_unfaulted (familiesRaiseTheirOwnExceptions i s t r h hs hr).2 ht

/-! ### The drawing commands (60_exceptions.md R202) -/

theorem someOob_eq_false_iff {s : State} {pts : List Point} :
    someOob s.cfg s.rot pts = false ↔ ∀ pt ∈ pts, ¬ s.oobAt pt := by
  rw [someOob, List.any_eq_false]
  rfl

section
variable {col : Bool} {pts : List Point} {s t : State}

theorem Draws.faulted_eq (h : Draws col pts s t) : t.faulted = (s.faulted || someOob s.cfg s.rot pts) := by
  obtain ⟨m, rfl, -⟩ := h
  simp only [State.faulted, Bool.or_assoc, Bool.or_comm (someOob s.cfg s.rot pts)]

/-- A drawing command raises nothing exactly when none of its points is out of buffer. -/
theorem Draws.unfaulted_iff (h : Draws col pts s t) (hs : s.faulted = false) :
    t.faulted = false ↔ ∀ pt ∈ pts, ¬ s.oobAt pt := by
  rw [h.faulted_eq, hs, Bool.false_or, someOob_eq_false_iff]

/-- A drawing command that leaves no sticky bit set painted its points, all of them in the framebuffer. -/
theorem Draws.paintsInBuffer (h : Draws col pts s t) (hw : s.fb.wf = true) (ht : t.faulted = false) :
    PaintsInBuffer pts col s t := by
  have hfault := h.faulted_eq
  rw [ht, eq_comm, Bool.or_eq_false_iff] at hfault
  obtain ⟨-, hoob⟩ := hfault
  obtain ⟨m, heq, -, hpaint⟩ := h
  obtain ⟨-, hbits, hother, -⟩ := hpaint hw
  simp only [hoob, Bool.or_false, Bool.false_eq_true, if_false] at heq
  subst heq
  exact ⟨someOob_eq_false_iff.mp hoob, fun pt hpt a p hst => hbits a p ⟨pt, hpt, hst⟩, hother, rfl⟩

end

/-- The points of FILL_SCREEN are all in the framebuffer exactly when the panel has no band (20_memory.md R62). -/
theorem extent_inBuffer_iff {s : State} (hl : s.cfg.legal = true) :
    (∀ pt ∈ rectPath 0 0 (extent s.cfg s.rot).1 (extent s.cfg s.rot).2, ¬ s.oobAt pt) ↔ ¬ hasBand s.cfg s.rot := by
  simp only [← State.exists_inRange_oobAt_iff hl, mem_rectPath_extent_iff hl, not_exists, not_and]

/-! ### Transactions (60_exceptions.md R203) -/

/-- The transport rejected one of the bytes of these events. -/
def Rejection (es : List Event) : Prop := ∃ b c, Event.byte b (.rejected c) ∈ es

/-- A transaction appends its events, and sets a sticky bit exactly when a byte among them was rejected. -/
theorem carryOn_events (x : Tx) (s : State) :
    ∃ es, (carryOn x s).wire = s.wire ++ es ∧
      ((carryOn x s).faulted = true ↔ s.faulted = true ∨ Rejection es) := by
  have hrej := offerBytes_rejected_iff s.pins.tx s.txScript x.pending x.accepted
  rcases carryOn_cases x s _ rfl with ⟨-, e⟩ | ⟨hnone, -, e⟩ <;> rw [e]
  · refine ⟨_, List.append_assoc _ _ _, ?_⟩
    simp [State.faulted, Rejection, hrej, or_assoc]
  · refine ⟨_, rfl, ?_⟩
    rw [Rejection, hrej, hnone]
    simp [State.faulted]

theorem transact_events (op : TxOp) (bytes : List Byte) (s : State) :
    ∃ es, (transact op bytes s).wire = s.wire ++ es ∧
      ((transact op bytes s).faulted = true ↔ s.faulted = true ∨ Rejection es) := by
  obtain ⟨es, hwire, hfault⟩ := carryOn_events ⟨op, bytes, 0⟩ (select true s)
  refine ⟨.sel true :: es, hwire.trans (by simp), hfault.trans ?_⟩
  simp [State.faulted, Rejection]

theorem clearOp_events (op : TxOp) (s : State) :
    ∃ es, (clearOp op s).wire = s.wire ++ es ∧
      ((clearOp op s).faulted = true ↔ s.faulted = true ∨ Rejection es) :=
  transact_events op (clearBytes s) { s with fb := s.fb.blank s.cfg.nb }

/-- The form of R30's premise for a transaction, by the events it appended. -/
theorem unfaulted_iff_of_events {s t : State} (hs : s.faulted = false)
    (h : ∃ es, t.wire = s.wire ++ es ∧ (t.faulted = true ↔ s.faulted = true ∨ Rejection es)) :
    t.faulted = false ↔ ∀ b c, .byte b (.rejected c) ∉ t.wire.drop s.wire.length := by
  obtain ⟨es, hwire, hfault⟩ := h
  rw [hwire, List.drop_left, ← Bool.not_eq_true, hfault, hs]
  simp [Rejection]

/-- Settles O57, by the exception each family of commands can raise. -/
theorem unfaultedCommandsRaisedNothing : Obligations.UnfaultedCommandsRaisedNothing := by
  intro i s t hs h
  obtain ⟨hl, ha⟩ := exec_answers h
  have hcalm : t.faulted = s.faulted → (t.faulted = false ↔ True) := fun he => iff_true_intro (he.trans hs)
  have hill : t.illS = true → (t.faulted = false ↔ False) := fun he => by simp [State.faulted, he]
  cases i with
  | setPixel x y col => exact (Draws.unfaulted_iff ha hs).trans List.forall_mem_singleton
  | drawLine x0 y0 x1 y1 col => exact Draws.unfaulted_iff ha hs
  | drawFastVline x y h' col => exact Draws.unfaulted_iff ha hs
  | drawFastHline x y w col => exact Draws.unfaulted_iff ha hs
  | fillRect x y w h' col => exact Draws.unfaulted_iff ha hs
  | fillScreen col => exact (Draws.unfaulted_iff ha hs).trans (extent_inBuffer_iff hl)
  | getPixel x y =>
    subst ha
    obtain ⟨ho, hi, hx⟩ := State.faulted_eq_false_iff.mp hs
    simp [State.faulted, ho, hi, hx, State.oobAt]
  | clear => subst ha; exact unfaulted_iff_of_events hs (clearOp_events .clear { s with busy := true })
  | refresh =>
    subst ha
    exact unfaulted_iff_of_events hs (transact_events .refresh _ (flipVcom { s with busy := true }))
  | nop => subst ha; exact hcalm rfl
  | setRotation r => subst ha; exact hcalm rfl
  | reverseByte v => subst ha; exact hcalm rfl
  | reservedC => subst ha; exact hill rfl
  | reservedD => subst ha; exact hill rfl
  | reservedE => subst ha; exact hill rfl
  | reservedF => subst ha; exact hill rfl

/-! ### Runs -/

/-- Every command appends to the events, and leaves no sticky bit set only when none of them is a rejection. -/
theorem exec_events {i : Instr} {s t : State} (h : exec i s = .next t) (ht : t.faulted = false) :
    ∃ es, t.wire = s.wire ++ es ∧ ¬ Rejection es := by
  have quiet : (∃ es, t.wire = s.wire ++ es ∧ (t.faulted = true ↔ s.faulted = true ∨ Rejection es)) →
      ∃ es, t.wire = s.wire ++ es ∧ ¬ Rejection es := by
    rintro ⟨es, hwire, hfault⟩
    exact ⟨es, hwire, fun hrej => by rw [hfault.mpr (.inr hrej)] at ht; cases ht⟩
  have ha := (exec_answers h).2
  by_cases hclear : i = .clear
  · subst hclear ha
    exact quiet (clearOp_events .clear { s with busy := true })
  · by_cases hrefresh : i = .refresh
    · subst hrefresh ha
      exact quiet (transact_events .refresh _ (flipVcom { s with busy := true }))
    · obtain ⟨hwire, -⟩ := onlyTransactionsReachTheWire i s t h hclear hrefresh
      exact ⟨[], by rw [hwire, List.append_nil], fun ⟨_, _, hmem⟩ => by cases hmem⟩

/-- A pending response reports `OK`, unless a sticky bit is set. -/
def OkUnlessFaulted (s : State) : Prop := s.faulted = false → ∀ r, s.rsp = some r → r.status = .ok

/-- `t` comes after `s`: it reports `OK` unless faulted, it is faulted if `s` is, and its events are those of `s` and
more, none of them a rejection unless it is faulted. -/
structure GoesOn (s t : State) : Prop where
  ok : OkUnlessFaulted t
  unfaulted : t.faulted = false → s.faulted = false
  events : t.faulted = false → ∃ es, t.wire = s.wire ++ es ∧ ¬ Rejection es

theorem GoesOn.refl {s : State} (h : OkUnlessFaulted s) : GoesOn s s :=
  ⟨h, id, fun _ => ⟨[], (List.append_nil _).symm, fun ⟨_, _, hmem⟩ => by cases hmem⟩⟩

theorem GoesOn.trans {s t u : State} (h : GoesOn s t) (h' : GoesOn t u) : GoesOn s u := by
  refine ⟨h'.ok, fun hu => h.unfaulted (h'.unfaulted hu), fun hu => ?_⟩
  obtain ⟨es, hwire, hes⟩ := h.events (h'.unfaulted hu)
  obtain ⟨es', hwire', hes'⟩ := h'.events hu
  refine ⟨es ++ es', by rw [hwire', hwire, List.append_assoc], ?_⟩
  rintro ⟨b, c, hmem⟩
  exact (List.mem_append.mp hmem).elim (fun hm => hes ⟨b, c, hm⟩) fun hm => hes' ⟨b, c, hm⟩

theorem carryOn_goesOn (x : Tx) {s : State} (h : OkUnlessFaulted s) : GoesOn s (carryOn x s) := by
  have hkeep := (carryOn_keepsSticky x s).unfaulted
  obtain ⟨es, hwire, hfault⟩ := carryOn_events x s
  refine ⟨fun ht r hr => ?_, hkeep, fun ht => ⟨es, hwire, fun hrej => ?_⟩⟩
  · rcases carryOn_rsp x s with hsame | ⟨st, data, hrsp, -, hshows⟩
    · exact h (hkeep ht) r (hsame ▸ hr)
    · rw [hrsp] at hr
      cases hr
      exact hshows.ok_of_unfaulted ht
  · rw [hfault.mpr (.inr hrej)] at ht
    cases ht

theorem clearOp_goesOn (op : TxOp) {s : State} (h : OkUnlessFaulted s) : GoesOn s (clearOp op s) := by
  have hgo := carryOn_goesOn ⟨op, clearBytes s, 0⟩ (s := select true { s with fb := s.fb.blank s.cfg.nb }) h
  refine ⟨hgo.ok, hgo.unfaulted, fun ht => ?_⟩
  obtain ⟨es, hwire, hfault⟩ := clearOp_events op s
  exact ⟨es, hwire, fun hrej => by rw [hfault.mpr (.inr hrej)] at ht; cases ht⟩

theorem responseEdge_goesOn {s : State} (h : OkUnlessFaulted s) : GoesOn s (responseEdge s) := by
  unfold responseEdge
  split
  · exact ⟨fun _ _ hr => absurd hr nofun, id, (GoesOn.refl h).events⟩
  · exact .refl h

theorem exec_goesOn {i : Instr} {s t : State} (hs : s.rsp = none) (h : exec i s = .next t) : GoesOn s t :=
  ⟨fun ht _ hr => exec_ok_of_unfaulted h ht hs hr, (exec_keepsSticky h).unfaulted, exec_events h⟩

/-- Everything a step out of reset can do keeps the premise of R30 back to its start. -/
theorem step_goesOn {s t : State} (hr : s.pins.rst = false) (hok : OkUnlessFaulted s) (h : step s = .next t) :
    GoesOn s t := by
  obtain ⟨-, h⟩ := step_cases h
  rcases h with ⟨hr', -⟩ | ⟨-, -, rfl⟩ | ⟨-, x, -, rfl⟩ | ⟨-, -, -, rfl⟩ | ⟨-, -, hrsp, -, w, rest, -, h⟩ |
    ⟨-, -, -, -, rfl⟩
  · rw [hr] at hr'; cases hr'
  · exact clearOp_goesOn .resetClear hok
  · exact carryOn_goesOn x hok
  · exact responseEdge_goesOn hok
  · have hgo := exec_goesOn (s := s.popCommand) hrsp h
    exact ⟨hgo.ok, hgo.unfaulted, hgo.events⟩
  · exact .refl hok

/-- A run out of reset passes through states from which it goes on to its end. -/
theorem run_goesOn {k : Nat} {s u : State} (hr : s.pins.rst = false) (hok : OkUnlessFaulted s)
    (h : Host.Core.run core k s = .next u) :
    GoesOn s u ∧ ∀ j, j ≤ k → ∃ v : State, Host.Core.run core j s = .next v ∧ OkUnlessFaulted v ∧ GoesOn v u := by
  induction k generalizing s with
  | zero =>
    cases h
    refine ⟨.refl hok, fun j hj => ?_⟩
    obtain rfl := Nat.le_zero.mp hj
    exact ⟨_, rfl, hok, .refl hok⟩
  | succ k ih =>
    cases hstep : step s with
    | fault f => simp [Host.Core.run, core, hstep] at h
    | refused r => simp [Host.Core.run, core, hstep] at h
    | next t =>
      have hrun : ∀ j, Host.Core.run core (j + 1) s = Host.Core.run core j t := fun j => by
        simp [Host.Core.run, core, hstep]
      have hgo := step_goesOn hr hok hstep
      obtain ⟨hrest, hstates⟩ := ih (step_pins hstep ▸ hr) hgo.ok (hrun k ▸ h)
      refine ⟨hgo.trans hrest, fun j hj => ?_⟩
      cases j with
      | zero => exact ⟨s, rfl, hok, hgo.trans hrest⟩
      | succ j =>
        obtain ⟨v, hv, hvok⟩ := hstates j (by omega)
        exact ⟨v, (hrun j).trans hv, hvok⟩

/-- Settles O58: an unfaulted end makes every earlier state of the run unfaulted, and so its responses and events. -/
theorem unfaultedRunRaisedNothing : Obligations.UnfaultedRunRaisedNothing := by
  intro k s u hr hrsp hrun hu
  obtain ⟨hgo, hstates⟩ := run_goesOn hr (fun _ r h => by rw [hrsp] at h; cases h) hrun
  refine ⟨fun j hj => ?_, ?_⟩
  · obtain ⟨v, hv, hok, hrest⟩ := hstates j hj
    exact ⟨v, hv, hrest.unfaulted hu, hok (hrest.unfaulted hu)⟩
  · obtain ⟨es, hwire, hes⟩ := hgo.events hu
    rw [hwire, List.drop_left]
    exact fun b c hmem => hes ⟨b, c, hmem⟩

/-! ### What an unfaulted command did -/

/-- A transaction that leaves no sticky bit set had all its bytes accepted, or waits for the next verdict
(44_wire.md R161 to R164). -/
theorem transact_sendsAccepted {op : TxOp} {bytes : List Byte} {s t : State} (hop : op ≠ .resetClear)
    (hpos : 0 < bytes.length) (hlen : bytes.length < 2 ^ 24) (h : t = transact op bytes s) (ht : t.faulted = false) :
    SendsAccepted op bytes s t := by
  obtain ⟨-, -, htx⟩ := State.faulted_eq_false_iff.mp ht
  rcases transportAnswers s hpos with ⟨rest, ha⟩ | ⟨k, c, rest, ha⟩ | ⟨k, ha⟩
  · rw [transact_of_accepts ha] at h
    subst h
    exact .inl ⟨rfl, rfl, by simp only [if_neg hop, transactionData_zero hlen], rfl⟩
  · rw [transact_of_rejects ha] at h
    subst h
    cases htx
  · rw [transact_of_waits ha] at h
    subst h
    exact .inr ⟨k, ha.1, rfl, rfl, rfl, rfl⟩

/-- What a transaction of a command leaves alone, whatever the transport does. -/
theorem transact_frame {op : TxOp} {bytes : List Byte} {s t : State} (hop : op ≠ .resetClear) (h : t = transact op bytes s) :
    t = { s with
      vcom := if op ≠ .refresh ∧ t.seq = .idle then !s.vcom else s.vcom, cs := t.cs, txeS := t.txeS, seq := t.seq,
      txScript := t.txScript, rsp := t.rsp, wire := t.wire } := by
  have hvcom := transact_vcom op bytes s
  rw [← h] at hvcom
  rw [← hvcom]
  rcases carryOn_cases ⟨op, bytes, 0⟩ (select true s) _ rfl with ⟨-, e⟩ | ⟨-, -, e⟩ <;>
    rw [h, transact, e] <;> simp [hop, select]

/-- GET_PIXEL that raises nothing reads 0 at a clipped point, and else the bit of a stored one (40_pixel.md R105). -/
theorem getPixel_of_unfaulted {s t : State} {x y : Int} (h : exec (.getPixel x y) s = .next t)
    (ht : t.faulted = false) :
    ∃ b : Bool, t = { s with busy := true, rsp := some { status := .ok, data := if b then 1 else 0 } } ∧
      ((locate s.cfg s.rot x y = .clip ∧ b = false) ∨ ∃ a p, s.storedAt (x, y) a p ∧ b = s.fbBit a p) := by
  have hl := (exec_answers h).1
  cases hloc : locate s.cfg s.rot x y with
  | clip =>
    rw [exec_getPixel_of_clip hl hloc] at h
    cases h
    exact ⟨false, rfl, .inl ⟨rfl, rfl⟩⟩
  | oob x' y' =>
    rw [exec_getPixel_of_oob hl hloc] at h
    cases h
    cases ht
  | cell a p =>
    rw [exec_getPixel_of_cell hl hloc] at h
    cases h
    exact ⟨_, rfl, .inr ⟨a, p, hloc, rfl⟩⟩

/-- CLEAR that raises nothing: the fill, and the transaction's bytes accepted as far as it went. -/
theorem clear_of_unfaulted {s t : State} (ha : Answers .clear s t) (ht : t.faulted = false) (hs : s.faulted = false) :
    t = { s with
      fb := t.fb, busy := true, vcom := if t.seq = .idle then !s.vcom else s.vcom, cs := t.cs, seq := t.seq,
      txScript := t.txScript, rsp := t.rsp, wire := t.wire } ∧
    (∀ a, a < s.cfg.nb → t.fb.read a = 0xFF#8) ∧ SendsAccepted .clear (clearFormat s.vcom) s t := by
  have h : t = transact .clear (clearFormat s.vcom) { s with busy := true, fb := s.fb.blank s.cfg.nb } := by
    rw [ha, clearOp, clearBytes_eq]
  have hframe := transact_frame (op := .clear) nofun h
  have hfb : t.fb = s.fb.blank s.cfg.nb := congrArg State.fb hframe
  have htx : t.txeS = s.txeS := by
    rw [(State.faulted_eq_false_iff.mp ht).2.2, (State.faulted_eq_false_iff.mp hs).2.2]
  refine ⟨?_, fun a ha => ?_, ?_⟩
  · rw [htx] at hframe
    simp only [ne_eq, reduceCtorEq, not_false_eq_true, true_and] at hframe
    rw [hfb]
    exact hframe
  · rw [hfb]
    exact (read_blank_nb s).1 a ha
  · exact transact_sendsAccepted (op := .clear) (s := { s with busy := true, fb := s.fb.blank s.cfg.nb }) nofun
      (by simp [clearFormat]) (by simp [clearFormat]) h ht

/-- REFRESH that raises nothing: the polarity inverted, and the frame's bytes accepted as far as it went. -/
theorem refresh_of_unfaulted {s t : State} (hl : s.cfg.legal = true) (ha : Answers .refresh s t)
    (ht : t.faulted = false) (hs : s.faulted = false) :
    t = { s with
      busy := true, vcom := !s.vcom, cs := t.cs, seq := t.seq, txScript := t.txScript, rsp := t.rsp, wire := t.wire } ∧
    SendsAccepted .refresh (refreshFormat s.vcom s.cfg s.fb) s t := by
  have hframe := transact_frame (op := .refresh) nofun ha
  have htx : t.txeS = s.txeS := by
    rw [(State.faulted_eq_false_iff.mp ht).2.2, (State.faulted_eq_false_iff.mp hs).2.2]
  have hpos : 0 < (refreshFormat s.vcom s.cfg s.fb).length := by rw [length_refreshFormat]; omega
  have hlen := length_refreshFormat_le hl s.vcom s.fb
  refine ⟨?_, transact_sendsAccepted (op := .refresh) (s := flipVcom { s with busy := true }) nofun hpos
    (by omega) ha ht⟩
  rw [htx] at hframe
  simp only [ne_eq, not_true_eq_false, false_and, if_false] at hframe
  exact hframe

/-- Settles O59: under R30's premise each command's answer has no out-of-buffer point and no rejected byte. -/
theorem unfaultedCommandsKeepTheirClaims : Obligations.UnfaultedCommandsKeepTheirClaims := by
  intro i s t h hw ht
  obtain ⟨hl, ha⟩ := exec_answers h
  have hs := (exec_keepsSticky h).unfaulted ht
  have hreserved : t.illS ≠ true := fun hill => by
    rw [(State.faulted_eq_false_iff.mp ht).2.1] at hill
    cases hill
  refine ⟨hs, fun r hr hr' => exec_ok_of_unfaulted h ht hr hr', ?_⟩
  cases i with
  | nop => exact ha
  | setPixel x y col => exact Draws.paintsInBuffer ha hw ht
  | getPixel x y => exact getPixel_of_unfaulted h ht
  | drawLine x0 y0 x1 y1 col => exact Draws.paintsInBuffer ha hw ht
  | drawFastVline x y h' col => exact Draws.paintsInBuffer ha hw ht
  | drawFastHline x y w col => exact Draws.paintsInBuffer ha hw ht
  | fillRect x y w h' col => exact Draws.paintsInBuffer ha hw ht
  | fillScreen col => exact Draws.paintsInBuffer ha hw ht
  | setRotation r => exact ha
  | clear => exact clear_of_unfaulted ha ht hs
  | refresh => exact refresh_of_unfaulted hl ha ht hs
  | reverseByte v =>
    rw [exec_reverseByte hl] at h
    cases h
    rfl
  | reservedC => subst ha; exact hreserved rfl
  | reservedD => subst ha; exact hreserved rfl
  | reservedE => subst ha; exact hreserved rfl
  | reservedF => subst ha; exact hreserved rfl

/-! ### Reads after writes -/

/-- A read that raises nothing found its point stored, and so returns what SET_PIXEL wrote there (40_pixel.md R106). -/
theorem getPixel_after_setPixel_of_unfaulted {s t u v : State} {x y : Int} {col : Bool} (hw : s.fb.wf = true)
    (hin : inRange s.cfg s.rot x y = true) (ht : exec (.setPixel x y col) s = .next t) (hcfg : u.cfg = t.cfg)
    (hfb : u.fb = t.fb) (hrot : u.rot = t.rot) (hv : exec (.getPixel x y) u = .next v) (hvf : v.faulted = false) :
    v.rsp = some { status := .ok, data := if col then 1 else 0 } := by
  by_cases hoob : s.oobAt (x, y)
  · rw [getPixel_oob_after_setPixel ht hcfg hrot hoob] at hv
    cases hv
    cases hvf
  · obtain ⟨i, p, hst⟩ := State.storedAt_of_inRange hin hoob
    rw [getPixel_after_setPixel hw ht hcfg hfb hrot hst] at hv
    cases hv
    rfl

/-- Settles O60: an unfaulted read is one of a stored point, and an unfaulted FILL_SCREEN one of a panel without a
band. -/
theorem unfaultedReadsReturnWhatWasWritten : Obligations.UnfaultedReadsReturnWhatWasWritten := by
  refine ⟨fun s t u v x y col => getPixel_after_setPixel_of_unfaulted, fun s t col hw h ht => ?_⟩
  have hno : ¬ hasBand s.cfg s.rot :=
    (unfaultedCommandsRaisedNothing _ s t ((exec_keepsSticky h).unfaulted ht) h).mp ht
  exact ⟨fun x' y' hx hy => fillScreen_pixel_of_not_hasBand hw h hno hx hy,
    fun x y hin => ⟨_, getPixel_after_fillScreen hw h hno hin, ht, rfl⟩⟩

end Sys2Proof.Machine
end
